-- ==== Sys2Proof/Word.lean ====
section
/-! DEFINITION. The words of the machine: bytes, 64-bit registers and addresses, 512-bit vectors. -/

namespace Sys2Proof

/-- One byte of memory or of an instruction (`20_memory.md` R40). -/
abbrev Byte := BitVec 8

/-- A 64-bit register, an effective or a linear address (`10_state.md` R24, R25). -/
abbrev W64 := BitVec 64

/-- The storage of one vector register, bit 0 the least significant (`10_state.md` R20). -/
abbrev Vec := BitVec 512

end Sys2Proof
end

