-- ==== Sys2Proof/Config.lean ====
section
/-! DEFINITION. The parameters of the spec (`00_scope.md` R6) as plain data, and the one free choice
that the spec leaves to an implementation. A `Config` stands in the state and no step writes it, so a
statement about every state is a statement about every value of the parameters (log 1). -/

namespace Sys2Proof

/-- FEAT: the six feature flags (`00_scope.md` R2, R6; `10_state.md` R30). Any combination is a value;
the closure of D3 is a premise, never forced. -/
structure Feat where
  sse41 : Bool
  avx : Bool
  avx2 : Bool
  avx512f : Bool
  avx512vl : Bool
  avx512dq : Bool
  deriving DecidableEq, Repr

/-- KW: the width of an opmask register, 16 or 64 (`00_scope.md` R6, D11). -/
inductive OpmaskWidth where
  | kw16
  | kw64
  deriving DecidableEq, Repr

/-- LINEAR_BITS: the number of implemented linear-address bits, 48 or 57 (`00_scope.md` R6, D8). -/
inductive LinearBits where
  | lb48
  | lb57
  deriving DecidableEq, Repr

/-- FAULT_ORDER: the fixed order of `60_exceptions.md` R163, or any applicable fault (D14, U1). -/
inductive FaultOrder where
  | fixed
  | any
  deriving DecidableEq, Repr

/-- The parameters of the model (`00_scope.md` R6), with the named premise SuppressionHolds
(`20_memory.md` R53, D10) and the processor signature that RDX holds after reset (`10_state.md` R33;
32 bits, zero-extended into RDX: DESIGN CHOICE, log 5). -/
structure Config where
  feat : Feat
  kw : OpmaskWidth
  linearBits : LinearBits
  acBcst : Bool
  faultOrder : FaultOrder
  suppression : Bool
  signature : BitVec 32
  deriving DecidableEq, Repr

/-- The free choice among the applicable faults under FAULT_ORDER = any (`60_exceptions.md` R163, U1).
It has no body: nothing can be proved of which fault it picks. Log 6. -/
opaque Config.freePick : Nat → Nat

end Sys2Proof
end

