-- ==== Sys2Proof/Syntax.lean ====
section
/-! DEFINITION. The instructions as syntax: one constructor of `Instr` per row of
`spec/opcode_table.json`, over the operands that `30_encoding.md` R89 step 5 says a decoder delivers. A
term keeps every choice of the encoding that changes the meaning or the length (which displacement
form, whether a REX byte stands there); bits that the spec calls ignored are not kept (log 20). -/

namespace Sys2Proof

/-- MODE: the two operating modes the model admits (`00_scope.md` R6, D1). -/
inductive Mode where
  | mode64
  | mode32
  deriving DecidableEq, Repr

/-- The six segment registers (`10_state.md` R26). -/
inductive Seg where
  | es
  | cs
  | ss
  | ds
  | fs
  | gs
  deriving DecidableEq, Repr

/-- A vector register number (`10_state.md` R20, R21). -/
abbrev VReg := Fin 32

/-- A general register number (`10_state.md` R24). -/
abbrev GReg := Fin 16

/-- An opmask register number (`10_state.md` R23). -/
abbrev KReg := Fin 8

/-- The optional legacy prefixes that every class admits: a segment override and `67`
(`30_encoding.md` R60, R62). The mandatory `66` of the legacy class is part of the instruction. -/
structure Pfx where
  seg : Option Seg
  addr : Bool
  deriving DecidableEq, Repr

/-- The displacement that follows a base register (`30_encoding.md` R74, R77). -/
inductive Disp where
  | none
  | d8 (d : BitVec 8)
  | d32 (d : BitVec 32)
  deriving DecidableEq, Repr

/-- A memory operand by its addressing form (`30_encoding.md` R76, R77). -/
inductive Mem where
  /-- `(mod, rm) = (00, 101)`: RIP-relative in Mode64, an absolute displacement in Mode32. -/
  | disp32 (d : BitVec 32)
  /-- No SIB byte: a base register and a displacement. -/
  | base (b : GReg) (d : Disp)
  /-- SIB byte with a base register; no index is `none`. -/
  | sib (b : GReg) (index : Option GReg) (scale : BitVec 2) (d : Disp)
  /-- SIB byte with `base = 101` and `mod = 00`: no base, a 32-bit displacement. -/
  | sibNoBase (index : Option GReg) (scale : BitVec 2) (d : BitVec 32)
  deriving DecidableEq, Repr

/-- The ModRM:r/m operand: a register or memory (`30_encoding.md` R74). -/
inductive RM where
  | reg (r : VReg)
  | mem (m : Mem)
  deriving DecidableEq, Repr

/-- The EVEX controls `aaa`, `z` and `b` (`30_encoding.md` R70, R82). -/
structure EvexCtl where
  aaa : KReg
  z : Bool
  b : Bool
  deriving DecidableEq, Repr

/-- The nine instructions (`00_scope.md` R2). `d` is operand 1, `a` the first source of Op/En B and C,
`r` the ModRM:r/m operand. -/
inductive Instr where
  /-- Row 1, `PMULLD xmm1, xmm2/m128` (R110); `rex` says whether a REX byte stands before the escape. -/
  | pmulld (p : Pfx) (rex : Bool) (d : VReg) (r : RM)
  /-- Row 2, `VPMULLD xmm1, xmm2, xmm3/m128`, VEX.128 (R120). -/
  | vpmulldVex128 (p : Pfx) (d a : VReg) (r : RM)
  /-- Row 3, `VPMULLD ymm1, ymm2, ymm3/m256`, VEX.256 (R121). -/
  | vpmulldVex256 (p : Pfx) (d a : VReg) (r : RM)
  /-- Row 4, `VPMULLD xmm1 (k1)(z), xmm2, xmm3/m128/m32bcst`, EVEX.128 (R130). -/
  | vpmulldEvex128 (p : Pfx) (c : EvexCtl) (d a : VReg) (r : RM)
  /-- Row 5, `VPMULLD ymm1 (k1)(z), ymm2, ymm3/m256/m32bcst`, EVEX.256 (R131). -/
  | vpmulldEvex256 (p : Pfx) (c : EvexCtl) (d a : VReg) (r : RM)
  /-- Row 6, `VPMULLD zmm1 (k1)(z), zmm2, zmm3/m512/m32bcst`, EVEX.512 (R132). -/
  | vpmulldEvex512 (p : Pfx) (c : EvexCtl) (d a : VReg) (r : RM)
  /-- Row 7, `VPMULLQ xmm1 (k1)(z), xmm2, xmm3/m128/m64bcst`, EVEX.128 (R140). -/
  | vpmullqEvex128 (p : Pfx) (c : EvexCtl) (d a : VReg) (r : RM)
  /-- Row 8, `VPMULLQ ymm1 (k1)(z), ymm2, ymm3/m256/m64bcst`, EVEX.256 (R141). -/
  | vpmullqEvex256 (p : Pfx) (c : EvexCtl) (d a : VReg) (r : RM)
  /-- Row 9, `VPMULLQ zmm1 (k1)(z), zmm2, zmm3/m512/m64bcst`, EVEX.512 (R142). -/
  | vpmullqEvex512 (p : Pfx) (c : EvexCtl) (d a : VReg) (r : RM)
  deriving DecidableEq, Repr

/-- The three encoding classes (`30_encoding.md` R60). -/
inductive EncClass where
  | legacy
  | vex
  | evex
  deriving DecidableEq, Repr

/-- The element type: dword or qword (`30_encoding.md` R72, R81). -/
inductive Elem where
  | dword
  | qword
  deriving DecidableEq, Repr

/-- The vector length (`30_encoding.md` R81). -/
inductive VLen where
  | v128
  | v256
  | v512
  deriving DecidableEq, Repr

/-- What tells the nine encodings apart (`30_encoding.md` R81). -/
structure Form where
  cls : EncClass
  elem : Elem
  vlen : VLen
  deriving DecidableEq, Repr

/-- The operands of any of the nine instructions, in one shape (`30_encoding.md` R89 step 5): `len` is
the instruction length in bytes. A class without the EVEX controls has them all 0. -/
structure Operands where
  pfx : Pfx
  len : Nat
  ctl : EvexCtl
  dst : VReg
  src1 : VReg
  rm : RM
  deriving DecidableEq, Repr

end Sys2Proof
end

