-- ==== Sys2Proof/WellFormed.lean ====
section
/-! DEFINITION. Well-formedness: which terms of `Instr` some byte string of `30_encoding.md` stands for in
a given mode. Each check is one Bool, so that a term can be tested. -/

namespace Sys2Proof

/-- The number of vector registers an encoding class can name in a mode (`10_state.md` R21). -/
def nameableRegs : EncClass → Mode → Nat
  | .evex, .mode64 => 32
  | _, .mode64 => 16
  | _, .mode32 => 8

/-- The number of general registers nameable in a mode (`10_state.md` R24). -/
def nameableGprs : Mode → Nat
  | .mode64 => 16
  | .mode32 => 8

/-- An index field of value 4 means "no index" and names no register (`30_encoding.md` R76). -/
def wfIndex (m : Mode) : Option GReg → Bool
  | none => true
  | some i => i.val != 4 && i.val < nameableGprs m

/-- A memory operand that ModRM and SIB can spell (`30_encoding.md` R76, R77): base numbers 4 and 12 need
a SIB byte, base numbers 5 and 13 need a displacement. -/
def wfMem (m : Mode) : Mem → Bool
  | .disp32 _ => true
  | .base b d => b.val < nameableGprs m && b.val % 8 != 4 && (d != .none || b.val % 8 != 5)
  | .sib b i _ d => b.val < nameableGprs m && wfIndex m i && (d != .none || b.val % 8 != 5)
  | .sibNoBase i _ _ => wfIndex m i

/-- The r/m operand of a class (`30_encoding.md` R75, R76). -/
def wfRM (cls : EncClass) (m : Mode) : RM → Bool
  | .reg r => r.val < nameableRegs cls m
  | .mem x => wfMem m x

/-- `67` selects 16-bit addressing in Mode32, which is refused (`30_encoding.md` R88). -/
def wfPfx : Mode → Pfx → Bool
  | .mode64, _ => true
  | .mode32, p => !p.addr

/-- The index register number when it is 8 or more, the base or r/m number when it is 8 or more: without
a REX byte the legacy class names none of them (`30_encoding.md` R63, R75). -/
def rmNeedsRex : RM → Bool
  | .reg r => 8 ≤ r.val
  | .mem (.disp32 _) => false
  | .mem (.base b _) => 8 ≤ b.val
  | .mem (.sib b i _ _) => 8 ≤ b.val || (i.any fun x => 8 ≤ x.val)
  | .mem (.sibNoBase i _ _) => i.any fun x => 8 ≤ x.val

/-- Zeroing needs a writemask, and `b` needs a memory operand (`30_encoding.md` R85). -/
def wfCtl (c : EvexCtl) (r : RM) : Bool :=
  !(c.z && c.aaa.val == 0) && !(c.b && match r with | .reg _ => true | .mem _ => false)

/-- The legacy class: no REX in Mode32, and a REX wherever a number of 8 or more is named
(`30_encoding.md` R63, R75). -/
def wfLegacy (m : Mode) (p : Pfx) (rex : Bool) (d : VReg) (r : RM) : Bool :=
  wfPfx m p && decide (d.val < nameableRegs .legacy m) && wfRM .legacy m r &&
    (if rex then m == .mode64 else !(8 ≤ d.val) && !rmNeedsRex r)

/-- The VEX class (`30_encoding.md` R69, R75). -/
def wfVex (m : Mode) (p : Pfx) (d a : VReg) (r : RM) : Bool :=
  wfPfx m p && decide (d.val < nameableRegs .vex m) && decide (a.val < nameableRegs .vex m) &&
    wfRM .vex m r

/-- The EVEX class (`30_encoding.md` R73, R75, R85). -/
def wfEvex (m : Mode) (p : Pfx) (c : EvexCtl) (d a : VReg) (r : RM) : Bool :=
  wfPfx m p && decide (d.val < nameableRegs .evex m) && decide (a.val < nameableRegs .evex m) &&
    wfRM .evex m r && wfCtl c r

/-- Some byte string decodes to the instruction in the mode (`30_encoding.md` R60 to R88). -/
def Instr.wellFormed (m : Mode) : Instr → Bool
  | .pmulld p rex d r => wfLegacy m p rex d r
  | .vpmulldVex128 p d a r => wfVex m p d a r
  | .vpmulldVex256 p d a r => wfVex m p d a r
  | .vpmulldEvex128 p c d a r => wfEvex m p c d a r
  | .vpmulldEvex256 p c d a r => wfEvex m p c d a r
  | .vpmulldEvex512 p c d a r => wfEvex m p c d a r
  | .vpmullqEvex128 p c d a r => wfEvex m p c d a r
  | .vpmullqEvex256 p c d a r => wfEvex m p c d a r
  | .vpmullqEvex512 p c d a r => wfEvex m p c d a r

end Sys2Proof
end

