-- ==== Sys2Proof/Decode.lean ====
section
/-! DEFINITION. The decoder of `30_encoding.md` R89, total on any byte string, the instruction length of
R84, and after them the encoder, written from the same tables (R60 to R80). -/

namespace Sys2Proof

/-! ### Fields of a byte -/

/-- The `n`-bit field of a byte from bit `lo` up (`00_scope.md` R7). -/
def fld (b : Byte) (lo n : Nat) : BitVec n := b.extractLsb' lo n

/-- Bit `i` of a byte. -/
def bit (b : Byte) (i : Nat) : Bool := b.getLsbD i

/-- A vector register number from its two high bits and its 3-bit field (`30_encoding.md` R75). -/
def vregOf (b4 b3 : Bool) (lo : BitVec 3) : VReg :=
  ⟨16 * b4.toNat + 8 * b3.toNat + lo.toNat, by
    have := lo.isLt; cases b4 <;> cases b3 <;> simp <;> omega⟩

/-- A vector register number from `V'` and `vvvv`, both as register-number bits, not inverted
(`30_encoding.md` R75). -/
def vregOfV (b4 : Bool) (v : BitVec 4) : VReg :=
  ⟨16 * b4.toNat + v.toNat, by have := v.isLt; cases b4 <;> simp <;> omega⟩

/-- A general register number from its high bit and its 3-bit field (`30_encoding.md` R76, R77). -/
def gregOf (b3 : Bool) (lo : BitVec 3) : GReg :=
  ⟨8 * b3.toNat + lo.toNat, by have := lo.isLt; cases b3 <;> simp <;> omega⟩

/-- A little-endian 32-bit displacement (`20_memory.md` R43, `30_encoding.md` R77). -/
def disp32Of (b0 b1 b2 b3 : Byte) : BitVec 32 := b3 ++ b2 ++ b1 ++ b0

/-! ### Results of decoding -/

/-- Why the decoder gives a byte string no meaning (`30_encoding.md` R88, R89). None is a claim that the
chip faults: each refusal is safe. -/
inductive DecodeRefusal where
  /-- The bytes spell something the spec does not cover (R89, `NotInScope`). -/
  | notInScope
  /-- The byte string ends inside an instruction. -/
  | truncated
  /-- A prefix of one kind stands twice, or two different segment overrides, or F2 with F3 (R62, U3). -/
  | repeatedPrefix
  /-- F2 or F3 with the legacy form (R86, U2). -/
  | repPrefix
  /-- Prefix 67 in Mode32: 16-bit addressing (R62, R88). -/
  | addressSize16
  /-- A REX byte not immediately before the escape (R63, R88, U3). -/
  | misplacedRex
  /-- VEX or EVEX in Mode32 with a bit that would name a register 8..31 (R69, R73, D22, U4). -/
  | highRegister32
  deriving DecidableEq, Repr

/-- What a byte string is: an instruction and the bytes after it, an encoding that raises #UD
(R85 to R87), or a refusal by name. -/
inductive Decoded where
  | ok (i : Instr) (rest : List Byte)
  | invalidOpcode
  | refused (why : DecodeRefusal)
  deriving DecidableEq, Repr

/-! ### Legacy prefixes (step 1 of R89) -/

/-- The kinds of one-byte prefix (`30_encoding.md` R62). -/
inductive PfxByte where
  | opSize
  | addrSize
  | segment (s : Seg)
  | lock
  | rep
  deriving DecidableEq, Repr

/-- The prefix table (`30_encoding.md` R62). -/
def prefixOf (b : Byte) : Option PfxByte :=
  if b = 0x66#8 then some .opSize
  else if b = 0x67#8 then some .addrSize
  else if b = 0x2E#8 then some (.segment .cs)
  else if b = 0x36#8 then some (.segment .ss)
  else if b = 0x3E#8 then some (.segment .ds)
  else if b = 0x26#8 then some (.segment .es)
  else if b = 0x64#8 then some (.segment .fs)
  else if b = 0x65#8 then some (.segment .gs)
  else if b = 0xF0#8 then some .lock
  else if b = 0xF2#8 then some .rep
  else if b = 0xF3#8 then some .rep
  else none

/-- The prefixes read so far. -/
structure PfxSet where
  opSize : Bool
  addr : Bool
  seg : Option Seg
  lock : Bool
  rep : Bool
  deriving DecidableEq, Repr

/-- No prefix read. -/
def noPrefixes : PfxSet := ⟨false, false, none, false, false⟩

/-- One more prefix; `none` when its kind was read before (`30_encoding.md` R62). -/
def addPrefix (a : PfxSet) : PfxByte → Option PfxSet
  | .opSize => if a.opSize then none else some { a with opSize := true }
  | .addrSize => if a.addr then none else some { a with addr := true }
  | .segment s => if a.seg.isSome then none else some { a with seg := some s }
  | .lock => if a.lock then none else some { a with lock := true }
  | .rep => if a.rep then none else some { a with rep := true }

/-- Reads prefixes while there are any; `none` on a repeated kind (R89 step 1). -/
def readPrefixes : PfxSet → List Byte → Option (PfxSet × List Byte)
  | a, [] => some (a, [])
  | a, b :: rest =>
    match prefixOf b with
    | none => some (a, b :: rest)
    | some p =>
      match addPrefix a p with
      | none => none
      | some a' => readPrefixes a' rest

/-- The prefixes an instruction keeps. -/
def keptPfx (a : PfxSet) : Pfx := ⟨a.seg, a.addr⟩

/-- A LOCK, 66, F2 or F3 before a VEX or EVEX escape is #UD (`30_encoding.md` R85, R87). -/
def illegalBeforeVex (a : PfxSet) : Bool := a.lock || a.opSize || a.rep

/-! ### ModRM, SIB and displacement (step 3 of R89) -/

/-- The displacement after a base register, by `mod` (`30_encoding.md` R74). -/
def readDisp (md : BitVec 2) (bs : List Byte) : Option (Disp × List Byte) :=
  if md = 0#2 then some (.none, bs)
  else if md = 1#2 then
    match bs with
    | d :: rest => some (.d8 d, rest)
    | _ => none
  else
    match bs with
    | b0 :: b1 :: b2 :: b3 :: rest => some (.d32 (disp32Of b0 b1 b2 b3), rest)
    | _ => none

/-- A 32-bit displacement. -/
def readDisp32 : List Byte → Option (BitVec 32 × List Byte)
  | b0 :: b1 :: b2 :: b3 :: rest => some (disp32Of b0 b1 b2 b3, rest)
  | _ => none

/-- The index register of a SIB byte (`30_encoding.md` R76). -/
def indexOf (x : Bool) (idx : BitVec 3) : Option GReg :=
  if !x && idx = 4#3 then none else some (gregOf x idx)

/-- The memory operand of `mod` and `rm`; `x` and `b` are the index and base extension bits
(`30_encoding.md` R76, R77). -/
def readMem (x b : Bool) (md : BitVec 2) (rm : BitVec 3) (bs : List Byte) : Option (Mem × List Byte) :=
  if rm = 4#3 then
    match bs with
    | [] => none
    | s :: rest =>
      let index := indexOf x (fld s 3 3)
      if fld s 0 3 = 5#3 ∧ md = 0#2 then
        (readDisp32 rest).map fun (d, rest') => (.sibNoBase index (fld s 6 2) d, rest')
      else
        (readDisp md rest).map fun (d, rest') => (.sib (gregOf b (fld s 0 3)) index (fld s 6 2) d, rest')
  else if rm = 5#3 ∧ md = 0#2 then
    (readDisp32 bs).map fun (d, rest) => (.disp32 d, rest)
  else
    (readDisp md bs).map fun (d, rest) => (.base (gregOf b rm) d, rest)

/-- ModRM and what follows it: the reg field, the r/m operand and the bytes after. `hi` is bit 4 of the
r/m register number (EVEX `X`, else 0) (`30_encoding.md` R74, R75). -/
def readModRM (hi x b : Bool) : List Byte → Option (BitVec 3 × RM × List Byte)
  | [] => none
  | m :: bs =>
    if fld m 6 2 = 3#2 then some (fld m 3 3, .reg (vregOf hi b (fld m 0 3)), bs)
    else (readMem x b (fld m 6 2) (fld m 0 3) bs).map fun (a, rest) => (fld m 3 3, .mem a, rest)

/-! ### The three classes (step 2 of R89) -/

/-- The legacy class after the byte 0F; `rex` is the REX byte if one was read (`30_encoding.md` R61 to
R64, R86). Each byte is tested as soon as it is read (log 14). -/
def decodeLegacy (a : PfxSet) (rex : Option Byte) : List Byte → Decoded
  | [] => .refused .truncated
  | b1 :: tail =>
    if b1 = 0x38#8 then
      match tail with
      | [] => .refused .truncated
      | b2 :: bs =>
        if b2 = 0x40#8 then
          if !a.opSize then .refused .notInScope
          else if a.rep then .refused .repPrefix
          else if a.lock then .invalidOpcode
          else
            let r := rex.getD 0x40#8
            match readModRM false (bit r 1) (bit r 0) bs with
            | none => .refused .truncated
            | some (g, rm, rest) => .ok (.pmulld (keptPfx a) rex.isSome (vregOf false (bit r 2) g) rm) rest
        else .refused .notInScope
    else .refused .notInScope

/-- The bits of a VEX prefix that must be 1 in Mode32 (`30_encoding.md` R69, D22). -/
def vexOk32 (p1 p2 : Byte) : Bool := bit p1 5 && bit p2 6

/-- What follows `P1` and `P2` of a VEX prefix of the group: the opcode byte and the operands
(`30_encoding.md` R65 to R69). -/
def decodeVexTail (m : Mode) (a : PfxSet) (p1 p2 : Byte) : List Byte → Decoded
  | [] => .refused .truncated
  | op :: bs =>
    if op = 0x40#8 then
      if m = .mode32 ∧ !vexOk32 p1 p2 then .refused .highRegister32
      else
        match readModRM false (!bit p1 6) (!bit p1 5) bs with
        | none => .refused .truncated
        | some (g, rm, rest) =>
          let d := vregOf false (!bit p1 7) g
          let s := vregOfV false (~~~(fld p2 3 4))
          if bit p2 2 then .ok (.vpmulldVex256 (keptPfx a) d s rm) rest
          else .ok (.vpmulldVex128 (keptPfx a) d s rm) rest
    else .refused .notInScope

/-- The VEX class after the byte C4 (`30_encoding.md` R65 to R69, R87). -/
def decodeVex (m : Mode) (a : PfxSet) : List Byte → Decoded
  | p1 :: p2 :: tail =>
    if fld p1 0 5 = 2#5 ∧ fld p2 0 2 = 1#2 then decodeVexTail m a p1 p2 tail
    else .refused .notInScope
  | _ => .refused .truncated

/-- The six EVEX instructions by `W` and `L'L`; `L'L = 11` names none (`30_encoding.md` R73). -/
def evexInstr (w : Bool) (ll : BitVec 2) (p : Pfx) (c : EvexCtl) (d s : VReg) (r : RM) : Option Instr :=
  if ll = 0#2 then some (if w then .vpmullqEvex128 p c d s r else .vpmulldEvex128 p c d s r)
  else if ll = 1#2 then some (if w then .vpmullqEvex256 p c d s r else .vpmulldEvex256 p c d s r)
  else if ll = 2#2 then some (if w then .vpmullqEvex512 p c d s r else .vpmulldEvex512 p c d s r)
  else none

/-- The bits of an EVEX prefix that must be 1 in Mode32 (`30_encoding.md` R73, D22). -/
def evexOk32 (p0 p1 p2 : Byte) : Bool := bit p0 5 && bit p0 4 && bit p1 6 && bit p2 3

/-- What follows `P0`, `P1` and `P2` of an EVEX prefix of the group: the opcode byte and the operands
(`30_encoding.md` R70 to R73, R85). -/
def decodeEvexTail (m : Mode) (a : PfxSet) (p0 p1 p2 : Byte) : List Byte → Decoded
  | [] => .refused .truncated
  | op :: bs =>
    if op = 0x40#8 then
      if fld p2 5 2 = 3#2 then .invalidOpcode
      else if m = .mode32 ∧ !evexOk32 p0 p1 p2 then .refused .highRegister32
      else
        match readModRM (!bit p0 6) (!bit p0 6) (!bit p0 5) bs with
        | none => .refused .truncated
        | some (g, rm, rest) =>
          let c : EvexCtl := ⟨(fld p2 0 3).toFin, bit p2 7, bit p2 4⟩
          if wfCtl c rm then
            match evexInstr (bit p1 7) (fld p2 5 2) (keptPfx a) c (vregOf (!bit p0 4) (!bit p0 7) g)
              (vregOfV (!bit p2 3) (~~~(fld p1 3 4))) rm with
            | some i => .ok i rest
            | none => .invalidOpcode
          else .invalidOpcode
    else .refused .notInScope

/-- The EVEX class after the byte 62: the reserved bits of `P0` and `P1` are tested once `P0`, `P1` and `P2` are read,
whatever follows (`30_encoding.md` R70 to R73, R85, R89 step 2). -/
def decodeEvex (m : Mode) (a : PfxSet) : List Byte → Decoded
  | p0 :: p1 :: p2 :: tail =>
    if fld p0 2 2 ≠ 0#2 ∨ !bit p1 2 then .invalidOpcode
    else if fld p0 0 2 = 2#2 ∧ fld p1 0 2 = 1#2 then decodeEvexTail m a p0 p1 p2 tail
    else .refused .notInScope
  | _ => .refused .truncated

/-- In Mode32 the bytes C4 and 62 are VEX and EVEX escapes only if bits 7:6 of the next byte are 11; else
they are LES and BOUND, not in scope (`30_encoding.md` R69, R73). With no next byte Mode32 has refused before. -/
def escapeHolds (m : Mode) : List Byte → Bool
  | [] => true
  | b :: _ => m == .mode64 || fld b 6 2 = 3#2

/-- After a REX byte: the escape 0F, or a VEX or EVEX escape, which is then #UD (`30_encoding.md` R63, R85,
R87; log 15). -/
def decodeRex (a : PfxSet) (rex : Byte) : List Byte → Decoded
  | [] => .refused .truncated
  | c :: bs =>
    if c = 0x0F#8 then decodeLegacy a (some rex) bs
    else if c = 0xC4#8 ∨ c = 0x62#8 then .invalidOpcode
    else if (prefixOf c).isSome ∨ fld c 4 4 = 4#4 then .refused .misplacedRex
    else .refused .notInScope

/-- The class byte after the prefixes (R89 step 2). In Mode32 a byte string that ends right after C4 or 62 lacks the
byte that tells the escape, and is truncated (log 14). -/
def decodeBody (m : Mode) (a : PfxSet) : List Byte → Decoded
  | [] => .refused .truncated
  | c :: bs =>
    if m = .mode32 ∧ (c = 0xC4#8 ∨ c = 0x62#8) ∧ bs.isEmpty then .refused .truncated
    else if c = 0xC4#8 ∧ escapeHolds m bs then
      if illegalBeforeVex a then .invalidOpcode else decodeVex m a bs
    else if c = 0x62#8 ∧ escapeHolds m bs then
      if illegalBeforeVex a then .invalidOpcode else decodeEvex m a bs
    else if m = .mode64 ∧ fld c 4 4 = 4#4 then decodeRex a c bs
    else if c = 0x0F#8 then decodeLegacy a none bs
    else .refused .notInScope

/-- The decoder of `30_encoding.md` R89. -/
def decode (m : Mode) (bs : List Byte) : Decoded :=
  match readPrefixes noPrefixes bs with
  | none => .refused .repeatedPrefix
  | some (a, rest) =>
    if m = .mode32 ∧ a.addr then .refused .addressSize16
    else decodeBody m a rest

/-! ### Instruction length (R84) -/

/-- The optional prefix bytes of a class. -/
def pfxLen (p : Pfx) : Nat := p.seg.isSome.toNat + p.addr.toNat

/-- The displacement bytes: 0, 1 or 4. -/
def dispLen : Disp → Nat
  | .none => 0
  | .d8 _ => 1
  | .d32 _ => 4

/-- SIB and displacement bytes of a memory operand. -/
def memLen : Mem → Nat
  | .disp32 _ => 4
  | .base _ d => dispLen d
  | .sib _ _ _ d => 1 + dispLen d
  | .sibNoBase _ _ _ => 1 + 4

/-- ModRM and what follows it. -/
def rmLen : RM → Nat
  | .reg _ => 1
  | .mem m => 1 + memLen m

/-- Length of the legacy form: prefixes with the 66, REX, `0F 38 40`, ModRM (`30_encoding.md` R84). -/
def legacyLen (p : Pfx) (rex : Bool) (r : RM) : Nat := pfxLen p + 1 + rex.toNat + 3 + rmLen r

/-- Length of the VEX forms: prefixes, three prefix bytes, opcode, ModRM (`30_encoding.md` R84). -/
def vexLen (p : Pfx) (r : RM) : Nat := pfxLen p + 3 + 1 + rmLen r

/-- Length of the EVEX forms: prefixes, four prefix bytes, opcode, ModRM (`30_encoding.md` R84). -/
def evexLen (p : Pfx) (r : RM) : Nat := pfxLen p + 4 + 1 + rmLen r

/-- The instruction length in bytes (`30_encoding.md` R84). -/
def instrLen : Instr → Nat
  | .pmulld p rex _ r => legacyLen p rex r
  | .vpmulldVex128 p _ _ r => vexLen p r
  | .vpmulldVex256 p _ _ r => vexLen p r
  | .vpmulldEvex128 p _ _ _ r => evexLen p r
  | .vpmulldEvex256 p _ _ _ r => evexLen p r
  | .vpmulldEvex512 p _ _ _ r => evexLen p r
  | .vpmullqEvex128 p _ _ _ r => evexLen p r
  | .vpmullqEvex256 p _ _ _ r => evexLen p r
  | .vpmullqEvex512 p _ _ _ r => evexLen p r

/-! ### The encoder -/

/-- The low three bits of a register number. -/
def low3 (n : Nat) : BitVec 3 := BitVec.ofNat 3 n

/-- Bit `i` of a register number. -/
def numBit (n i : Nat) : Bool := n.testBit i

/-- The segment-override bytes (`30_encoding.md` R62). -/
def segByte : Seg → Byte
  | .cs => 0x2E#8
  | .ss => 0x36#8
  | .ds => 0x3E#8
  | .es => 0x26#8
  | .fs => 0x64#8
  | .gs => 0x65#8

/-- The optional prefixes in the order `[seg] [67]` (`30_encoding.md` R60). -/
def encodePfx (p : Pfx) : List Byte :=
  (match p.seg with | some s => [segByte s] | none => []) ++ (if p.addr then [0x67#8] else [])

/-- A displacement's `mod` field (`30_encoding.md` R74). -/
def dispMod : Disp → BitVec 2
  | .none => 0#2
  | .d8 _ => 1#2
  | .d32 _ => 2#2

/-- Four little-endian displacement bytes. -/
def encodeDisp32 (d : BitVec 32) : List Byte :=
  [d.extractLsb' 0 8, d.extractLsb' 8 8, d.extractLsb' 16 8, d.extractLsb' 24 8]

/-- The displacement bytes. -/
def encodeDisp : Disp → List Byte
  | .none => []
  | .d8 d => [d]
  | .d32 d => encodeDisp32 d

/-- ModRM from its three fields (`30_encoding.md` R74). -/
def modRM (md : BitVec 2) (reg rm : BitVec 3) : Byte := (md ++ reg) ++ rm

/-- SIB from its three fields (`30_encoding.md` R76). -/
def sibByte (scale : BitVec 2) (index base : BitVec 3) : Byte := (scale ++ index) ++ base

/-- The SIB index field: 100 for no index (`30_encoding.md` R76). -/
def indexField : Option GReg → BitVec 3
  | none => 4#3
  | some i => low3 i.val

/-- ModRM, SIB and displacement of an operand (`30_encoding.md` R74 to R77). -/
def encodeRM (g : BitVec 3) : RM → List Byte
  | .reg r => [modRM 3#2 g (low3 r.val)]
  | .mem (.disp32 d) => modRM 0#2 g 5#3 :: encodeDisp32 d
  | .mem (.base b d) => modRM (dispMod d) g (low3 b.val) :: encodeDisp d
  | .mem (.sib b i sc d) =>
    modRM (dispMod d) g 4#3 :: sibByte sc (indexField i) (low3 b.val) :: encodeDisp d
  | .mem (.sibNoBase i sc d) =>
    modRM 0#2 g 4#3 :: sibByte sc (indexField i) 5#3 :: encodeDisp32 d

/-- The `B` bit an operand needs: bit 3 of the r/m or base number (`30_encoding.md` R75, R76). -/
def rmB : RM → Bool
  | .reg r => numBit r.val 3
  | .mem (.base b _) => numBit b.val 3
  | .mem (.sib b _ _ _) => numBit b.val 3
  | .mem (.disp32 _) => false
  | .mem (.sibNoBase _ _ _) => false

/-- The `X` bit of an index. -/
def indexX : Option GReg → Bool
  | none => false
  | some i => numBit i.val 3

/-- The `X` bit an operand needs: bit 3 of the index number, or bit 4 of an EVEX register number
(`30_encoding.md` R70, R75, R76). -/
def rmX : RM → Bool
  | .reg r => numBit r.val 4
  | .mem (.base _ _) => false
  | .mem (.sib _ i _ _) => indexX i
  | .mem (.disp32 _) => false
  | .mem (.sibNoBase i _ _) => indexX i

/-- One bit as a bit vector. -/
def b1 (x : Bool) : BitVec 1 := BitVec.ofBool x

/-- The REX byte `0100WRXB` with `W = 0` (`30_encoding.md` R63). -/
def rexByte (r x b : Bool) : Byte := (((0x4#4 ++ 0#1) ++ b1 r) ++ b1 x) ++ b1 b

/-- VEX byte `P1` with the map 0F38 (`30_encoding.md` R65, R66): the three bits are stored inverted. -/
def vexP1 (r x b : Bool) : Byte := ((b1 (!r) ++ b1 (!x)) ++ b1 (!b)) ++ 2#5

/-- VEX byte `P2` with `W = 0` and `pp = 01` (`30_encoding.md` R65, R66): `v` is stored inverted. -/
def vexP2 (v : BitVec 4) (l : Bool) : Byte := ((0#1 ++ ~~~v) ++ b1 l) ++ 1#2

/-- EVEX byte `P0` with the map 0F38 (`30_encoding.md` R70, R71). -/
def evexP0 (r x b r' : Bool) : Byte := (((b1 (!r) ++ b1 (!x)) ++ b1 (!b)) ++ b1 (!r')) ++ 2#4

/-- EVEX byte `P1` with the fixed bit and `pp = 01` (`30_encoding.md` R70, R71). -/
def evexP1 (w : Bool) (v : BitVec 4) : Byte := (b1 w ++ ~~~v) ++ 5#3

/-- EVEX byte `P2` (`30_encoding.md` R70). -/
def evexP2 (c : EvexCtl) (ll : BitVec 2) (v' : Bool) : Byte :=
  (((b1 c.z ++ ll) ++ b1 c.b) ++ b1 (!v')) ++ low3 c.aaa.val

/-- The legacy form (`30_encoding.md` R60, R61, R64). -/
def encodeLegacy (p : Pfx) (rex : Bool) (d : VReg) (r : RM) : List Byte :=
  encodePfx p ++ [0x66#8] ++ (if rex then [rexByte (numBit d.val 3) (rmX r) (rmB r)] else []) ++
    [0x0F#8, 0x38#8, 0x40#8] ++ encodeRM (low3 d.val) r

/-- The VEX forms (`30_encoding.md` R67). -/
def encodeVex (l : Bool) (p : Pfx) (d a : VReg) (r : RM) : List Byte :=
  encodePfx p ++
    [0xC4#8, vexP1 (numBit d.val 3) (rmX r) (rmB r), vexP2 (BitVec.ofNat 4 a.val) l, 0x40#8] ++
    encodeRM (low3 d.val) r

/-- The EVEX forms (`30_encoding.md` R73). -/
def encodeEvex (w : Bool) (ll : BitVec 2) (p : Pfx) (c : EvexCtl) (d a : VReg) (r : RM) : List Byte :=
  encodePfx p ++
    [0x62#8, evexP0 (numBit d.val 3) (rmX r) (rmB r) (numBit d.val 4), evexP1 w (BitVec.ofNat 4 a.val),
      evexP2 c ll (numBit a.val 4), 0x40#8] ++
    encodeRM (low3 d.val) r

/-- The bytes of a well-formed instruction (`30_encoding.md` R60 to R80). -/
def encode : Instr → List Byte
  | .pmulld p rex d r => encodeLegacy p rex d r
  | .vpmulldVex128 p d a r => encodeVex false p d a r
  | .vpmulldVex256 p d a r => encodeVex true p d a r
  | .vpmulldEvex128 p c d a r => encodeEvex false 0#2 p c d a r
  | .vpmulldEvex256 p c d a r => encodeEvex false 1#2 p c d a r
  | .vpmulldEvex512 p c d a r => encodeEvex false 2#2 p c d a r
  | .vpmullqEvex128 p c d a r => encodeEvex true 0#2 p c d a r
  | .vpmullqEvex256 p c d a r => encodeEvex true 1#2 p c d a r
  | .vpmullqEvex512 p c d a r => encodeEvex true 2#2 p c d a r

/-! ### The words of the opcode table -/

/-- The longest byte string a step looks at (`30_encoding.md` R60, R84). -/
def maxInstrLen : Nat := 15

/-- `n` bytes of a number, the first one the most significant: how `spec/opcode_table.json` writes its
`encoding` and `match` (log 13). -/
def bytesMsbFirst (n w : Nat) : List Byte := (List.range n).map fun k => BitVec.ofNat 8 (w >>> (8 * (n - 1 - k)))

/-- `n` bytes of a number, the first one the least significant (log 13). -/
def bytesLsbFirst (n w : Nat) : List Byte := (List.range n).map fun k => BitVec.ofNat 8 (w >>> (8 * k))

/-- Zero bytes up to the longest instruction. -/
def padInstr (bs : List Byte) : List Byte := bs ++ List.replicate (maxInstrLen - bs.length) 0#8

/-- Does the byte string decode to an instruction in Mode64? -/
def decodesIn64 (bs : List Byte) : Bool :=
  match decode .mode64 bs with
  | .ok _ _ => true
  | _ => false

/-- The bytes of a table word of `nbits` bits, padded with zero bytes: in the table's own numbering, and
where that spells no instruction, with the first byte the least significant (log 13). -/
def tableBytes (nbits w : Nat) : List Byte :=
  let n := (nbits + 7) / 8
  let msb := padInstr (bytesMsbFirst n w)
  if decodesIn64 msb then msb else padInstr (bytesLsbFirst n w)

/-- The instruction the decoder reads from a table word, in Mode64 (log 13). -/
def decodeTableWord (nbits w : Nat) : Option Instr :=
  match decode .mode64 (tableBytes nbits w) with
  | .ok i _ => some i
  | _ => none

end Sys2Proof
end

