-- ==== Sys2Proof/Machine/State.lean ====
section
/-! DEFINITION. The state of the machine as plain data (`10_state.md`), the faults and refusals of a step,
and the state after reset (`10_state.md` R33). -/

namespace Sys2Proof.Machine

/-- The operating modes in which the model gives no byte string a meaning (`00_scope.md` R13,
`30_encoding.md` R88, D1). -/
inductive UnadmittedMode where
  | realAddress
  | virtual8086
  | code16
  deriving DecidableEq, Repr

/-- The faults of `60_exceptions.md` R150. A step that raises one leaves the state as it was and ends the
run (R164, R165); what the chip does to deliver it is outside the scope (log 7). -/
inductive Fault where
  /-- #UD, vector 6. Raised by the decoder on the encodings of `30_encoding.md` R85 to R87 and by every
  instruction under `60_exceptions.md` R151 to R153. Safe: the run ends where the chip traps. -/
  | invalidOpcode
  /-- #NM, vector 7. Raised by every instruction when CR0.TS = 1 (R154). Safe. -/
  | deviceNotAvailable
  /-- #SS(0), vector 12. Raised by a memory operand based on SS (R156). Safe. -/
  | stackSegment
  /-- #GP(0), vector 13. Raised by a memory operand: misaligned legacy form, non-canonical address, segment
  violation (R155). Safe; unsafe for a claim THAT the fault happens on the points of logs 16 and 17. -/
  | generalProtection
  /-- #PF(code), vector 14, with the value CR2 receives. Raised by a memory operand (R157). Safe; unsafe for
  a claim about CR2 across pages (D8, log 2). That the code has 32 bits is PRESUMED (log 30). -/
  | pageFault (code : BitVec 32) (cr2 : W64)
  /-- #AC(0), vector 17. Raised by an EVEX broadcast read when AC_BCST (R158). Safe. -/
  | alignmentCheck
  deriving DecidableEq, Repr

/-- Why a step has no meaning. Each refusal is safe: nothing can be proved of what the chip does there. -/
inductive Refusal where
  /-- An arm of `exec` without a meaning yet: no arm answers with it. Safe. -/
  | notModelled (mnemonic : String)
  /-- The decoder refuses the bytes (`30_encoding.md` R88, R89). Raised by `step`. Safe. -/
  | decode (why : DecodeRefusal)
  /-- A mode that the model does not admit (`30_encoding.md` R88, D1). Raised by `step` and by every
  meaning. Safe. -/
  | mode (why : UnadmittedMode)
  /-- The legacy memory form with a segment base that is not a multiple of 16 (`20_memory.md` R48, U6).
  Raised by `pmulld`. Safe. -/
  | segmentBaseAlignment
  /-- A masked-off element is inaccessible and SuppressionHolds is not assumed (`20_memory.md` R53, D10).
  Raised by the EVEX memory forms. Safe. -/
  | suppressionNotAssumed
  /-- A read of memory with read side effects (`20_memory.md` R51, U10). Raised by the memory forms. Safe. -/
  | deviceRead
  /-- A read of memory that holds page tables, whose accessed bits the page walk may change (`20_memory.md` R47,
  U15). Raised by the memory forms. Safe. -/
  | pageTableRead
  /-- RIP is at the end of the code region: the run is complete (`70_reset_and_hazards.md` R187, U13). Raised
  by `step`. Safe. -/
  | endOfRun
  /-- RIP is outside the code region of the run (`70_reset_and_hazards.md` R186). Raised by `step`. Safe. -/
  | outsideCode
  deriving DecidableEq, Repr

/-- Memory: the bytes that are not zero, by linear address, addresses strictly rising
(`10_state.md` R31; `Memory.wf`, log 3). -/
structure Memory where
  cells : List Host.Cell
  deriving DecidableEq, Repr

/-- What the paging half of `Translate` says of a range of linear addresses: readable, one of the four
causes of a page fault (`60_exceptions.md` R157), memory with read side effects (`20_memory.md` R51), or memory that
holds page tables (U15, log 27). -/
inductive RegionKind where
  | readable
  | notPresent
  | supervisor
  | reservedBit
  | keyDenied
  | device
  | pageTable
  deriving DecidableEq, Repr

/-- A range of linear addresses, `size` bytes from `base` up, and its kind (log 2). -/
structure Region where
  base : Nat
  size : Nat
  kind : RegionKind
  deriving DecidableEq, Repr

/-- What the model keeps of a segment register: what `Translate` needs (`10_state.md` R26), with the four
conditions of `60_exceptions.md` R155, and the L and D bits of CS (`10_state.md` R29). The widths of selector and limit,
and of the bases other than FS and GS, are PRESUMED (log 30); the DPL that R29 names for SS is not kept (log 31). -/
structure SegReg where
  selector : BitVec 16
  base : W64
  limit : BitVec 32
  readable : Bool
  nullSelector : Bool
  denied : Bool
  l : Bool
  d : Bool
  deriving DecidableEq, Repr

/-- The code region of a run: base address B and size |C| in bytes (`70_reset_and_hazards.md` R186). -/
structure CodeRegion where
  base : W64
  size : Nat
  deriving DecidableEq, Repr

/-- The state of the machine. `INVENTORY.md` names the rule and the reset value of each field. The widths of RFLAGS, MXCSR,
CR0, CR2, CR4, XCR0, IA32_EFER and the debug registers are PRESUMED (log 30). -/
structure State where
  /-- ZMM[0..31] (`10_state.md` R20). -/
  zmm : Vector Vec 32
  /-- K[0..7] (`10_state.md` R23). -/
  k : Vector W64 8
  /-- GPR[0..15] (`10_state.md` R24). -/
  gpr : Vector W64 16
  /-- RIP (`10_state.md` R25). -/
  rip : W64
  /-- RFLAGS (`10_state.md` R27, R29; 64 bits PRESUMED, log 30). -/
  rflags : W64
  /-- MXCSR (`10_state.md` R28; 32 bits PRESUMED, log 30). -/
  mxcsr : BitVec 32
  /-- The x87/MMX data registers (`10_state.md` R28; layout PRESUMED, log 4). -/
  st : Vector (BitVec 80) 8
  /-- x87 control, status and tag words (`10_state.md` R28; layout PRESUMED, log 4). -/
  fcw : BitVec 16
  fsw : BitVec 16
  ftw : BitVec 16
  /-- CR0 (`10_state.md` R29; 64 bits PRESUMED, log 30). -/
  cr0 : W64
  /-- CR2 (`60_exceptions.md` R157; 64 bits PRESUMED, log 30). -/
  cr2 : W64
  /-- CR4 (`10_state.md` R29; 64 bits PRESUMED, log 30). -/
  cr4 : W64
  /-- XCR0 (`10_state.md` R29; 64 bits PRESUMED, log 30). -/
  xcr0 : W64
  /-- IA32_EFER (`10_state.md` R29; 64 bits PRESUMED, log 30). -/
  efer : W64
  /-- DR0 to DR3 and DR7 (`60_exceptions.md` R174; 64 bits PRESUMED, log 30). -/
  dr0 : W64
  dr1 : W64
  dr2 : W64
  dr3 : W64
  dr7 : W64
  /-- The current privilege level (`10_state.md` R29). A field of its own, not tied to bits 1:0 of `cs.selector`: DESIGN
  CHOICE, log 31. -/
  cpl : Fin 4
  /-- The six segment registers (`10_state.md` R26). -/
  cs : SegReg
  ss : SegReg
  ds : SegReg
  es : SegReg
  fs : SegReg
  gs : SegReg
  /-- Memory (`10_state.md` R31). -/
  mem : Memory
  /-- The paging half of `Translate` (`20_memory.md` R47; log 2). -/
  regions : List Region
  /-- The code region of the run, if the launch gave one (`70_reset_and_hazards.md` R186; log 10). -/
  code : Option CodeRegion
  /-- The parameters (`00_scope.md` R6; log 1). -/
  cfg : Config
  /-- The model's own: the argument of the free choice among applicable faults (log 6). -/
  freeCount : Nat
  deriving DecidableEq, Repr

/-- A data segment register after reset. PRESUMED: the family's values (log 4). -/
def SegReg.resetData : SegReg := ⟨0#16, 0#64, 0xFFFF#32, true, false, false, false, false⟩

/-- CS after reset: selector and base of `10_state.md` R33, the rest PRESUMED (log 4). -/
def SegReg.resetCode : SegReg := { SegReg.resetData with selector := 0xF000#16, base := 0xFFFF0000#64 }

/-- The parameters of the reset state: the spec leaves them open (`00_scope.md` R6). DESIGN CHOICE,
logs 1, 5 and 6. -/
def Config.resetChoice : Config :=
  ⟨⟨true, true, true, true, true, true⟩, .kw64, .lb48, true, .fixed, true, 0#32⟩

/-- The state after power-up or RESET (`10_state.md` R33, `70_reset_and_hazards.md` R180). RDX is the 32-bit signature
with bits 63 to 32 zero (DESIGN CHOICE, log 5). -/
def State.reset : State where
  zmm := Vector.replicate 32 0#512
  k := Vector.replicate 8 0#64
  gpr := (Vector.replicate 16 0#64).set 2 (Config.resetChoice.signature.setWidth 64)
  rip := 0x0000FFF0#64
  rflags := 0x00000002#64
  mxcsr := 0x1F80#32
  st := Vector.replicate 8 0#80
  fcw := 0x0040#16
  fsw := 0x0000#16
  ftw := 0x5555#16
  cr0 := 0x60000010#64
  cr2 := 0#64
  cr4 := 0#64
  xcr0 := 1#64
  efer := 0#64
  dr0 := 0#64
  dr1 := 0#64
  dr2 := 0#64
  dr3 := 0#64
  dr7 := 0x400#64
  cpl := 0
  cs := SegReg.resetCode
  ss := SegReg.resetData
  ds := SegReg.resetData
  es := SegReg.resetData
  fs := SegReg.resetData
  gs := SegReg.resetData
  mem := ⟨[]⟩
  regions := []
  code := none
  cfg := Config.resetChoice
  freeCount := 0

end Sys2Proof.Machine
end

