-- ==== Sys2Proof/Machine/Flags.lean ====
section
/-! DEFINITION. The status and control bits an instruction of the group reads (`10_state.md` R27, R29, R30)
and the operating mode they select. No instruction of the group writes a flag (R27). -/

namespace Sys2Proof.Machine

/-- CR0.PE, bit 0. -/
def State.pe (s : State) : Bool := s.cr0.getLsbD 0
/-- CR0.EM, bit 2: the legacy form raises #UD. -/
def State.em (s : State) : Bool := s.cr0.getLsbD 2
/-- CR0.TS, bit 3: every encoding raises #NM. -/
def State.ts (s : State) : Bool := s.cr0.getLsbD 3
/-- CR0.AM, bit 18: #AC possible. -/
def State.am (s : State) : Bool := s.cr0.getLsbD 18
/-- CR0.PG, bit 31: paging is on. -/
def State.pg (s : State) : Bool := s.cr0.getLsbD 31
/-- CR4.OSFXSR, bit 9. -/
def State.osfxsr (s : State) : Bool := s.cr4.getLsbD 9
/-- CR4.OSXSAVE, bit 18. -/
def State.osxsave (s : State) : Bool := s.cr4.getLsbD 18
/-- XCR0[2:1] = 11b: SSE and AVX state enabled. -/
def State.xcrAvx (s : State) : Bool := s.xcr0.extractLsb' 1 2 == 3#2
/-- XCR0[7:5] = 111b: opmask, ZMM_Hi256 and Hi16_ZMM state enabled. -/
def State.xcrAvx512 (s : State) : Bool := s.xcr0.extractLsb' 5 3 == 7#3
/-- RFLAGS.AC, bit 18. -/
def State.ac (s : State) : Bool := s.rflags.getLsbD 18
/-- RFLAGS.VM, bit 17. -/
def State.vm (s : State) : Bool := s.rflags.getLsbD 17
/-- RFLAGS.TF (`60_exceptions.md` R174); that it is bit 8 is PRESUMED, log 29. -/
def State.tf (s : State) : Bool := s.rflags.getLsbD 8
/-- RFLAGS.IF (`10_state.md` R33, `70_reset_and_hazards.md` R180); that it is bit 9 is PRESUMED, log 29. -/
def State.interruptFlag (s : State) : Bool := s.rflags.getLsbD 9
/-- IA32_EFER.LMA, bit 10. -/
def State.lma (s : State) : Bool := s.efer.getLsbD 10

/-- The processor's operating mode: one the model admits, or one it does not. -/
inductive CpuMode where
  | admitted (m : Mode)
  | unadmitted (why : UnadmittedMode)
  deriving DecidableEq, Repr

/-- MODE from the control state (`10_state.md` R29, D1). DEDUCED from the table's meanings, log 8. -/
def State.cpuMode (s : State) : CpuMode :=
  if !s.pe then .unadmitted .realAddress
  else if s.vm then .unadmitted .virtual8086
  else if s.lma && s.cs.l then .admitted .mode64
  else if s.cs.d then .admitted .mode32
  else .unadmitted .code16

/-- FEAT from the registers that CPUID reports: leaf 01H ECX, and leaf 07H subleaf 0 EBX
(`10_state.md` R30). -/
def featOfCpuid (leaf1Ecx leaf7Ebx : BitVec 32) : Feat where
  sse41 := leaf1Ecx.getLsbD 19
  avx := leaf1Ecx.getLsbD 28
  avx2 := leaf7Ebx.getLsbD 5
  avx512f := leaf7Ebx.getLsbD 16
  avx512dq := leaf7Ebx.getLsbD 17
  avx512vl := leaf7Ebx.getLsbD 31

/-- The feature flags a row of the opcode table names, all required (`00_scope.md` R2, R3). -/
def featOk (f : Form) (x : Feat) : Bool :=
  match f.cls, f.elem, f.vlen with
  | .legacy, _, _ => x.sse41
  | .vex, _, .v128 => x.avx
  | .vex, _, _ => x.avx2
  | .evex, .dword, .v512 => x.avx512f
  | .evex, .dword, _ => x.avx512vl && x.avx512f
  | .evex, .qword, .v512 => x.avx512dq
  | .evex, .qword, _ => x.avx512vl && x.avx512dq

/-- The usual closure of the feature flags, a premise that a claim may take (`00_scope.md` R6, D3). -/
def featClosed (x : Feat) : Bool :=
  (!x.avx2 || x.avx) && (!x.avx || x.sse41) && (!x.avx512f || x.avx2) &&
    (!x.avx512vl || x.avx512f) && (!x.avx512dq || x.avx512f)

/-- MAXVL: the width of a vector register as the instructions see it (`00_scope.md` R6, D2). -/
def maxVl (x : Feat) : Nat := if x.avx512f then 512 else if x.avx then 256 else 128

/-- NVEC: the number of vector registers nameable (`00_scope.md` R6, D2). -/
def nvec (m : Mode) (x : Feat) : Nat :=
  match m with
  | .mode64 => if x.avx512f then 32 else 16
  | .mode32 => 8

end Sys2Proof.Machine
end

