-- ==== Sys2Proof/Machine/Lanes.lean ====
section
/-! DEFINITION. The lane product and the general function of the group (`40_common_lane_arithmetic.md`). -/

namespace Sys2Proof.Machine

/-- Element width in bits (`30_encoding.md` R81). -/
def elemBits : Elem → Nat
  | .dword => 32
  | .qword => 64

/-- Vector length in bits (`30_encoding.md` R81). -/
def vlenBits : VLen → Nat
  | .v128 => 128
  | .v256 => 256
  | .v512 => 512

/-- Element width in bytes (`20_memory.md` R42, R43). -/
def elemBytes : Elem → Nat
  | .dword => 4
  | .qword => 8

/-- Vector length in bytes (`20_memory.md` R42). -/
def vlenBytes : VLen → Nat
  | .v128 => 16
  | .v256 => 32
  | .v512 => 64

/-- KL, the number of elements, `VL / w` (`30_encoding.md` R81, `40_common_lane_arithmetic.md` R104). -/
def laneCount (f : Form) : Nat :=
  match f.elem, f.vlen with
  | .dword, .v128 => 4
  | .dword, .v256 => 8
  | .dword, .v512 => 16
  | .qword, .v128 => 2
  | .qword, .v256 => 4
  | .qword, .v512 => 8

/-- The lane product: the two factors read as signed integers, the exact product cut to `n` bits
(`40_common_lane_arithmetic.md` R100). -/
def mullo {n : Nat} (a b : BitVec n) : BitVec n := BitVec.ofInt n (a.toInt * b.toInt)

/-- Element `j` of width `w` of a vector: bits `w*j + w - 1` down to `w*j` (R104). -/
def lane (w j : Nat) (v : Vec) : BitVec w := v.extractLsb' (w * j) w

/-- A vector with element `j` replaced (R104). -/
def setLane (w j : Nat) (x : BitVec w) (v : Vec) : Vec :=
  (v &&& ~~~((BitVec.allOnes w).setWidth 512 <<< (w * j))) ||| (x.setWidth 512 <<< (w * j))

/-- Bits `hi - 1` down to `lo` set to 0; an empty range changes nothing (`00_scope.md` R7). -/
def zeroBits (lo hi : Nat) (v : Vec) : Vec :=
  v &&& ~~~((BitVec.allOnes (hi - lo)).setWidth 512 <<< lo)

/-- The lane loop of `VMulLo` for elements `0` up to the given count (R109). -/
def laneLoop (w : Nat) (a : Vec) (s2 : Nat → BitVec w) (active : Nat → Bool) (z : Bool) : Nat → Vec → Vec
  | 0, new => new
  | j + 1, new =>
    let before := laneLoop w a s2 active z j new
    if active j then setLane w j (mullo (lane w j a) (s2 j)) before
    else if z then setLane w j 0 before
    else before

/-- `VMulLo(w, VL, A, S2, active, z, OLD, keep_upper)` of R109. -/
def vMulLo (w vl mvl : Nat) (a : Vec) (s2 : Nat → BitVec w) (active : Nat → Bool) (z : Bool) (old : Vec)
    (keepUpper : Bool) : Vec :=
  let new := laneLoop w a s2 active z (vl / w) old
  if keepUpper then new else zeroBits vl mvl new

end Sys2Proof.Machine
end

