-- ==== Sys2Proof/Machine/Ops.lean ====
section
/-! DEFINITION. The named operations over registers and memory: the only ways in which an instruction reads
or writes the state, address translation (`20_memory.md` R45 to R47), the instruction bytes, and the taking
of an exception (`60_exceptions.md` R165). -/

namespace Sys2Proof.Machine

/-! ### Registers -/

/-- ZMM[n] (`00_scope.md` R9). -/
def State.readZmm (s : State) (n : VReg) : Vec := s.zmm[n.val]

/-- `ZMM[n] <- v` (`00_scope.md` R9). -/
def State.writeZmm (s : State) (n : VReg) (v : Vec) : State := { s with zmm := s.zmm.set n.val v }

/-- K[n] (`10_state.md` R23). -/
def State.readK (s : State) (n : KReg) : W64 := s.k[n.val]

/-- GPR[n], all 64 bits (`10_state.md` R24). -/
def State.readGpr (s : State) (n : GReg) : W64 := s.gpr[n.val]

/-- The low 32 bits of a 64-bit value, zero-extended. -/
def low32 (x : W64) : W64 := (x.setWidth 32).setWidth 64

/-- `RIP <- t` (`10_state.md` R25). -/
def State.setRip (s : State) (t : W64) : State := { s with rip := t }

/-- The address of the next instruction: `RIP + len` modulo 2^64 in Mode64, modulo 2^32 in Mode32
(`10_state.md` R25, D13). -/
def nextRip (m : Mode) (s : State) (len : Nat) : W64 :=
  match m with
  | .mode64 => s.rip + BitVec.ofNat 64 len
  | .mode32 => low32 (s.rip + BitVec.ofNat 64 len)

/-- A segment register by name (`10_state.md` R26). -/
def State.seg (s : State) : Seg → SegReg
  | .cs => s.cs
  | .ss => s.ss
  | .ds => s.ds
  | .es => s.es
  | .fs => s.fs
  | .gs => s.gs

/-! ### Memory -/

/-- The byte an address holds; an unlisted address holds 0 (log 3). -/
def readCells : List Host.Cell → Nat → Byte
  | [], _ => 0#8
  | (x, v) :: rest, a => if x = a then v else readCells rest a

/-- The byte of memory at a linear address. -/
def Memory.read (m : Memory) (a : Nat) : Byte := readCells m.cells a

/-- A cell list with one byte replaced, kept in the canonical form. -/
def putCells (a : Nat) (v : Byte) : List Host.Cell → List Host.Cell
  | [] => if v = 0#8 then [] else [(a, v)]
  | (x, u) :: rest =>
    if a < x then (if v = 0#8 then (x, u) :: rest else (a, v) :: (x, u) :: rest)
    else if a = x then (if v = 0#8 then rest else (a, v) :: rest)
    else (x, u) :: putCells a v rest

/-- One byte written. No instruction of the group writes memory (`20_memory.md` R55); the load of a program
does (log 11). -/
def Memory.put (m : Memory) (a : Nat) (v : Byte) : Memory := ⟨putCells a v m.cells⟩

/-- Bytes written from an address up, each address cut to 64 bits. -/
def Memory.putBytes (m : Memory) : Nat → List Byte → Memory
  | _, [] => m
  | a, b :: rest => (m.put (a % 2 ^ 64) b).putBytes (a + 1) rest

/-- Every address of a cell list is at least `lo` and the addresses rise strictly; no byte is 0 and every
address has 64 bits. -/
def wfCells : Nat → List Host.Cell → Bool
  | _, [] => true
  | lo, (x, v) :: rest => decide (lo ≤ x) && decide (x < 2 ^ 64) && v != 0#8 && wfCells (x + 1) rest

/-- The canonical form of memory (log 3). -/
def Memory.wf (m : Memory) : Bool := wfCells 0 m.cells

/-! ### Addresses and translation -/

/-- The base that takes part in an address: 0 in Mode64 but for FS and GS (`10_state.md` R26,
`20_memory.md` R45). -/
def segBase (m : Mode) (s : State) (g : Seg) : W64 :=
  match m with
  | .mode32 => (s.seg g).base
  | .mode64 =>
    match g with
    | .fs => s.fs.base
    | .gs => s.gs.base
    | _ => 0#64

/-- `LinearAddress(seg, ea)` (`20_memory.md` R45). -/
def linearAddress (m : Mode) (s : State) (g : Seg) (ea : W64) : W64 :=
  match m with
  | .mode64 => segBase m s g + ea
  | .mode32 => low32 (segBase m s g + ea)

/-- The linear address of byte `k` of an operand (log 19). -/
def byteAddress (m : Mode) (s : State) (g : Seg) (ea : W64) (k : Nat) : W64 :=
  linearAddress m s g (ea + BitVec.ofNat 64 k)

/-- LINEAR_BITS as a number (`00_scope.md` R6). -/
def linearBits : LinearBits → Nat
  | .lb48 => 48
  | .lb57 => 57

/-- A canonical address: the unimplemented bits are copies of the highest implemented one
(`20_memory.md` R40). -/
def canonical (x : LinearBits) (la : W64) : Bool :=
  match x with
  | .lb48 => la.extractLsb' 47 17 == 0#17 || la.extractLsb' 47 17 == BitVec.allOnes 17
  | .lb57 => la.extractLsb' 56 8 == 0#8 || la.extractLsb' 56 8 == BitVec.allOnes 8

/-- The kind of a linear address: that of the first region that holds it; with paging on an unlisted
address is not present, with paging off it is readable (log 2). -/
def regionKind : List Region → Bool → Nat → RegionKind
  | [], paging, _ => if paging then .notPresent else .readable
  | r :: rest, paging, a =>
    if r.base ≤ a ∧ a < r.base + r.size then r.kind else regionKind rest paging a

/-- What `Translate` says of the byte at a linear address (`20_memory.md` R47). -/
def State.kindAt (s : State) (la : W64) : RegionKind := regionKind s.regions s.pg la.toNat

/-- The error code of a page fault on a data read, by cause: P is bit 0, U/S bit 2, RSVD bit 3, PK bit 5
(`60_exceptions.md` R157). -/
def pageFaultCode (user : Bool) : RegionKind → BitVec 32
  | .reservedBit => if user then 13#32 else 9#32
  | .keyDenied => if user then 37#32 else 33#32
  | .supervisor => if user then 5#32 else 1#32
  | _ => if user then 4#32 else 0#32

/-- Does a data read of a byte of this kind fail in paging: its page is not present, belongs to the supervisor
under CPL 3, has a reserved bit set, or is denied by its protection key (`60_exceptions.md` R157). -/
def pageDenied (user : Bool) : RegionKind → Bool
  | .notPresent => true
  | .reservedBit => true
  | .keyDenied => true
  | .supervisor => user
  | .readable => false
  | .device => false
  | .pageTable => false

/-- The page fault of a data read of one byte, if paging is on and translation fails there
(`60_exceptions.md` R157). -/
def pageFaultAt (s : State) (la : W64) : Option Fault :=
  if s.pg && pageDenied (s.cpl == 3) (s.kindAt la) then
    some (.pageFault (pageFaultCode (s.cpl == 3) (s.kindAt la)) la)
  else none

/-- The value of `n` bytes, little-endian, zero-extended to a vector: bits `8k+7` down to `8k` are byte `k`
(`20_memory.md` R43). -/
def littleEndian (byte : Nat → Byte) : Nat → Vec
  | 0 => 0#512
  | k + 1 => littleEndian byte k ||| ((byte k).setWidth 512 <<< (8 * k))

/-- The `n` bytes that a successful `MemRead` returns (`20_memory.md` R46). -/
def readOperand (m : Mode) (s : State) (g : Seg) (ea : W64) (n : Nat) : Vec :=
  littleEndian (fun k => s.mem.read (byteAddress m s g ea k).toNat) n

/-! ### Instruction bytes -/

/-- The linear address of instruction byte `k`: the same linear space, through CS (`20_memory.md` R40). -/
def fetchAddress (m : Mode) (s : State) (k : Nat) : Nat := (byteAddress m s .cs s.rip k).toNat

/-- How many bytes of the code region lie at RIP and after it; all a step looks at where no region is
declared (`70_reset_and_hazards.md` R186, log 10). -/
def fetchCount (s : State) : Nat :=
  match s.code with
  | none => maxInstrLen
  | some c => min maxInstrLen (c.size - (s.rip - c.base).toNat)

/-- The bytes at RIP, at most the longest instruction. Fetch faults are outside the group
(`60_exceptions.md` R162, D20, log 12). -/
def fetchBytes (m : Mode) (s : State) : List Byte :=
  (List.range (fetchCount s)).map fun k => s.mem.read (fetchAddress m s k)

/-- Why no instruction stands at RIP: the run is complete, or RIP is outside the code region
(`70_reset_and_hazards.md` R186, R187). -/
def codeEnd (s : State) : Option Refusal :=
  match s.code with
  | none => none
  | some c =>
    if (s.rip - c.base).toNat < c.size then none
    else if s.rip = c.base + BitVec.ofNat 64 c.size then some .endOfRun
    else some .outsideCode

/-! ### Taking an exception -/

/-- The vector of an exception (`60_exceptions.md` R150). -/
def Fault.vector : Fault → Nat
  | .invalidOpcode => 6
  | .deviceNotAvailable => 7
  | .stackSegment => 12
  | .generalProtection => 13
  | .pageFault _ _ => 14
  | .alignmentCheck => 17

/-- The error code of an exception (`60_exceptions.md` R150, R161). -/
def Fault.errorCode : Fault → Option (BitVec 32)
  | .invalidOpcode => none
  | .deviceNotAvailable => none
  | .stackSegment => some 0#32
  | .generalProtection => some 0#32
  | .pageFault code _ => some code
  | .alignmentCheck => some 0#32

/-- The value an exception records in CR2 (`60_exceptions.md` R150, R161). -/
def Fault.recordedCr2 : Fault → Option W64
  | .pageFault _ a => some a
  | _ => none

/-- `raise #XX(code)`: the step ends in the named fault and no state is written (`60_exceptions.md` R165,
D7). Delivery and return are outside the scope (R166, R167; log 7). -/
def raise (x : Fault) : Host.Outcome State Fault Refusal := .fault x

/-- The next state of an outcome. -/
def nextOf : Host.Outcome State Fault Refusal → Option State
  | .next s => some s
  | .fault _ => none
  | .refused _ => none

/-- The fault of an outcome. -/
def faultOf : Host.Outcome State Fault Refusal → Option Fault
  | .fault x => some x
  | .next _ => none
  | .refused _ => none

/-- The refusal of an outcome. -/
def refusalOf : Host.Outcome State Fault Refusal → Option Refusal
  | .refused r => some r
  | .next _ => none
  | .fault _ => none

/-! ### Events from outside -/

/-- INIT (`10_state.md` R33, last column): vector, opmask, MXCSR and XCR0 state, memory, and CD and NW of CR0 keep
their values; the rest of the table is as after RESET. That CD and NW are bits 30 and 29 is PRESUMED (log 29). What
the table does not name is log 22: CR2, the debug registers and the other segment fields are as after RESET
(PRESUMED), the x87 state keeps its value (PRESUMED), and so do the model's own fields (DESIGN CHOICE). RDX is the
32-bit signature with bits 63 to 32 zero (DESIGN CHOICE, log 5). -/
def State.afterInit (s : State) : State :=
  { State.reset with
    zmm := s.zmm
    k := s.k
    gpr := (Vector.replicate 16 0#64).set 2 (s.cfg.signature.setWidth 64)
    mxcsr := s.mxcsr
    st := s.st
    fcw := s.fcw
    fsw := s.fsw
    ftw := s.ftw
    cr0 := (s.cr0 &&& 0x60000000#64) ||| 0x00000010#64
    xcr0 := s.xcr0
    mem := s.mem
    regions := s.regions
    code := s.code
    cfg := s.cfg
    freeCount := s.freeCount }

/-- The launch of a run in Mode64 (`70_reset_and_hazards.md` R181 to R184, R186): 64-bit mode with paging on
and every linear address readable, the three encoding classes enabled, CR0.EM and CR0.TS clear, no code
region declared. It stands for what software or a loader does between reset and a program (log 11). That CR4.PAE is bit 5
and EFER.LME bit 8 is PRESUMED (log 29). -/
def State.launch (s : State) : State :=
  { s with
    cr0 := (s.cr0 &&& ~~~0xC#64) ||| 0x80000001#64
    cr4 := s.cr4 ||| 0x40220#64
    xcr0 := s.xcr0 ||| 0xE7#64
    efer := s.efer ||| 0x500#64
    rflags := s.rflags &&& ~~~0x20000#64
    cs := { s.cs with l := true, d := false }
    regions := [⟨0, 2 ^ 64, .readable⟩]
    code := none }

/-- The bytes of a program placed where the next step of a launched state fetches. -/
def State.withCode (s : State) (bs : List Byte) : State :=
  { s with mem := s.mem.putBytes (fetchAddress .mode64 s 0) bs }

end Sys2Proof.Machine
end

