-- ==== Sys2Proof/Machine/Operands.lean ====
section
/-! DEFINITION. Every operand form: effective address, segment, the memory access an instruction makes, the
second factor of each lane and the writemask (`30_encoding.md` R76 to R82, `20_memory.md` R42, R52,
`40_common_lane_arithmetic.md` R105, R106). -/

namespace Sys2Proof.Machine

/-! ### Effective address -/

/-- The scale factor `N` of an 8-bit displacement: the bytes read for EVEX (tuple type Full), else 1
(`30_encoding.md` R80). -/
def disp8Scale (f : Form) (b : Bool) : Nat :=
  match f.cls with
  | .evex => if b then elemBytes f.elem else vlenBytes f.vlen
  | _ => 1

/-- The value of a displacement (`30_encoding.md` R77, R80). -/
def dispValue (n : Nat) : Disp → W64
  | .none => 0#64
  | .d8 d => d.signExtend 64 * BitVec.ofNat 64 n
  | .d32 d => d.signExtend 64

/-- 32-bit addressing: Mode32, or Mode64 with prefix 67 (`30_encoding.md` R78). -/
def addressing32 (m : Mode) (p : Pfx) : Bool := m == .mode32 || p.addr

/-- A register of an address: all 64 bits, or the low 32 (`30_encoding.md` R77, R78). -/
def addrReg (a32 : Bool) (s : State) (n : GReg) : W64 := if a32 then low32 (s.readGpr n) else s.readGpr n

/-- `SibIndex * 2^scale`, 0 with no index (`30_encoding.md` R77). -/
def scaledIndex (a32 : Bool) (s : State) (scale : BitVec 2) : Option GReg → W64
  | none => 0#64
  | some i => addrReg a32 s i <<< scale.toNat

/-- The sum of the effective-address table, modulo 2^64 (`30_encoding.md` R77): `n` scales an 8-bit
displacement, `len` is the instruction length. -/
def addressSum (m : Mode) (a32 : Bool) (s : State) (n len : Nat) : Mem → W64
  | .disp32 d =>
    match m with
    | .mode64 => s.rip + BitVec.ofNat 64 len + d.signExtend 64
    | .mode32 => d.signExtend 64
  | .base b d => addrReg a32 s b + dispValue n d
  | .sib b i sc d => addrReg a32 s b + scaledIndex a32 s sc i + dispValue n d
  | .sibNoBase i sc d => scaledIndex a32 s sc i + d.signExtend 64

/-- The effective address of a memory operand: the sum, cut to 32 bits and zero-extended under 32-bit
addressing (`30_encoding.md` R77, R78). -/
def effectiveAddress (m : Mode) (f : Form) (o : Operands) (s : State) (x : Mem) : W64 :=
  let sum := addressSum m (addressing32 m o.pfx) s (disp8Scale f o.ctl.b) o.len x
  if addressing32 m o.pfx then low32 sum else sum

/-- The base register of a memory operand, if it has one (`30_encoding.md` R79). -/
def baseReg : Mem → Option GReg
  | .disp32 _ => none
  | .base b _ => some b
  | .sib b _ _ _ => some b
  | .sibNoBase _ _ _ => none

/-- The default segment: SS for base registers 4 and 5, else DS (`30_encoding.md` R79). -/
def defaultSeg (x : Mem) : Seg :=
  match baseReg x with
  | some b => if b.val = 4 ∨ b.val = 5 then .ss else .ds
  | none => .ds

/-- The segment of a memory operand: an override replaces the default; in Mode64 only FS and GS overrides
have an effect (`30_encoding.md` R62, R79; log 18). -/
def operandSeg (m : Mode) (p : Pfx) (x : Mem) : Seg :=
  match m, p.seg with
  | _, none => defaultSeg x
  | .mode32, some g => g
  | .mode64, some .fs => .fs
  | .mode64, some .gs => .gs
  | .mode64, some _ => defaultSeg x

/-! ### Writemask -/

/-- Lane `j` is active: no writemask, or bit `j` of the selected opmask register is 1
(`40_common_lane_arithmetic.md` R106, `30_encoding.md` R82). -/
def laneActive (s : State) (c : EvexCtl) (j : Nat) : Bool := c.aaa.val == 0 || (s.readK c.aaa).getLsbD j

/-- Some lane of the instruction is active. -/
def someLaneActive (f : Form) (c : EvexCtl) (s : State) : Bool :=
  (List.range (laneCount f)).any fun j => laneActive s c j

/-! ### The memory access -/

/-- One memory operand as a step sees it: the segment, the effective address and the bytes to read. -/
structure Access where
  seg : Seg
  ea : W64
  size : Nat
  deriving DecidableEq, Repr

/-- The number of bytes one execution reads (`20_memory.md` R42). -/
def readSize (f : Form) (c : EvexCtl) : Nat := if c.b then elemBytes f.elem else vlenBytes f.vlen

/-- The access of a memory operand. -/
def accessOf (m : Mode) (f : Form) (o : Operands) (s : State) (x : Mem) : Access :=
  ⟨operandSeg m o.pfx x, effectiveAddress m f o s x, readSize f o.ctl⟩

/-- Byte `k` of the operand belongs to an active lane: with broadcast every byte does if some lane is
active (`20_memory.md` R53). -/
def byteLive (f : Form) (c : EvexCtl) (s : State) (k : Nat) : Bool :=
  if c.b then someLaneActive f c s else laneActive s c (k / elemBytes f.elem)

/-! ### Factors -/

/-- The second factor of lane `j`: element `j` of the register, element `j` of the bytes read, or the one
element read under broadcast (`40_common_lane_arithmetic.md` R105). -/
def secondFactor (m : Mode) (f : Form) (o : Operands) (s : State) (j : Nat) : BitVec (elemBits f.elem) :=
  match o.rm with
  | .reg r => lane (elemBits f.elem) j (s.readZmm r)
  | .mem x =>
    let a := accessOf m f o s x
    lane (elemBits f.elem) (if o.ctl.b then 0 else j) (readOperand m s a.seg a.ea a.size)

/-- Only the legacy class keeps the destination bits above the vector length
(`40_common_lane_arithmetic.md` R107). -/
def keepsUpper (f : Form) : Bool :=
  match f.cls with
  | .legacy => true
  | .vex => false
  | .evex => false

/-- The new value of the destination register: `VMulLo` on values all read before the write
(`40_common_lane_arithmetic.md` R108, R109). -/
def newDest (m : Mode) (f : Form) (o : Operands) (s : State) : Vec :=
  vMulLo (elemBits f.elem) (vlenBits f.vlen) (maxVl s.cfg.feat) (s.readZmm o.src1) (secondFactor m f o s)
    (laneActive s o.ctl) o.ctl.z (s.readZmm o.dst) (keepsUpper f)

end Sys2Proof.Machine
end

