-- ==== Sys2Proof/Machine/Faults.lean ====
section
/-! DEFINITION. What stops an instruction: the conditions of `60_exceptions.md` R151 to R158 and the
refusals of `20_memory.md` R48, R51 and R53, listed in the order of `60_exceptions.md` R163, and the choice
among them. -/

namespace Sys2Proof.Machine

/-- One reason an execution does not complete. -/
inductive Stop where
  | fault (x : Fault)
  | refuse (r : Refusal)
  deriving DecidableEq, Repr

/-- The outcome a stop stands for. -/
def Stop.outcome : Stop → Host.Outcome State Fault Refusal
  | .fault x => raise x
  | .refuse r => .refused r

/-- A list with one stop when a condition holds. -/
def stopIf (c : Bool) (x : Stop) : List Stop := if c then [x] else []

/-! ### #UD and #NM -/

/-- The control state that gates a class (`60_exceptions.md` R151 to R153). -/
def classEnabled (c : EncClass) (s : State) : Bool :=
  match c with
  | .legacy => !s.em && s.osfxsr
  | .vex => s.osxsave && s.xcrAvx
  | .evex => s.osxsave && s.xcrAvx && s.xcrAvx512

/-- A #UD condition: a feature flag of the row is 0, the class is not enabled, or a reserved combination of
the EVEX controls (`60_exceptions.md` R151 to R153, `30_encoding.md` R85). -/
def udCondition (f : Form) (o : Operands) (s : State) : Bool :=
  !featOk f s.cfg.feat || !classEnabled f.cls s || !wfCtl o.ctl o.rm

/-- #UD (`60_exceptions.md` R151 to R153). -/
def udStops (f : Form) (o : Operands) (s : State) : List Stop :=
  stopIf (udCondition f o s) (.fault .invalidOpcode)

/-- #NM when CR0.TS = 1 and no #UD condition holds (`60_exceptions.md` R154). -/
def nmStops (f : Form) (o : Operands) (s : State) : List Stop :=
  stopIf (s.ts && !udCondition f o s) (.fault .deviceNotAvailable)

/-! ### Memory operand -/

/-- The bytes of an access, by position. -/
def Access.bytes (a : Access) : List Nat := List.range a.size

/-- Some byte of the operand has a non-canonical linear address; Mode64 only (`60_exceptions.md` R155). -/
def nonCanonical (m : Mode) (s : State) (a : Access) : Bool :=
  m == .mode64 &&
    a.bytes.any fun k => !canonical s.cfg.linearBits (byteAddress m s a.seg a.ea k)

/-- Byte `k` lies outside the segment limit; Mode32 only (`60_exceptions.md` R155, log 17). -/
def outsideLimit (m : Mode) (s : State) (a : Access) (k : Nat) : Bool :=
  m == .mode32 && decide ((s.seg a.seg).limit.toNat < a.ea.toNat + k)

/-- The segment is not readable, a null selector, or otherwise denied; Mode32 only
(`60_exceptions.md` R155). -/
def segmentDenied (m : Mode) (s : State) (a : Access) : Bool :=
  m == .mode32 && (!(s.seg a.seg).readable || (s.seg a.seg).nullSelector || (s.seg a.seg).denied)

/-- #SS(0) in place of #GP(0) when the segment is SS (`60_exceptions.md` R156). -/
def limitFault (g : Seg) : Fault := if g = .ss then .stackSegment else .generalProtection

/-- Byte `k` cannot be read: outside its segment, failing translation, or in memory whose read the model refuses
(log 28). -/
def byteInaccessible (m : Mode) (s : State) (a : Access) (k : Nat) : Bool :=
  segmentDenied m s a || outsideLimit m s a k ||
    (pageFaultAt s (byteAddress m s a.seg a.ea k)).isSome ||
    s.kindAt (byteAddress m s a.seg a.ea k) == .device ||
    s.kindAt (byteAddress m s a.seg a.ea k) == .pageTable

/-- The linear address of the operand is not a multiple of `n`. -/
def misaligned (m : Mode) (s : State) (a : Access) (n : Nat) : Bool :=
  (linearAddress m s a.seg a.ea).toNat % n != 0

/-- Alignment checking is on: CR0.AM, RFLAGS.AC and CPL 3 (`60_exceptions.md` R158). -/
def alignmentChecked (s : State) : Bool := s.am && s.ac && s.cpl == 3

/-- The lowest of some addresses. -/
def lowestAddress : List W64 → Option W64
  | [] => none
  | a :: rest =>
    match lowestAddress rest with
    | none => some a
    | some b => some (if a.toNat ≤ b.toNat then a else b)

/-- The addresses of the live bytes whose translation fails in paging. A byte that is not canonical, or lies outside
its segment, is among them where its address is denied, so that under FAULT_ORDER = any #PF is applicable beside
#GP or #SS (DESIGN CHOICE, log 2). -/
def failingAddresses (m : Mode) (s : State) (a : Access) (live : Nat → Bool) : List W64 :=
  (a.bytes.filter fun k => live k && (pageFaultAt s (byteAddress m s a.seg a.ea k)).isSome).map
    fun k => byteAddress m s a.seg a.ea k

/-- The page fault of the lowest-addressed failing byte among the live ones, also where the operand wraps around the
top of the address space (`20_memory.md` R47, R53). -/
def lowestPageFault (m : Mode) (s : State) (a : Access) (live : Nat → Bool) : Option Fault :=
  (lowestAddress (failingAddresses m s a live)).bind (pageFaultAt s)

/-- The stops of a memory access whose live bytes are given, in the order of `60_exceptions.md` R163, each refusal
where the check it replaces stands (logs 6, 28): the U6 refusal, 3a legacy misalignment, the canonical check of the
whole operand, the suppression refusal, 3b segment violations of live bytes, 3c #AC, the refusals of device and
page-table memory, 3d #PF. Within 3b a denied segment stands before the limit, so through SS #GP(0) before #SS(0) (DESIGN
CHOICE, log 17). Under SuppressionHolds a masked-off byte in device or page-table memory stops nothing (DESIGN CHOICE,
log 28). -/
def accessStops (m : Mode) (f : Form) (c : EvexCtl) (s : State) (a : Access) (live : Nat → Bool) : List Stop :=
  let someLive := a.bytes.any live
  stopIf (f.cls == .legacy && (segBase m s a.seg).toNat % 16 != 0) (.refuse .segmentBaseAlignment) ++
  stopIf (f.cls == .legacy && misaligned m s a 16) (.fault .generalProtection) ++
  stopIf (nonCanonical m s a) (.fault (limitFault a.seg)) ++
  stopIf (!s.cfg.suppression && a.bytes.any fun k => !live k && byteInaccessible m s a k)
    (.refuse .suppressionNotAssumed) ++
  stopIf (someLive && segmentDenied m s a) (.fault .generalProtection) ++
  stopIf (a.bytes.any fun k => live k && outsideLimit m s a k) (.fault (limitFault a.seg)) ++
  stopIf (c.b && someLive && s.cfg.acBcst && alignmentChecked s && misaligned m s a a.size)
    (.fault .alignmentCheck) ++
  stopIf (a.bytes.any fun k => live k && s.kindAt (byteAddress m s a.seg a.ea k) == .device)
    (.refuse .deviceRead) ++
  stopIf (a.bytes.any fun k => live k && s.kindAt (byteAddress m s a.seg a.ea k) == .pageTable)
    (.refuse .pageTableRead) ++
  match lowestPageFault m s a live with
  | some x => [.fault x]
  | none => []

/-- The stops of a memory operand: under a writemask only bytes of active lanes are live (`20_memory.md` R53). -/
def memoryStops (m : Mode) (f : Form) (c : EvexCtl) (s : State) (a : Access) : List Stop :=
  accessStops m f c s a (byteLive f c s)

/-- The stops of the r/m operand: a register has none (`20_memory.md` R41). -/
def operandStops (m : Mode) (f : Form) (o : Operands) (s : State) : List Stop :=
  match o.rm with
  | .reg _ => []
  | .mem x => memoryStops m f o.ctl s (accessOf m f o s x)

/-- All that stops an execution, in order (`60_exceptions.md` R163). A mode the model does not admit stands
after #UD (log 9). -/
def stops (f : Form) (o : Operands) (s : State) : List Stop :=
  udStops f o s ++
    match s.cpuMode with
    | .unadmitted why => [.refuse (.mode why)]
    | .admitted m => nmStops f o s ++ operandStops m f o s

/-- A stop that is a refusal of the model. -/
def Stop.isRefusal : Stop → Bool
  | .fault _ => false
  | .refuse _ => true

/-- Which of the applicable stops is the outcome (`60_exceptions.md` R163, D14, U1; log 6): the first under the fixed
order. Under FAULT_ORDER = any, a refusal wherever one applies (R48 and R53 of `20_memory.md` give such an execution
no step at all), else any of the applicable faults. -/
def chooseStop (order : FaultOrder) (count : Nat) (l : List Stop) : Option Stop :=
  match order with
  | .fixed => l.head?
  | .any =>
    match l.find? Stop.isRefusal with
    | some r => some r
    | none => l[Config.freePick count % l.length]?

end Sys2Proof.Machine
end

