-- ==== Sys2Proof/Machine/Common.lean ====
section
/-! DEFINITION. The one shape of all nine instructions: check what stops the execution, else write the
destination register and advance RIP (`40_common_lane_arithmetic.md` R109, `10_state.md` R32). -/

namespace Sys2Proof.Machine

/-- The state after an execution that completes: the destination register and RIP, nothing else
(`10_state.md` R25, R32). -/
def complete (m : Mode) (f : Form) (o : Operands) (s : State) : State :=
  (s.writeZmm o.dst (newDest m f o s)).setRip (nextRip m s o.len)

/-- One execution: a stop, or the completed state (`60_exceptions.md` R163 to R165). -/
def run (f : Form) (o : Operands) (s : State) : Host.Outcome State Fault Refusal :=
  match chooseStop s.cfg.faultOrder s.freeCount (stops f o s) with
  | some x => x.outcome
  | none =>
    match s.cpuMode with
    | .admitted m => .next (complete m f o s)
    | .unadmitted why => .refused (.mode why)

/-- The EVEX controls of a class that has none (`40_common_lane_arithmetic.md` R106). -/
def noCtl : EvexCtl := ⟨0, false, false⟩

/-- Operands of the legacy form: the destination is also the first source (`00_scope.md` R10). -/
def legacyOperands (p : Pfx) (rex : Bool) (d : VReg) (r : RM) : Operands :=
  ⟨p, legacyLen p rex r, noCtl, d, d, r⟩

/-- Operands of the VEX forms (`30_encoding.md` R66). -/
def vexOperands (p : Pfx) (d a : VReg) (r : RM) : Operands := ⟨p, vexLen p r, noCtl, d, a, r⟩

/-- Operands of the EVEX forms (`30_encoding.md` R71). -/
def evexOperands (p : Pfx) (c : EvexCtl) (d a : VReg) (r : RM) : Operands := ⟨p, evexLen p r, c, d, a, r⟩

end Sys2Proof.Machine
end

