-- ==== Sys2Proof/Machine/EvexDword.lean ====
section
/-! DEFINITION. VPMULLD, the EVEX.128, EVEX.256 and EVEX.512 encodings (`43_vpmulld_evex.md`). -/

namespace Sys2Proof.Machine

/-- `VPMULLD xmm1 (k1)(z), xmm2, xmm3/m128/m32bcst` (R130). -/
def execVpmulldEvex128 (p : Pfx) (c : EvexCtl) (d a : VReg) (r : RM) (s : State) : Host.Outcome State Fault Refusal :=
  run ⟨.evex, .dword, .v128⟩ (evexOperands p c d a r) s

/-- `VPMULLD ymm1 (k1)(z), ymm2, ymm3/m256/m32bcst` (R131). -/
def execVpmulldEvex256 (p : Pfx) (c : EvexCtl) (d a : VReg) (r : RM) (s : State) : Host.Outcome State Fault Refusal :=
  run ⟨.evex, .dword, .v256⟩ (evexOperands p c d a r) s

/-- `VPMULLD zmm1 (k1)(z), zmm2, zmm3/m512/m32bcst` (R132). -/
def execVpmulldEvex512 (p : Pfx) (c : EvexCtl) (d a : VReg) (r : RM) (s : State) : Host.Outcome State Fault Refusal :=
  run ⟨.evex, .dword, .v512⟩ (evexOperands p c d a r) s

end Sys2Proof.Machine
end

