-- ==== Sys2Proof/Machine/EvexQword.lean ====
section
/-! DEFINITION. VPMULLQ, the EVEX.128, EVEX.256 and EVEX.512 encodings (`44_vpmullq_evex.md`). -/

namespace Sys2Proof.Machine

/-- `VPMULLQ xmm1 (k1)(z), xmm2, xmm3/m128/m64bcst` (R140). -/
def execVpmullqEvex128 (p : Pfx) (c : EvexCtl) (d a : VReg) (r : RM) (s : State) : Host.Outcome State Fault Refusal :=
  run ⟨.evex, .qword, .v128⟩ (evexOperands p c d a r) s

/-- `VPMULLQ ymm1 (k1)(z), ymm2, ymm3/m256/m64bcst` (R141). -/
def execVpmullqEvex256 (p : Pfx) (c : EvexCtl) (d a : VReg) (r : RM) (s : State) : Host.Outcome State Fault Refusal :=
  run ⟨.evex, .qword, .v256⟩ (evexOperands p c d a r) s

/-- `VPMULLQ zmm1 (k1)(z), zmm2, zmm3/m512/m64bcst` (R142). -/
def execVpmullqEvex512 (p : Pfx) (c : EvexCtl) (d a : VReg) (r : RM) (s : State) : Host.Outcome State Fault Refusal :=
  run ⟨.evex, .qword, .v512⟩ (evexOperands p c d a r) s

end Sys2Proof.Machine
end

