-- ==== Sys2Proof/Machine/Legacy.lean ====
section
/-! DEFINITION. PMULLD, the 128-bit legacy SSE encoding (`41_pmulld_sse.md`). -/

namespace Sys2Proof.Machine

/-- `PMULLD xmm1, xmm2/m128` (R110). -/
def execPmulld (p : Pfx) (rex : Bool) (d : VReg) (r : RM) (s : State) : Host.Outcome State Fault Refusal :=
  run ⟨.legacy, .dword, .v128⟩ (legacyOperands p rex d r) s

end Sys2Proof.Machine
end

