-- ==== Sys2Proof/Machine/Vex.lean ====
section
/-! DEFINITION. VPMULLD, the VEX.128 and VEX.256 encodings (`42_vpmulld_vex.md`). -/

namespace Sys2Proof.Machine

/-- `VPMULLD xmm1, xmm2, xmm3/m128` (R120). -/
def execVpmulldVex128 (p : Pfx) (d a : VReg) (r : RM) (s : State) : Host.Outcome State Fault Refusal :=
  run ⟨.vex, .dword, .v128⟩ (vexOperands p d a r) s

/-- `VPMULLD ymm1, ymm2, ymm3/m256` (R121). -/
def execVpmulldVex256 (p : Pfx) (d a : VReg) (r : RM) (s : State) : Host.Outcome State Fault Refusal :=
  run ⟨.vex, .dword, .v256⟩ (vexOperands p d a r) s

end Sys2Proof.Machine
end

