-- ==== Sys2Proof/Machine/Dispatch.lean ====
section
/-! DEFINITION. The dispatch: one arm per instruction, each a direct call of its meaning. -/

namespace Sys2Proof.Machine

def exec (i : Instr) (s : State) : Host.Outcome State Fault Refusal :=
  match i with
  | .pmulld p rex d r => Sys2Proof.Machine.execPmulld p rex d r s
  | .vpmulldVex128 p d a r => Sys2Proof.Machine.execVpmulldVex128 p d a r s
  | .vpmulldVex256 p d a r => Sys2Proof.Machine.execVpmulldVex256 p d a r s
  | .vpmulldEvex128 p c d a r => Sys2Proof.Machine.execVpmulldEvex128 p c d a r s
  | .vpmulldEvex256 p c d a r => Sys2Proof.Machine.execVpmulldEvex256 p c d a r s
  | .vpmulldEvex512 p c d a r => Sys2Proof.Machine.execVpmulldEvex512 p c d a r s
  | .vpmullqEvex128 p c d a r => Sys2Proof.Machine.execVpmullqEvex128 p c d a r s
  | .vpmullqEvex256 p c d a r => Sys2Proof.Machine.execVpmullqEvex256 p c d a r s
  | .vpmullqEvex512 p c d a r => Sys2Proof.Machine.execVpmullqEvex512 p c d a r s

end Sys2Proof.Machine
end

