-- ==== Sys2Proof/Machine/Step.lean ====
section
/-! DEFINITION. One step: fetch, decode, execute (`30_encoding.md` R89, `60_exceptions.md` R165), and the
placing of an instruction where the next step fetches. -/

namespace Sys2Proof.Machine

/-- One step of the machine. RIP is at the instruction's first byte; the meaning itself advances it
(`10_state.md` R25). A #UD that the decoder finds is the outcome under either FAULT_ORDER, since no operand is then
known (DESIGN CHOICE, log 6). -/
def step (s : State) : Host.Outcome State Fault Refusal :=
  match s.cpuMode with
  | .unadmitted why => .refused (.mode why)
  | .admitted m =>
    match codeEnd s with
    | some r => .refused r
    | none =>
      match decode m (fetchBytes m s) with
      | .ok i _ => exec i s
      | .invalidOpcode => raise .invalidOpcode
      | .refused why => .refused (.decode why)

/-- The state with a table word as its next instruction. The machine does not run a program from reset: this
stands for the launch of a run with that instruction as its code (`70_reset_and_hazards.md` R186, log 11). -/
def State.withFetchWord (s : State) (nbits w : Nat) : State := s.launch.withCode (tableBytes nbits w)

end Sys2Proof.Machine
end

