-- ==== Sys2Proof/Safety.lean ====
section
/-! DEFINITION. The named premises a claim may take (`70_reset_and_hazards.md` R181 to R183, R186), what a
finished run is (R187), and the invariant of the machine. -/

namespace Sys2Proof.Machine

/-- `Enabled(class)`: the control state of `70_reset_and_hazards.md` R181 to R183, TS clear among it. -/
abbrev Enabled (c : EncClass) (s : State) : Prop := classEnabled c s = true ∧ s.ts = false

/-- An encoding is an instruction of the machine and enabled: its feature flags are 1, its class is enabled
(`00_scope.md` R2, `70_reset_and_hazards.md` R181 to R183). -/
abbrev Available (f : Form) (s : State) : Prop := featOk f s.cfg.feat = true ∧ Enabled f.cls s

/-- `DebugOff`: no breakpoint of DR7 enabled and TF clear (`70_reset_and_hazards.md` R186,
`60_exceptions.md` R174). That bits 7:0 of DR7 enable the breakpoints and TF is bit 8 is PRESUMED, log 29. -/
abbrev DebugOff (s : State) : Prop := s.dr7.extractLsb' 0 8 = 0#8 ∧ s.tf = false

/-- `NoPendingFault`: no fault is recorded where a run starts (`70_reset_and_hazards.md` R186). The model records a
fault in the outcome of a step and never in the state (log 7), so it is a premise on the outcome that delivers the
launch state. -/
abbrev NoPendingFault (launch : Host.Outcome State Fault Refusal) : Prop := faultOf launch = none

/-- `NoInterrupts`: each state at an instruction boundary is the answer of a step at the one before it, so nothing
came in between (`60_exceptions.md` R169, `70_reset_and_hazards.md` R186; log 25). -/
def NoInterrupts : List State → Prop
  | s :: t :: rest => step s = .next t ∧ NoInterrupts (t :: rest)
  | _ => True

/-- A data read of the one byte at an effective address succeeds in `Translate`: canonical (Mode64), inside a readable
segment (Mode32), and mapped to ordinary readable memory (`20_memory.md` R47). -/
abbrev ByteReadable (m : Mode) (s : State) (g : Seg) (ea : W64) : Prop :=
  nonCanonical m s ⟨g, ea, 1⟩ = false ∧ byteInaccessible m s ⟨g, ea, 1⟩ 0 = false

/-- `FlatReadable(S)`: `Translate` succeeds exactly on the byte set S, with ordinary write-back memory
(`70_reset_and_hazards.md` R186), through every segment and at every effective address of the mode. -/
def FlatReadable (m : Mode) (s : State) (S : Nat → Prop) : Prop :=
  ∀ (g : Seg) (ea : W64), (m = .mode32 → ea.toNat < 2 ^ 32) →
    (ByteReadable m s g ea ↔ S (linearAddress m s g ea).toNat)

/-- Every byte of one operand can be read (`20_memory.md` R47); `FlatReadable` gives it where the operand lies in S. -/
abbrev AccessReadable (m : Mode) (s : State) (a : Access) : Prop :=
  nonCanonical m s a = false ∧ ∀ k, k < a.size → byteInaccessible m s a k = false

/-- The access may be read under the writemask: the whole operand is canonical, every byte of an active lane is
accessible, and so is every other byte unless SuppressionHolds (`20_memory.md` R53). -/
abbrev LiveReadable (m : Mode) (f : Form) (c : EvexCtl) (s : State) (a : Access) : Prop :=
  nonCanonical m s a = false ∧
  (∀ k, k < a.size → byteLive f c s k = true → byteInaccessible m s a k = false) ∧
  (s.cfg.suppression = true ∨ ∀ k, k < a.size → byteInaccessible m s a k = false)

/-- The alignment the legacy form needs: a segment base and a linear address that are multiples of 16
(`20_memory.md` R48, U6). -/
abbrev LegacyAligned (m : Mode) (s : State) (a : Access) : Prop :=
  (segBase m s a.seg).toNat % 16 = 0 ∧ (linearAddress m s a.seg a.ea).toNat % 16 = 0

/-- No #AC on a broadcast read: AC_BCST is false, alignment checking is off, or the element is aligned
(`20_memory.md` R48, `60_exceptions.md` R158). -/
abbrev BroadcastAligned (m : Mode) (s : State) (a : Access) : Prop :=
  s.cfg.acBcst = false ∨ alignmentChecked s = false ∨ (linearAddress m s a.seg a.ea).toNat % a.size = 0

/-- The EVEX controls are no reserved combination: `b` as the operand needs it, zeroing only with a writemask
(`30_encoding.md` R82, R85). -/
abbrev CtlOk (b : Bool) (c : EvexCtl) : Prop := c.b = b ∧ (c.z = true → c.aaa ≠ 0)

/-- Byte `k` of a memory operand (`20_memory.md` R43). -/
def operandByte (m : Mode) (s : State) (a : Access) (k : Nat) : Byte :=
  s.mem.read (byteAddress m s a.seg a.ea k).toNat

/-- The dword whose least significant byte is byte `k` of a memory operand (`20_memory.md` R43). -/
def operandDword (m : Mode) (s : State) (a : Access) (k : Nat) : BitVec 32 :=
  operandByte m s a (k + 3) ++ operandByte m s a (k + 2) ++ operandByte m s a (k + 1) ++ operandByte m s a k

/-- The qword whose least significant byte is byte `k` of a memory operand (`20_memory.md` R43). -/
def operandQword (m : Mode) (s : State) (a : Access) (k : Nat) : BitVec 64 :=
  operandDword m s a (k + 4) ++ operandDword m s a k

/-- What tells an instruction's encoding apart (`30_encoding.md` R81). -/
def formOf : Instr → Form
  | .pmulld _ _ _ _ => ⟨.legacy, .dword, .v128⟩
  | .vpmulldVex128 _ _ _ _ => ⟨.vex, .dword, .v128⟩
  | .vpmulldVex256 _ _ _ _ => ⟨.vex, .dword, .v256⟩
  | .vpmulldEvex128 _ _ _ _ _ => ⟨.evex, .dword, .v128⟩
  | .vpmulldEvex256 _ _ _ _ _ => ⟨.evex, .dword, .v256⟩
  | .vpmulldEvex512 _ _ _ _ _ => ⟨.evex, .dword, .v512⟩
  | .vpmullqEvex128 _ _ _ _ _ => ⟨.evex, .qword, .v128⟩
  | .vpmullqEvex256 _ _ _ _ _ => ⟨.evex, .qword, .v256⟩
  | .vpmullqEvex512 _ _ _ _ _ => ⟨.evex, .qword, .v512⟩

/-- An instruction's operands in one shape (`30_encoding.md` R89). -/
def operandsOf : Instr → Operands
  | .pmulld p rex d r => legacyOperands p rex d r
  | .vpmulldVex128 p d a r => vexOperands p d a r
  | .vpmulldVex256 p d a r => vexOperands p d a r
  | .vpmulldEvex128 p c d a r => evexOperands p c d a r
  | .vpmulldEvex256 p c d a r => evexOperands p c d a r
  | .vpmulldEvex512 p c d a r => evexOperands p c d a r
  | .vpmullqEvex128 p c d a r => evexOperands p c d a r
  | .vpmullqEvex256 p c d a r => evexOperands p c d a r
  | .vpmullqEvex512 p c d a r => evexOperands p c d a r

/-- The run of the code region has ended successfully: RIP is at its end (`70_reset_and_hazards.md` R187). A launch
state that is there already, or an empty region, counts as a complete run of no instruction (DESIGN CHOICE,
log 10). -/
def RunComplete (s : State) : Prop :=
  ∃ c, s.code = some c ∧ s.rip = c.base + BitVec.ofNat 64 c.size ∧ codeEnd s = some .endOfRun

/-- The invariant of the machine: memory is in canonical form; no vector register has a bit that does not
exist (`00_scope.md` R6); RIP has 32 bits in Mode32 (`10_state.md` R25). The feature closure of D3 keeps every
available vector length within MAXVL. -/
def Inv (s : State) : Prop :=
  s.mem.wf = true ∧ featClosed s.cfg.feat = true ∧
  (∀ (n : VReg) (i : Nat), maxVl s.cfg.feat ≤ i → (s.readZmm n).getLsbD i = false) ∧
  (s.cpuMode = .admitted .mode32 → s.rip.toNat < 2 ^ 32)

/-- The state changed at most in one vector register and RIP: the frame of `10_state.md` R32. -/
def OnlyDest (s t : State) (d : VReg) : Prop :=
  t = { s with zmm := t.zmm, rip := t.rip } ∧ ∀ n : VReg, n ≠ d → t.readZmm n = s.readZmm n

end Sys2Proof.Machine
end

