-- ==== Sys2Proof/Certificates/Slice0/Obligations.lean ====
section
/-! DEFINITION. The statements for the provers, after the vocabulary they share. Each docstring names the rules
of `spec/` it formalises. -/

namespace Sys2Proof.Claims

open Sys2Proof.Machine

/-! ### Control state, spelled out bit by bit -/

/-- The feature flags of a row are 1 (`00_scope.md` R2, R3). -/
def FeatureOn (f : Form) (x : Feat) : Prop :=
  match f.cls, f.elem, f.vlen with
  | .legacy, _, _ => x.sse41 = true
  | .vex, _, .v128 => x.avx = true
  | .vex, _, _ => x.avx2 = true
  | .evex, .dword, v => x.avx512f = true ∧ (v ≠ .v512 → x.avx512vl = true)
  | .evex, .qword, v => x.avx512dq = true ∧ (v ≠ .v512 → x.avx512vl = true)

/-- The class is enabled: CR0.EM = 0 and CR4.OSFXSR = 1 for the legacy class, CR4.OSXSAVE = 1 and XCR0[2:1] = 11b
for VEX, and XCR0[7:5] = 111b as well for EVEX (`70_reset_and_hazards.md` R181 to R183). -/
def ClassOn (c : EncClass) (s : State) : Prop :=
  match c with
  | .legacy => s.cr0.getLsbD 2 = false ∧ s.cr4.getLsbD 9 = true
  | .vex => s.cr4.getLsbD 18 = true ∧ s.xcr0.getLsbD 1 = true ∧ s.xcr0.getLsbD 2 = true
  | .evex => s.cr4.getLsbD 18 = true ∧ s.xcr0.getLsbD 1 = true ∧ s.xcr0.getLsbD 2 = true ∧
      s.xcr0.getLsbD 5 = true ∧ s.xcr0.getLsbD 6 = true ∧ s.xcr0.getLsbD 7 = true

/-- Zeroing without a writemask, or `b` with a register operand (`30_encoding.md` R85). -/
def ReservedCtl (c : EvexCtl) (r : RM) : Prop :=
  (c.z = true ∧ c.aaa = 0) ∨ (c.b = true ∧ ∃ n, r = .reg n)

/-- No #UD condition of R151 to R153 holds at execution. -/
def NoUd (i : Instr) (s : State) : Prop :=
  FeatureOn (formOf i) s.cfg.feat ∧ ClassOn (formOf i).cls s ∧
    ¬ ReservedCtl (operandsOf i).ctl (operandsOf i).rm

/-- Neither #UD nor #NM: what R181 to R183 ask of the machine before an instruction. -/
def Ready (i : Instr) (s : State) : Prop := NoUd i s ∧ s.cr0.getLsbD 3 = false

/-! ### Results -/

/-- RIP advanced by `n` bytes (`10_state.md` R25). -/
def RipAdvanced (m : Mode) (s t : State) (n : Nat) : Prop :=
  match m with
  | .mode64 => t.rip.toNat = (s.rip.toNat + n) % 2 ^ 64
  | .mode32 => t.rip.toNat = (s.rip.toNat + n) % 2 ^ 32

/-- Lane `j` of width `w` (`40_common_lane_arithmetic.md` R104). -/
def laneOf (w j : Nat) (v : Vec) : BitVec w := v.extractLsb' (w * j) w

/-- The lane product of two factors read as signed integers (`40_common_lane_arithmetic.md` R100). -/
def product {w : Nat} (a b : BitVec w) : BitVec w := BitVec.ofInt w (a.toInt * b.toInt)

/-- MAXVL (`00_scope.md` R6, D2). -/
def maxvl (x : Feat) : Nat := if x.avx512f = true then 512 else if x.avx = true then 256 else 128

/-- The instruction `i` completes with `kl` lanes of width `w`: active lanes of `d` hold the product of the lanes of
`a` and `s2`, inactive ones 0 or the old element; the bits above are kept or cleared; RIP advances by the
instruction's length; every other register, flag, control field and byte of memory is unchanged. -/
def Result (w : Nat) (m : Mode) (s : State) (i : Instr) (kl : Nat) (d a : VReg) (s2 : Nat → BitVec w)
    (active : Nat → Prop) (z keepUpper : Bool) : Prop :=
  ∃ t, exec i s = .next t ∧
    (∀ j, j < kl →
      (active j → laneOf w j (t.readZmm d) = product (laneOf w j (s.readZmm a)) (s2 j)) ∧
      (¬ active j → z = true → laneOf w j (t.readZmm d) = 0) ∧
      (¬ active j → z = false → laneOf w j (t.readZmm d) = laneOf w j (s.readZmm d))) ∧
    (∀ n, w * kl ≤ n → (t.readZmm d).getLsbD n =
      if keepUpper = false ∧ n < maxvl s.cfg.feat then false else (s.readZmm d).getLsbD n) ∧
    RipAdvanced m s t (instrLen i) ∧ OnlyDest s t d ∧ ∀ x, t.mem.read x = s.mem.read x

/-- Every lane is active: the encoding has no writemask (R106). -/
def allActive : Nat → Prop := fun _ => True

/-- Lane `j` is active under the EVEX controls: `aaa = 0`, or bit `j` of the opmask register `aaa` is 1 (R106). -/
def activeLane (s : State) (c : EvexCtl) : Nat → Prop := fun j => c.aaa = 0 ∨ (s.k[c.aaa.val]).getLsbD j = true

/-- The memory access of an instruction with the memory operand `x`. -/
def access (m : Mode) (i : Instr) (s : State) (x : Mem) : Access := accessOf m (formOf i) (operandsOf i) s x

/-- A constructor of an EVEX instruction. -/
abbrev EvexCtor := Pfx → EvexCtl → VReg → VReg → RM → Instr

/-- A constructor of a VEX instruction. -/
abbrev VexCtor := Pfx → VReg → VReg → RM → Instr

/-- The register form of a VEX instruction with `kl` dword lanes. -/
def VexRegisterForm (mk : VexCtor) (kl : Nat) : Prop :=
  ∀ m p d a r s, s.cpuMode = .admitted m → Ready (mk p d a (.reg r)) s →
    Result 32 m s (mk p d a (.reg r)) kl d a (fun j => laneOf 32 j (s.readZmm r)) allActive false false

/-- The memory form of a VEX instruction with `kl` dword lanes. -/
def VexMemoryForm (mk : VexCtor) (kl : Nat) : Prop :=
  ∀ m p d a x s, s.cpuMode = .admitted m → Ready (mk p d a (.mem x)) s →
    AccessReadable m s (access m (mk p d a (.mem x)) s x) →
    Result 32 m s (mk p d a (.mem x)) kl d a
      (fun j => operandDword m s (access m (mk p d a (.mem x)) s x) (4 * j)) allActive false false

/-- The register form of an EVEX instruction with `kl` lanes of width `w`. -/
def EvexRegisterForm (w : Nat) (mk : EvexCtor) (kl : Nat) : Prop :=
  ∀ m p c d a r s, s.cpuMode = .admitted m → Ready (mk p c d a (.reg r)) s →
    Result w m s (mk p c d a (.reg r)) kl d a (fun j => laneOf w j (s.readZmm r)) (activeLane s c) c.z false

/-- The full-width memory form of an EVEX instruction with `kl` lanes of width `w`; `elt k` is the element whose
first byte is byte `k` of the operand. -/
def EvexMemoryForm (w : Nat) (elt : Mode → State → Access → Nat → BitVec w) (mk : EvexCtor) (kl : Nat) : Prop :=
  ∀ m p c d a x s, c.b = false → s.cpuMode = .admitted m → Ready (mk p c d a (.mem x)) s →
    LiveReadable m (formOf (mk p c d a (.mem x))) c s (access m (mk p c d a (.mem x)) s x) →
    Result w m s (mk p c d a (.mem x)) kl d a
      (fun j => elt m s (access m (mk p c d a (.mem x)) s x) (w / 8 * j)) (activeLane s c) c.z false

/-- The broadcast form of an EVEX instruction with `kl` lanes of width `w`: one element, for every lane. Without an active
lane nothing is read, and no alignment is asked for. -/
def EvexBroadcastForm (w : Nat) (elt : Mode → State → Access → Nat → BitVec w) (mk : EvexCtor) (kl : Nat) : Prop :=
  ∀ m p c d a x s, c.b = true → s.cpuMode = .admitted m → Ready (mk p c d a (.mem x)) s →
    LiveReadable m (formOf (mk p c d a (.mem x))) c s (access m (mk p c d a (.mem x)) s x) →
    ((∃ j, j < kl ∧ activeLane s c j) → BroadcastAligned m s (access m (mk p c d a (.mem x)) s x)) →
    Result w m s (mk p c d a (.mem x)) kl d a
      (fun _ => elt m s (access m (mk p c d a (.mem x)) s x) 0) (activeLane s c) c.z false

/-! ### Outcomes -/

/-- An outcome with its next state changed; a fault or refusal as it is. -/
def mapNext (g : State → State) :
    Host.Outcome State Fault Refusal → Host.Outcome State Fault Refusal
  | .next t => .next (g t)
  | .fault x => .fault x
  | .refused r => .refused r

/-- Fault suppression is in no doubt: SuppressionHolds, or every byte of a masked-off element is accessible
(`20_memory.md` R53). -/
def SuppressionSettled (m : Mode) (i : Instr) (s : State) (a : Access) : Prop :=
  s.cfg.suppression = true ∨
    ∀ k, k < a.size → byteLive (formOf i) (operandsOf i).ctl s k = false → byteInaccessible m s a k = false

/-- No stop before #AC: legacy alignment, no canonical, limit or protection violation of a live byte, and no doubt
about suppression. -/
def PastSegmentation (m : Mode) (i : Instr) (s : State) (a : Access) : Prop :=
  ((formOf i).cls = .legacy → LegacyAligned m s a) ∧ nonCanonical m s a = false ∧
    segmentDenied m s a = false ∧
    (∀ k, k < a.size → byteLive (formOf i) (operandsOf i).ctl s k = true → outsideLimit m s a k = false) ∧
    SuppressionSettled m i s a

/-- The translation of a data read at the linear address fails in paging (`60_exceptions.md` R157; log 2). -/
def PageFails (s : State) (la : W64) : Prop :=
  s.kindAt la = .notPresent ∨ (s.kindAt la = .supervisor ∧ s.cpl = 3) ∨ s.kindAt la = .reservedBit ∨
    s.kindAt la = .keyDenied

/-- The error code of that failure: P bit 0, U/S bit 2, RSVD bit 3, PK bit 5, every other bit 0
(`60_exceptions.md` R157). -/
def PageFaultCode (s : State) (la : W64) (code : BitVec 32) : Prop :=
  ∀ n, code.getLsbD n =
    (decide (n = 0 ∧ s.kindAt la ≠ .notPresent) || decide (n = 2 ∧ s.cpl = 3) ||
      decide (n = 3 ∧ s.kindAt la = .reservedBit) || decide (n = 5 ∧ s.kindAt la = .keyDenied))

/-! ### Encodings -/

/-- The legacy prefix bytes (`30_encoding.md` R62, R89). -/
def prefixBytes : List Byte :=
  [0x66#8, 0x67#8, 0x2E#8, 0x36#8, 0x3E#8, 0x26#8, 0x64#8, 0x65#8, 0xF0#8, 0xF2#8, 0xF3#8]

/-- The segment overrides (`30_encoding.md` R62). -/
def overrideBytes : List Byte := [0x2E#8, 0x36#8, 0x3E#8, 0x26#8, 0x64#8, 0x65#8]

/-- Two prefix bytes of one kind: the same byte, two segment overrides, or F2 and F3 (`30_encoding.md` R62). -/
def SameKind (a b : Byte) : Prop :=
  a = b ∨ (a ∈ overrideBytes ∧ b ∈ overrideBytes) ∨ (a ∈ [0xF2#8, 0xF3#8] ∧ b ∈ [0xF2#8, 0xF3#8])

/-- Legacy prefixes that are not refused for themselves: at most one of each kind, in any order, and no 67 in Mode32
(`30_encoding.md` R62, R88). -/
def PrefixSet (m : Mode) (pre : List Byte) : Prop :=
  (∀ b ∈ pre, b ∈ prefixBytes) ∧ pre.Pairwise (fun a b => ¬ SameKind a b) ∧ (m = .mode32 → 0x67#8 ∉ pre)

/-- None of the prefixes that are #UD before a VEX or EVEX prefix (`30_encoding.md` R85, R87). -/
def NoIllegalPrefix (pre : List Byte) : Prop := ∀ b ∈ [0xF0#8, 0x66#8, 0xF2#8, 0xF3#8], b ∉ pre

/-- No REX byte, or in Mode64 one (`30_encoding.md` R63). -/
def OptionalRex (m : Mode) (rex : List Byte) : Prop :=
  rex = [] ∨ (m = .mode64 ∧ ∃ n : BitVec 4, rex = [0x40#8 ||| n.setWidth 8])

/-- How many SIB and displacement bytes follow the ModRM byte `modrm` when `rest` stands after it: none for a register,
at most five (`30_encoding.md` R74, R76, R77). -/
def addressLen (modrm : Byte) (rest : List Byte) : Nat :=
  let md := modrm.extractLsb' 6 2
  let rm := modrm.extractLsb' 0 3
  let sib := if rm = 4#3 then 1 else 0
  if md = 3#2 then 0
  else if md = 1#2 then sib + 1
  else if md = 2#2 then sib + 4
  else if rm = 5#3 ∨ (rm = 4#3 ∧ rest.head?.map (·.extractLsb' 0 3) = some 5#3) then sib + 4
  else sib

/-- Strings after legal prefixes that spell another opcode than the group's: a VEX prefix with `mmmmm` not 00010 or `pp`
not 01, an EVEX prefix with its reserved bits in order and `mm` not 10 or `pp` not 01, whatever follows; an opcode byte
other than 40 after a VEX or EVEX prefix; bytes other than 38 and 40 after 0F; and any other class byte (`30_encoding.md`
R85 to R87, R89). -/
def OtherOpcodesRefused : Prop :=
  (∀ (m : Mode) (pre bs : List Byte) (p1 p2 op : Byte), PrefixSet m pre → NoIllegalPrefix pre →
    (m = .mode32 → p1.extractLsb' 6 2 = 3#2) →
    ((p1.extractLsb' 0 5 ≠ 2#5 ∨ p2.extractLsb' 0 2 ≠ 1#2) →
      decode m (pre ++ [0xC4#8, p1, p2] ++ bs) = .refused .notInScope) ∧
    (op ≠ 0x40#8 → decode m (pre ++ [0xC4#8, p1, p2, op] ++ bs) = .refused .notInScope)) ∧
  (∀ (m : Mode) (pre bs : List Byte) (p0 p1 p2 op : Byte), PrefixSet m pre → NoIllegalPrefix pre →
    (m = .mode32 → p0.extractLsb' 6 2 = 3#2) → p0.extractLsb' 2 2 = 0#2 → p1.getLsbD 2 = true →
    ((p0.extractLsb' 0 2 ≠ 2#2 ∨ p1.extractLsb' 0 2 ≠ 1#2) →
      decode m (pre ++ [0x62#8, p0, p1, p2] ++ bs) = .refused .notInScope) ∧
    (op ≠ 0x40#8 → decode m (pre ++ [0x62#8, p0, p1, p2, op] ++ bs) = .refused .notInScope)) ∧
  ∀ (m : Mode) (pre rex bs : List Byte) (c : Byte), PrefixSet m pre → OptionalRex m rex →
    (c ≠ 0x38#8 → decode m (pre ++ rex ++ [0x0F#8, c] ++ bs) = .refused .notInScope) ∧
    (c ≠ 0x40#8 → decode m (pre ++ rex ++ [0x0F#8, 0x38#8, c] ++ bs) = .refused .notInScope) ∧
    (c ∉ prefixBytes → c ∉ [0x0F#8, 0xC4#8, 0x62#8] → (m = .mode64 → c.extractLsb' 4 4 ≠ 4#4) →
      decode m (pre ++ rex ++ [c] ++ bs) = .refused .notInScope)

/-- The scale of an 8-bit displacement (`30_encoding.md` R80). -/
def disp8Factor (f : Form) (b : Bool) : Nat :=
  match f.cls with
  | .legacy => 1
  | .vex => 1
  | .evex =>
    if b = true then
      match f.elem with
      | .dword => 4
      | .qword => 8
    else
      match f.vlen with
      | .v128 => 16
      | .v256 => 32
      | .v512 => 64

/-- A displacement as an integer, an 8-bit one scaled by `n`. -/
def dispInt (n : Nat) : Disp → Int
  | .none => 0
  | .d8 d => d.toInt * n
  | .d32 d => d.toInt

/-- The scaled index of an address as an integer, 0 with no index. -/
def indexInt (s : State) (scale : BitVec 2) : Option GReg → Int
  | none => 0
  | some i => s.gpr[i.val].toNat * 2 ^ scale.toNat

/-- The exact sum of the effective-address table of `30_encoding.md` R77, with the pc-relative form as in the
given mode (R78); `n` scales an 8-bit displacement, `len` is the instruction's length. -/
def addressInt (m : Mode) (s : State) (n len : Nat) : Mem → Int
  | .disp32 d => (if m = .mode64 then (s.rip.toNat + len : Int) else 0) + d.toInt
  | .base b d => s.gpr[b.val].toNat + dispInt n d
  | .sib b i sc d => s.gpr[b.val].toNat + indexInt s sc i + dispInt n d
  | .sibNoBase i sc d => indexInt s sc i + d.toInt

/-- The addresses whose default segment is SS (`30_encoding.md` R79). -/
def SsByDefault (x : Mem) : Prop :=
  (∃ d, x = .base 5 d) ∨ (∃ i sc d, x = .sib 4 i sc d) ∨ ∃ i sc d, x = .sib 5 i sc d

end Sys2Proof.Claims

open Sys2Proof Sys2Proof.Machine Sys2Proof.Claims

/-! ### Reset -/

/-- The reset values that `10_state.md` R33 gives. RDX and memory are left out: the spec leaves them open. How the
control bits select the mode is log 8, that IF is bit 9 of RFLAGS log 29, and the widths of the control registers log 30. -/
def Obligations.ResetStateValues : Prop :=
  (∀ n : VReg, State.reset.readZmm n = 0#512) ∧ (∀ n : KReg, State.reset.readK n = 0#64) ∧
  State.reset.mxcsr = 0x1F80#32 ∧ (∀ n : GReg, n ≠ 2 → State.reset.readGpr n = 0#64) ∧
  State.reset.rip = 0xFFF0#64 ∧ State.reset.cs.base = 0xFFFF0000#64 ∧
  State.reset.cs.selector = 0xF000#16 ∧ State.reset.rflags = 0x2#64 ∧ State.reset.cr0 = 0x60000010#64 ∧
  State.reset.cr4 = 0#64 ∧ State.reset.xcr0 = 1#64 ∧ State.reset.efer = 0#64 ∧ State.reset.cpl = 0 ∧
  State.reset.cpuMode = .unadmitted .realAddress ∧ State.reset.interruptFlag = false

/-- The INIT column of `10_state.md` R33. That RDX holds `cfg.signature` is log 5, and that CD and NW are bits 30 and
29 of CR0 is log 29; the widths of the control registers are log 30. -/
def Obligations.InitKeepsVectorState : Prop :=
  ∀ s : State,
    s.afterInit.zmm = s.zmm ∧ s.afterInit.k = s.k ∧ s.afterInit.mxcsr = s.mxcsr ∧
    s.afterInit.xcr0 = s.xcr0 ∧ (∀ a, s.afterInit.mem.read a = s.mem.read a) ∧
    (∀ n : GReg, n ≠ 2 → s.afterInit.readGpr n = 0#64) ∧
    s.afterInit.readGpr 2 = s.cfg.signature.setWidth 64 ∧
    s.afterInit.rip = 0xFFF0#64 ∧ s.afterInit.cs.selector = 0xF000#16 ∧
    s.afterInit.cs.base = 0xFFFF0000#64 ∧ s.afterInit.rflags = 2#64 ∧ s.afterInit.cr4 = 0#64 ∧
    s.afterInit.efer = 0#64 ∧ s.afterInit.cpl = 0 ∧ s.afterInit.cpuMode = .unadmitted .realAddress ∧
    s.afterInit.interruptFlag = false ∧
    (∀ n, s.afterInit.cr0.getLsbD n =
      if n = 29 ∨ n = 30 then s.cr0.getLsbD n else (0x60000010#64).getLsbD n)

/-- `10_state.md` R33, its consequence: straight after reset every encoding raises #UD. -/
def Obligations.EveryEncodingUdAfterReset : Prop := ∀ i : Instr, exec i State.reset = .fault .invalidOpcode

/-! ### The invariant -/

/-- The invariant holds after reset. -/
def Obligations.ResetHoldsInvariant : Prop := Inv State.reset

/-- Every step keeps the invariant: memory canonical, no vector register with a bit at MAXVL or above, EIP in 32
bits (`00_scope.md` R6, `10_state.md` R25, `40_common_lane_arithmetic.md` R107). -/
def Obligations.StepKeepsInvariant : Prop := ∀ s t : State, Inv s → step s = .next t → Inv t

/-! ### Decoding -/

/-- Decoding the encoding of a well-formed instruction gives it back, whatever bytes follow. -/
def Obligations.DecodeEncodeRoundTrip : Prop :=
  ∀ (m : Mode) (i : Instr) (rest : List Byte), i.wellFormed m = true →
    decode m (encode i ++ rest) = .ok i rest

/-- The decoder delivers well-formed instructions only. -/
def Obligations.DecodedIsWellFormed : Prop :=
  ∀ (m : Mode) (bs rest : List Byte) (i : Instr), decode m bs = .ok i rest → i.wellFormed m = true

/-- `30_encoding.md` R84: the decoder consumes exactly the instruction's length, at most 13 bytes. -/
def Obligations.DecodedLength : Prop :=
  ∀ (m : Mode) (bs rest : List Byte) (i : Instr), decode m bs = .ok i rest →
    bs.length = instrLen i + rest.length ∧ instrLen i ≤ 13

/-- Words written out from the encodings of `30_encoding.md` decode to the instructions they stand for. -/
def Obligations.DecodesWrittenOutWords : Prop :=
  decode .mode64 [0x66#8, 0x45#8, 0x0F#8, 0x38#8, 0x40#8, 0xCA#8] =
    .ok (.pmulld ⟨none, false⟩ true 9 (.reg 10)) [] ∧
  decode .mode64 [0xC4#8, 0xE2#8, 0x6D#8, 0x40#8, 0xCB#8] =
    .ok (.vpmulldVex256 ⟨none, false⟩ 1 2 (.reg 3)) [] ∧
  decode .mode64 [0x62#8, 0xF2#8, 0x6D#8, 0xD9#8, 0x40#8, 0x08#8] =
    .ok (.vpmulldEvex512 ⟨none, false⟩ ⟨1, true, true⟩ 1 2 (.mem (.base 0 .none))) [] ∧
  decode .mode64 [0x62#8, 0xF2#8, 0xED#8, 0x4F#8, 0x40#8, 0x4B#8, 0x02#8] =
    .ok (.vpmullqEvex512 ⟨none, false⟩ ⟨7, false, false⟩ 1 2 (.mem (.base 3 (.d8 2#8)))) []

/-- A step runs the instruction decoded at RIP; `exec` itself advances RIP past its bytes (`10_state.md` R25). Where the
decoder answers #UD or a refusal instead, so does the step (`30_encoding.md` R85 to R89, `60_exceptions.md` R165), and that
under either fault order (log 6). -/
def Obligations.StepRunsDecodedInstruction : Prop :=
  ∀ (m : Mode) (s : State), s.cpuMode = .admitted m → codeEnd s = none →
    (∀ (i : Instr) (rest : List Byte), decode m (fetchBytes m s) = .ok i rest →
      step s = exec i s ∧ ∀ t, step s = .next t → RipAdvanced m s t (instrLen i)) ∧
    (decode m (fetchBytes m s) = .invalidOpcode → step s = .fault .invalidOpcode) ∧
    ∀ why, decode m (fetchBytes m s) = .refused why → step s = .refused (.decode why)

/-- An instruction whose encoding stands in memory at RIP, inside the code region, is the one a step runs. -/
def Obligations.EncodedInstructionRuns : Prop :=
  ∀ (m : Mode) (i : Instr) (s : State), i.wellFormed m = true → s.cpuMode = .admitted m →
    (∀ c, s.code = some c → (s.rip - c.base).toNat + instrLen i ≤ c.size) →
    (∀ k, k < instrLen i → (encode i)[k]? = some (s.mem.read (fetchAddress m s k))) →
    step s = exec i s

/-- `30_encoding.md` R68: VEX.W is ignored. -/
def Obligations.VexWIgnored : Prop :=
  ∀ (m : Mode) (pre rest : List Byte) (p1 p2 : Byte), (∀ b ∈ pre, b ∈ prefixBytes) →
    decode m (pre ++ [0xC4#8, p1, p2 ||| 0x80#8] ++ rest) =
      decode m (pre ++ [0xC4#8, p1, p2 &&& 0x7F#8] ++ rest)

/-- `30_encoding.md` R63: REX.W is ignored by PMULLD. -/
def Obligations.RexWIgnored : Prop :=
  ∀ (pre rest : List Byte) (n : BitVec 3), (∀ b ∈ pre, b ∈ prefixBytes) →
    decode .mode64 (pre ++ [0x40#8 ||| n.setWidth 8] ++ rest) =
      decode .mode64 (pre ++ [0x48#8 ||| n.setWidth 8] ++ rest)

/-- `30_encoding.md` R85 to R87: a LOCK prefix anywhere before the legacy form, and a LOCK, 66, F2, F3 or an
immediately preceding REX prefix before a VEX or EVEX prefix, is #UD. -/
def Obligations.IllegalPrefixesUd : Prop :=
  ∀ (m : Mode) (i : Instr) (pre post rest : List Byte), i.wellFormed m = true → encode i = pre ++ post →
    (∀ b ∈ pre, b ∈ prefixBytes) →
    ((formOf i).cls = .legacy → decode m (pre ++ [0xF0#8] ++ post ++ rest) = .invalidOpcode) ∧
    ((formOf i).cls ≠ .legacy →
      (∀ b ∈ [0xF0#8, 0x66#8, 0xF2#8, 0xF3#8], decode m (pre ++ [b] ++ post ++ rest) = .invalidOpcode) ∧
      (m = .mode64 → (post.head? = some 0xC4#8 ∨ post.head? = some 0x62#8) →
        ∀ n : BitVec 4, decode m (pre ++ [0x40#8 ||| n.setWidth 8] ++ post ++ rest) = .invalidOpcode))

/-- `30_encoding.md` R85, the reserved fields of an EVEX prefix: each is #UD, in both modes and after any legacy
prefixes; those of `P0` and `P1` whatever follows `P2`, were it nothing (R89 step 2), the last one once the operand's bytes
are there. In Mode32 the bytes are an EVEX prefix only if `P0[7:6] = 11b`, and the last two conditions come after the refusal
of D22; that, and `truncated` for zeroing without a writemask when operand bytes are missing, is log 14. -/
def Obligations.EvexReservedFieldsUd : Prop :=
  ∀ (m : Mode) (pre : List Byte) (p0 p1 p2 modrm : Byte) (rest : List Byte), PrefixSet m pre →
    (m = .mode32 → p0.extractLsb' 6 2 = 3#2) →
    ((p0.extractLsb' 2 2 ≠ 0#2 ∨ p1.getLsbD 2 = false) →
      decode m (pre ++ [0x62#8, p0, p1, p2] ++ rest) = .invalidOpcode) ∧
    (p0.extractLsb' 0 4 = 2#4 → p1.extractLsb' 0 3 = 5#3 →
      (p2.extractLsb' 5 2 = 3#2 →
        decode m (pre ++ [0x62#8, p0, p1, p2, 0x40#8, modrm] ++ rest) = .invalidOpcode) ∧
      ((m = .mode32 → p0.extractLsb' 4 2 = 3#2 ∧ p1.getLsbD 6 = true ∧ p2.getLsbD 3 = true) →
        (p2.getLsbD 4 = true → modrm.extractLsb' 6 2 = 3#2 →
          decode m (pre ++ [0x62#8, p0, p1, p2, 0x40#8, modrm] ++ rest) = .invalidOpcode) ∧
        (p2.getLsbD 7 = true → p2.extractLsb' 0 3 = 0#3 →
          (addressLen modrm rest ≤ rest.length →
            decode m (pre ++ [0x62#8, p0, p1, p2, 0x40#8, modrm] ++ rest) = .invalidOpcode) ∧
          (rest.length < addressLen modrm rest → p2.extractLsb' 5 2 ≠ 3#2 →
            NoIllegalPrefix pre →
            decode m (pre ++ [0x62#8, p0, p1, p2, 0x40#8, modrm] ++ rest) = .refused .truncated))))

/-- `30_encoding.md` R62, R63, R67, R69, R73, R85 to R89: byte strings the model refuses. Which refusal is answered, and that
a repeated prefix and 67 in Mode32 come before every #UD of R85 to R87, and the refusal of D22 before the conditions of
R85 on z and b, is the model's choice (log 14). -/
def Obligations.RefusedByteStrings : Prop :=
  (∀ (pre bs : List Byte), (∀ x ∈ pre, x ∈ prefixBytes) →
    (decode .mode32 (pre ++ [0x67#8] ++ bs) = .refused .addressSize16 ∨
      decode .mode32 (pre ++ [0x67#8] ++ bs) = .refused .repeatedPrefix) ∧
    ((pre ++ [0x67#8]).Pairwise (fun a b => ¬ SameKind a b) → (∀ b, bs.head? = some b → b ∉ prefixBytes) →
      decode .mode32 (pre ++ [0x67#8] ++ bs) = .refused .addressSize16)) ∧
  (∀ (pre : List Byte) (b : Byte) (bs : List Byte) (m : Mode), (∀ x ∈ pre, x ∈ prefixBytes) →
    b ∈ prefixBytes → (∃ a ∈ pre, SameKind a b) → decode m (pre ++ [b] ++ bs) = .refused .repeatedPrefix) ∧
  (∀ (pre : List Byte) (n : BitVec 4) (b : Byte) (bs : List Byte), PrefixSet .mode64 pre → b ∈ prefixBytes →
    decode .mode64 (pre ++ [0x40#8 ||| n.setWidth 8, b] ++ bs) = .refused .misplacedRex) ∧
  (∀ (pre : List Byte) (b : Byte) (bs : List Byte), PrefixSet .mode32 pre → b.extractLsb' 6 2 ≠ 3#2 →
    decode .mode32 (pre ++ [0xC4#8, b] ++ bs) = .refused .notInScope ∧
    decode .mode32 (pre ++ [0x62#8, b] ++ bs) = .refused .notInScope) ∧
  (∀ (m : Mode) (pre bs : List Byte), PrefixSet m pre → decode m (pre ++ [0xC5#8] ++ bs) = .refused .notInScope) ∧
  (∀ (m : Mode) (pre rex bs : List Byte), PrefixSet m pre → OptionalRex m rex →
    (0x66#8 ∉ pre → decode m (pre ++ rex ++ [0x0F#8, 0x38#8, 0x40#8] ++ bs) = .refused .notInScope) ∧
    (0x66#8 ∈ pre → (0xF2#8 ∈ pre ∨ 0xF3#8 ∈ pre) →
      decode m (pre ++ rex ++ [0x0F#8, 0x38#8, 0x40#8] ++ bs) = .refused .repPrefix)) ∧
  (∀ (pre : List Byte) (p0 p1 p2 : Byte) (bs : List Byte), PrefixSet .mode32 pre →
    NoIllegalPrefix pre → p0.extractLsb' 6 2 = 3#2 →
    (p0.extractLsb' 0 5 = 2#5 → p1.extractLsb' 0 2 = 1#2 → (p0.getLsbD 5 = false ∨ p1.getLsbD 6 = false) →
      decode .mode32 (pre ++ [0xC4#8, p0, p1, 0x40#8] ++ bs) = .refused .highRegister32) ∧
    (p0.extractLsb' 0 4 = 2#4 → p1.extractLsb' 0 3 = 5#3 → p2.extractLsb' 5 2 ≠ 3#2 →
      (p0.extractLsb' 4 2 ≠ 3#2 ∨ p1.getLsbD 6 = false ∨ p2.getLsbD 3 = false) →
      decode .mode32 (pre ++ [0x62#8, p0, p1, p2, 0x40#8] ++ bs) = .refused .highRegister32)) ∧
  OtherOpcodesRefused

/-- `30_encoding.md` R88: real-address mode, virtual-8086 mode and 16-bit code segments are refused. -/
def Obligations.RefusedModes : Prop :=
  ∀ s : State,
    (s.cr0.getLsbD 0 = false → step s = .refused (.mode .realAddress)) ∧
    (s.cr0.getLsbD 0 = true → s.rflags.getLsbD 17 = true → step s = .refused (.mode .virtual8086)) ∧
    (s.cr0.getLsbD 0 = true → s.rflags.getLsbD 17 = false → (s.efer.getLsbD 10 = false ∨ s.cs.l = false) →
      s.cs.d = false → step s = .refused (.mode .code16)) ∧
    (∀ why i t, s.cpuMode = .unadmitted why → exec i s ≠ .next t)

/-! ### Lanes and operands -/

/-- `40_common_lane_arithmetic.md` R101: the lane product does not depend on signedness. -/
def Obligations.LaneProductUnsigned : Prop :=
  ∀ (w : Nat) (a b : BitVec w),
    mullo a b = BitVec.ofNat w (a.toNat * b.toNat) ∧ mullo a b = BitVec.ofInt w (a.toInt * b.toInt)

/-- `40_common_lane_arithmetic.md` R102: the ring of integers modulo 2^N. -/
def Obligations.LaneProductRing : Prop :=
  ∀ (w : Nat) (a b c : BitVec w),
    mullo a b = mullo b a ∧ mullo (mullo a b) c = mullo a (mullo b c) ∧
    mullo a (b + c) = mullo a b + mullo a c ∧ mullo a 0 = 0 ∧ mullo a 1 = a ∧
    mullo a (BitVec.allOnes w) = BitVec.ofInt w (-a.toInt) ∧
    mullo (BitVec.twoPow w (w - 1)) (BitVec.allOnes w) = BitVec.twoPow w (w - 1)

/-- `20_memory.md` R44: the dword and the qword view of the same bytes. -/
def Obligations.MixedWidthView : Prop :=
  ∀ (m : Mode) (s : State) (a : Access) (q : Nat), 8 * q + 8 ≤ a.size → a.size ≤ 64 →
    (readOperand m s a.seg a.ea a.size).extractLsb' (64 * q) 64 = operandQword m s a (8 * q) ∧
    (readOperand m s a.seg a.ea a.size).extractLsb' (32 * (2 * q)) 32 =
      (operandQword m s a (8 * q)).extractLsb' 0 32 ∧
    (readOperand m s a.seg a.ea a.size).extractLsb' (32 * (2 * q + 1)) 32 =
      (operandQword m s a (8 * q)).extractLsb' 32 32

/-- `20_memory.md` R43: byte `k` of an operand is bits 8k+7 down to 8k; displacements are little-endian too. -/
def Obligations.LittleEndianOperand : Prop :=
  (∀ (m : Mode) (s : State) (g : Seg) (ea : W64) (n k : Nat), k < n → n ≤ 64 →
    (readOperand m s g ea n).extractLsb' (8 * k) 8 =
      s.mem.read (linearAddress m s g (ea + BitVec.ofNat 64 k)).toNat) ∧
  ∀ b0 b1 b2 b3 : Byte,
    (disp32Of b0 b1 b2 b3).toNat = b0.toNat + 2 ^ 8 * b1.toNat + 2 ^ 16 * b2.toNat + 2 ^ 24 * b3.toNat

/-- `20_memory.md` R45: the linear address, with the bases of CS, SS, DS and ES 0 in Mode64; R40: an address is
canonical when it is the sign extension of its implemented bits. -/
def Obligations.LinearAddressRule : Prop :=
  ∀ (s : State) (g : Seg) (ea : W64),
    (linearAddress .mode64 s g ea).toNat =
      ((if g = .fs then s.fs.base.toNat else if g = .gs then s.gs.base.toNat else 0) + ea.toNat) % 2 ^ 64 ∧
    (linearAddress .mode32 s g ea).toNat = ((s.seg g).base.toNat + ea.toNat) % 2 ^ 32 ∧
    (canonical .lb48 ea = true ↔ (ea.setWidth 48).signExtend 64 = ea) ∧
    (canonical .lb57 ea = true ↔ (ea.setWidth 57).signExtend 64 = ea)

/-- `30_encoding.md` R77: the effective address under 64-bit addressing, with the scaled 8-bit displacement of
R80. -/
def Obligations.EffectiveAddress64 : Prop :=
  ∀ (i : Instr) (s : State) (x : Mem), (operandsOf i).rm = .mem x → (operandsOf i).pfx.addr = false →
    (access .mode64 i s x).ea = BitVec.ofInt 64
      (addressInt .mode64 s (disp8Factor (formOf i) (operandsOf i).ctl.b) (instrLen i) x)

/-- `30_encoding.md` R78: under 32-bit addressing the sum is taken modulo 2^32. -/
def Obligations.EffectiveAddress32 : Prop :=
  ∀ (m : Mode) (i : Instr) (s : State) (x : Mem), (operandsOf i).rm = .mem x →
    (m = .mode32 ∨ (operandsOf i).pfx.addr = true) →
    ((access m i s x).ea.toNat : Int) =
      addressInt m s (disp8Factor (formOf i) (operandsOf i).ctl.b) (instrLen i) x % 2 ^ 32

/-- `30_encoding.md` R79: the segment of a memory operand. -/
def Obligations.OperandSegment : Prop :=
  ∀ (m : Mode) (i : Instr) (s : State) (x : Mem), (operandsOf i).rm = .mem x → wfMem m x = true →
    (((operandsOf i).pfx.seg = none ∨
        (m = .mode64 ∧ (operandsOf i).pfx.seg ≠ some .fs ∧ (operandsOf i).pfx.seg ≠ some .gs)) →
      (SsByDefault x → (access m i s x).seg = .ss) ∧ (¬ SsByDefault x → (access m i s x).seg = .ds)) ∧
    (∀ g, (operandsOf i).pfx.seg = some g → (m = .mode32 ∨ g = .fs ∨ g = .gs) →
      (access m i s x).seg = g)

/-- `20_memory.md` R42: the number of bytes one execution reads. -/
def Obligations.ReadWidths : Prop :=
  ∀ (m : Mode) (s : State) (p : Pfx) (rex : Bool) (c : EvexCtl) (d a : VReg) (x : Mem),
    (access m (.pmulld p rex d (.mem x)) s x).size = 16 ∧
    (access m (.vpmulldVex128 p d a (.mem x)) s x).size = 16 ∧
    (access m (.vpmulldVex256 p d a (.mem x)) s x).size = 32 ∧
    (access m (.vpmulldEvex128 p c d a (.mem x)) s x).size = (if c.b = true then 4 else 16) ∧
    (access m (.vpmulldEvex256 p c d a (.mem x)) s x).size = (if c.b = true then 4 else 32) ∧
    (access m (.vpmulldEvex512 p c d a (.mem x)) s x).size = (if c.b = true then 4 else 64) ∧
    (access m (.vpmullqEvex128 p c d a (.mem x)) s x).size = (if c.b = true then 8 else 16) ∧
    (access m (.vpmullqEvex256 p c d a (.mem x)) s x).size = (if c.b = true then 8 else 32) ∧
    (access m (.vpmullqEvex512 p c d a (.mem x)) s x).size = (if c.b = true then 8 else 64)

/-! ### Results of the nine instructions -/

/-- `41_pmulld_sse.md` R110, the register form: it completes, and with this result. -/
def Obligations.PmulldRegisterResult : Prop :=
  ∀ m p rex d r s, s.cpuMode = .admitted m → Ready (.pmulld p rex d (.reg r)) s →
    Result 32 m s (.pmulld p rex d (.reg r)) 4 d d (fun j => laneOf 32 j (s.readZmm r)) allActive false true

/-- `41_pmulld_sse.md` R110, the memory form: it completes on an aligned, readable operand, and with this
result. -/
def Obligations.PmulldMemoryResult : Prop :=
  ∀ m p rex d x s, s.cpuMode = .admitted m → Ready (.pmulld p rex d (.mem x)) s →
    AccessReadable m s (access m (.pmulld p rex d (.mem x)) s x) →
    LegacyAligned m s (access m (.pmulld p rex d (.mem x)) s x) →
    Result 32 m s (.pmulld p rex d (.mem x)) 4 d d
      (fun j => operandDword m s (access m (.pmulld p rex d (.mem x)) s x) (4 * j)) allActive false true

/-- `42_vpmulld_vex.md` R120, R121, the register forms. -/
def Obligations.VexRegisterResult : Prop :=
  VexRegisterForm .vpmulldVex128 4 ∧ VexRegisterForm .vpmulldVex256 8

/-- `42_vpmulld_vex.md` R120, R121, the memory forms, with no alignment premise. -/
def Obligations.VexMemoryResult : Prop :=
  VexMemoryForm .vpmulldVex128 4 ∧ VexMemoryForm .vpmulldVex256 8

/-- `43_vpmulld_evex.md` R130 to R132, the register forms under every writemask. -/
def Obligations.EvexDwordRegisterResult : Prop :=
  EvexRegisterForm 32 .vpmulldEvex128 4 ∧ EvexRegisterForm 32 .vpmulldEvex256 8 ∧
    EvexRegisterForm 32 .vpmulldEvex512 16

/-- `43_vpmulld_evex.md` R130 to R132, the full-width memory forms: bytes of inactive lanes need not be
accessible under SuppressionHolds (`20_memory.md` R53), and may lie in device or page-table memory (log 28). -/
def Obligations.EvexDwordMemoryResult : Prop :=
  EvexMemoryForm 32 operandDword .vpmulldEvex128 4 ∧ EvexMemoryForm 32 operandDword .vpmulldEvex256 8 ∧
    EvexMemoryForm 32 operandDword .vpmulldEvex512 16

/-- `43_vpmulld_evex.md` R130 to R132, the broadcast forms (`20_memory.md` R52). -/
def Obligations.EvexDwordBroadcastResult : Prop :=
  EvexBroadcastForm 32 operandDword .vpmulldEvex128 4 ∧ EvexBroadcastForm 32 operandDword .vpmulldEvex256 8 ∧
    EvexBroadcastForm 32 operandDword .vpmulldEvex512 16

/-- `44_vpmullq_evex.md` R140 to R142, the register forms under every writemask. -/
def Obligations.EvexQwordRegisterResult : Prop :=
  EvexRegisterForm 64 .vpmullqEvex128 2 ∧ EvexRegisterForm 64 .vpmullqEvex256 4 ∧
    EvexRegisterForm 64 .vpmullqEvex512 8

/-- `44_vpmullq_evex.md` R140 to R142, the full-width memory forms; bytes of inactive lanes as for VPMULLD (log 28). -/
def Obligations.EvexQwordMemoryResult : Prop :=
  EvexMemoryForm 64 operandQword .vpmullqEvex128 2 ∧ EvexMemoryForm 64 operandQword .vpmullqEvex256 4 ∧
    EvexMemoryForm 64 operandQword .vpmullqEvex512 8

/-- `44_vpmullq_evex.md` R140 to R142, the broadcast forms. -/
def Obligations.EvexQwordBroadcastResult : Prop :=
  EvexBroadcastForm 64 operandQword .vpmullqEvex128 2 ∧ EvexBroadcastForm 64 operandQword .vpmullqEvex256 4 ∧
    EvexBroadcastForm 64 operandQword .vpmullqEvex512 8

/-! ### Whole-machine rules -/

/-- `40_common_lane_arithmetic.md` R107: destination bits from VL up to MAXVL. -/
def Obligations.UpperBitsRule : Prop :=
  ∀ (i : Instr) (s t : State) (n : Nat), exec i s = .next t →
    vlenBits (formOf i).vlen ≤ n → n < maxvl s.cfg.feat →
    ((formOf i).cls = .legacy →
      (t.readZmm (operandsOf i).dst).getLsbD n = (s.readZmm (operandsOf i).dst).getLsbD n) ∧
    ((formOf i).cls ≠ .legacy → (t.readZmm (operandsOf i).dst).getLsbD n = false)

/-- Derived. The clauses on active and inactive lanes, and that the values of an inactive lane's memory bytes do not
influence the outcome, are `40_common_lane_arithmetic.md` R106; that under SuppressionHolds their accessibility does
not either is `20_memory.md` R53. That those bytes may then also lie in device or page-table memory is the model's
choice (log 28). -/
def Obligations.WritemaskRule : Prop :=
  (∀ (m : Mode) (i : Instr) (s t : State) (j : Nat), s.cpuMode = .admitted m → exec i s = .next t →
    j < laneCount (formOf i) →
    (activeLane s (operandsOf i).ctl j →
      laneOf (elemBits (formOf i).elem) j (t.readZmm (operandsOf i).dst) =
        product (laneOf (elemBits (formOf i).elem) j (s.readZmm (operandsOf i).src1))
          (secondFactor m (formOf i) (operandsOf i) s j)) ∧
    (¬ activeLane s (operandsOf i).ctl j → (operandsOf i).ctl.z = true →
      laneOf (elemBits (formOf i).elem) j (t.readZmm (operandsOf i).dst) = 0) ∧
    (¬ activeLane s (operandsOf i).ctl j → (operandsOf i).ctl.z = false →
      laneOf (elemBits (formOf i).elem) j (t.readZmm (operandsOf i).dst) =
        laneOf (elemBits (formOf i).elem) j (s.readZmm (operandsOf i).dst))) ∧
  (∀ (m : Mode) (i : Instr) (s : State) (x : Mem) (mem : Memory) (regions : List Region),
    s.cpuMode = .admitted m → (operandsOf i).rm = .mem x → (s.cfg.suppression = true ∨ regions = s.regions) →
    (∀ k, k < (access m i s x).size → byteLive (formOf i) (operandsOf i).ctl s k = true →
      mem.read (byteAddress m s (access m i s x).seg (access m i s x).ea k).toNat =
        operandByte m s (access m i s x) k ∧
      regionKind regions s.pg (byteAddress m s (access m i s x).seg (access m i s x).ea k).toNat =
        s.kindAt (byteAddress m s (access m i s x).seg (access m i s x).ea k)) →
    exec i { s with mem := mem, regions := regions } =
      mapNext (fun t => { t with mem := mem, regions := regions }) (exec i s))

/-- `40_common_lane_arithmetic.md` R104: a lane of the result depends on the same lane of the sources, of the mask
and of the old destination only. -/
def Obligations.LaneIndependence : Prop :=
  ∀ (i : Instr) (s s' t t' : State) (r : VReg) (j : Nat), (operandsOf i).rm = .reg r →
    exec i s = .next t → exec i s' = .next t' → j < laneCount (formOf i) →
    (∀ n ∈ [(operandsOf i).dst, (operandsOf i).src1, r],
      laneOf (elemBits (formOf i).elem) j (s.readZmm n) =
        laneOf (elemBits (formOf i).elem) j (s'.readZmm n)) →
    (activeLane s (operandsOf i).ctl j ↔ activeLane s' (operandsOf i).ctl j) →
    laneOf (elemBits (formOf i).elem) j (t.readZmm (operandsOf i).dst) =
      laneOf (elemBits (formOf i).elem) j (t'.readZmm (operandsOf i).dst)

/-- `10_state.md` R25, R32: an instruction that completes, and a step, write the destination register and RIP,
nothing else. -/
def Obligations.FrameRule : Prop :=
  (∀ (i : Instr) (s t : State), exec i s = .next t →
    OnlyDest s t (operandsOf i).dst ∧ ∃ m, s.cpuMode = .admitted m ∧ RipAdvanced m s t (instrLen i)) ∧
  (∀ s t : State, step s = .next t → ∃ d, OnlyDest s t d)

/-- `20_memory.md` R55: no instruction writes memory, so LOCK is never legal. -/
def Obligations.NoMemoryWrite : Prop :=
  (∀ (i : Instr) (s t : State), exec i s = .next t → ∀ a, t.mem.read a = s.mem.read a) ∧
  (∀ (m : Mode) (i : Instr) (pre post rest : List Byte), i.wellFormed m = true → encode i = pre ++ post →
    (∀ b ∈ pre, b ∈ prefixBytes) → decode m (pre ++ [0xF0#8] ++ post ++ rest) = .invalidOpcode)

/-- `10_state.md` R28: MXCSR is neither read nor written and the x87/MMX state is untouched. -/
def Obligations.FloatStateUntouched : Prop :=
  ∀ (i : Instr) (s : State),
    (∀ t, exec i s = .next t → t.mxcsr = s.mxcsr ∧ t.st = s.st ∧ t.fcw = s.fcw ∧ t.fsw = s.fsw ∧ t.ftw = s.ftw) ∧
    ∀ v, exec i { s with mxcsr := v } = mapNext (fun t => { t with mxcsr := v }) (exec i s)

/-- `10_state.md` R27: no status flag is read or written; of RFLAGS only AC (and VM, through the mode) has
influence. -/
def Obligations.FlagsUntouched : Prop :=
  ∀ (i : Instr) (s : State),
    (∀ t, exec i s = .next t → t.rflags = s.rflags) ∧
    ∀ v : W64, v.getLsbD 17 = s.rflags.getLsbD 17 → v.getLsbD 18 = s.rflags.getLsbD 18 →
      exec i { s with rflags := v } = mapNext (fun t => { t with rflags := v }) (exec i s)

/-- `10_state.md` R23, `30_encoding.md` R82: only bits below KL of the selected opmask register are read, and none
with `aaa = 0`. -/
def Obligations.OpmaskOtherBitsIgnored : Prop :=
  ∀ (i : Instr) (s : State) (k : Vector W64 8),
    ((operandsOf i).ctl.aaa = 0 ∨ ∀ j, j < laneCount (formOf i) →
      (k[(operandsOf i).ctl.aaa.val]).getLsbD j = (s.k[(operandsOf i).ctl.aaa.val]).getLsbD j) →
    exec i { s with k := k } = mapNext (fun t => { t with k := k }) (exec i s)

/-- `20_memory.md` R41: a register form touches no data memory; nor does any general or segment register but CS
(whose L and D bits select the mode) take part. -/
def Obligations.RegisterFormIgnoresMemory : Prop :=
  ∀ (i : Instr) (s : State) (r : VReg) (mem : Memory) (regions : List Region) (gpr : Vector W64 16)
    (ds ss es fs gs : SegReg), (operandsOf i).rm = .reg r →
    exec i { s with mem := mem, regions := regions, gpr := gpr, ds := ds, ss := ss, es := es, fs := fs, gs := gs } =
      mapNext (fun t =>
        { t with mem := mem, regions := regions, gpr := gpr, ds := ds, ss := ss, es := es, fs := fs, gs := gs })
        (exec i s)

/-- `60_exceptions.md` R170: privilege enters only through `Translate` and the #AC condition, so a register form
executes identically at every privilege level. -/
def Obligations.PrivilegeIndependence : Prop :=
  ∀ (i : Instr) (s : State) (r : VReg) (c : Fin 4), (operandsOf i).rm = .reg r →
    exec i { s with cpl := c } = mapNext (fun t => { t with cpl := c }) (exec i s)

/-! ### Faults -/

/-- `60_exceptions.md` R151: #UD of the legacy encoding, under the fixed order of R163. -/
def Obligations.LegacyUd : Prop :=
  (∀ p rex d r s, s.cfg.faultOrder = .fixed →
    (s.cfg.feat.sse41 = false ∨ s.cr0.getLsbD 2 = true ∨ s.cr4.getLsbD 9 = false) →
    exec (.pmulld p rex d r) s = .fault .invalidOpcode) ∧
  (∀ (m : Mode) p rex d r (pre post rest : List Byte), (Instr.pmulld p rex d r).wellFormed m = true →
    encode (.pmulld p rex d r) = pre ++ post → (∀ b ∈ pre, b ∈ prefixBytes) →
    decode m (pre ++ [0xF0#8] ++ post ++ rest) = .invalidOpcode)

/-- `60_exceptions.md` R152: #UD of the VEX encodings from feature flags and control state, under the fixed order
of R163, in every mode; and that in the modes R88 admits nothing else is #UD, so CR0.EM and CR4.OSFXSR are not tested. -/
def Obligations.VexUd : Prop :=
  ∀ p d a r s, s.cfg.faultOrder = .fixed →
    ((s.cr4.getLsbD 18 = false ∨ s.xcr0.extractLsb' 1 2 ≠ 3#2 ∨ s.cfg.feat.avx = false) →
      exec (.vpmulldVex128 p d a r) s = .fault .invalidOpcode) ∧
    ((s.cr4.getLsbD 18 = false ∨ s.xcr0.extractLsb' 1 2 ≠ 3#2 ∨ s.cfg.feat.avx2 = false) →
      exec (.vpmulldVex256 p d a r) s = .fault .invalidOpcode) ∧
    (∀ m, s.cpuMode = .admitted m → s.cr4.getLsbD 18 = true → s.xcr0.extractLsb' 1 2 = 3#2 →
      (s.cfg.feat.avx = true → exec (.vpmulldVex128 p d a r) s ≠ .fault .invalidOpcode) ∧
      (s.cfg.feat.avx2 = true → exec (.vpmulldVex256 p d a r) s ≠ .fault .invalidOpcode))

/-- `60_exceptions.md` R153: #UD of the EVEX encodings from feature flags, control state and reserved controls,
under the fixed order of R163. -/
def Obligations.EvexUd : Prop :=
  ∀ p c d a r s, s.cfg.faultOrder = .fixed →
    ((s.cr4.getLsbD 18 = false ∨ s.xcr0.extractLsb' 1 2 ≠ 3#2 ∨ s.xcr0.extractLsb' 5 3 ≠ 7#3 ∨
        ReservedCtl c r ∨ s.cfg.feat.avx512f = false) →
      exec (.vpmulldEvex512 p c d a r) s = .fault .invalidOpcode ∧
      exec (.vpmulldEvex256 p c d a r) s = .fault .invalidOpcode ∧
      exec (.vpmulldEvex128 p c d a r) s = .fault .invalidOpcode) ∧
    ((s.cr4.getLsbD 18 = false ∨ s.xcr0.extractLsb' 1 2 ≠ 3#2 ∨ s.xcr0.extractLsb' 5 3 ≠ 7#3 ∨
        ReservedCtl c r ∨ s.cfg.feat.avx512dq = false) →
      exec (.vpmullqEvex512 p c d a r) s = .fault .invalidOpcode ∧
      exec (.vpmullqEvex256 p c d a r) s = .fault .invalidOpcode ∧
      exec (.vpmullqEvex128 p c d a r) s = .fault .invalidOpcode) ∧
    (s.cfg.feat.avx512vl = false →
      exec (.vpmulldEvex256 p c d a r) s = .fault .invalidOpcode ∧
      exec (.vpmulldEvex128 p c d a r) s = .fault .invalidOpcode ∧
      exec (.vpmullqEvex256 p c d a r) s = .fault .invalidOpcode ∧
      exec (.vpmullqEvex128 p c d a r) s = .fault .invalidOpcode)

/-- `60_exceptions.md` R154: #NM if CR0.TS = 1 and no #UD condition holds, under the fixed order of R163, in the modes
that R88 admits. -/
def Obligations.NmRule : Prop :=
  ∀ (m : Mode) (i : Instr) (s : State), s.cfg.faultOrder = .fixed → s.cpuMode = .admitted m →
    s.cr0.getLsbD 3 = true → NoUd i s → exec i s = .fault .deviceNotAvailable

/-- `20_memory.md` R48: a misaligned operand of the legacy encoding is #GP(0), under the fixed order of R163, whatever
the segment and whatever else fails; with a segment base that is no multiple of 16 the model refuses under either
fault order (U6). -/
def Obligations.LegacyMisaligned : Prop :=
  ∀ m p rex d x s, s.cpuMode = .admitted m → Ready (.pmulld p rex d (.mem x)) s →
    (s.cfg.faultOrder = .fixed →
      (segBase m s (access m (.pmulld p rex d (.mem x)) s x).seg).toNat % 16 = 0 →
      (access m (.pmulld p rex d (.mem x)) s x).ea.toNat % 16 ≠ 0 →
      exec (.pmulld p rex d (.mem x)) s = .fault .generalProtection) ∧
    ((segBase m s (access m (.pmulld p rex d (.mem x)) s x).seg).toNat % 16 ≠ 0 →
      exec (.pmulld p rex d (.mem x)) s = .refused .segmentBaseAlignment)

/-- `60_exceptions.md` R155, R156, `20_memory.md` R53: in Mode64 a non-canonical byte of the operand, live or not, is
#SS(0) through SS and #GP(0) through any other segment. -/
def Obligations.NonCanonicalFault : Prop :=
  ∀ (i : Instr) (s : State) (x : Mem) (k : Nat), s.cfg.faultOrder = .fixed →
    s.cpuMode = .admitted .mode64 → (operandsOf i).rm = .mem x → Ready i s →
    ((formOf i).cls = .legacy → LegacyAligned .mode64 s (access .mode64 i s x)) →
    k < (access .mode64 i s x).size →
    canonical s.cfg.linearBits
      (linearAddress .mode64 s (access .mode64 i s x).seg ((access .mode64 i s x).ea + BitVec.ofNat 64 k)) = false →
    exec i s = .fault (if (access .mode64 i s x).seg = .ss then .stackSegment else .generalProtection)

/-- `60_exceptions.md` R155, R156: in Mode32 a live byte outside the segment limit is #SS(0) through SS and #GP(0)
through any other segment; a segment that is not readable, null or otherwise denied is #GP(0), also where the byte is
outside the limit as well (log 17). -/
def Obligations.SegmentFaultMode32 : Prop :=
  ∀ (i : Instr) (s : State) (x : Mem) (k : Nat), s.cfg.faultOrder = .fixed →
    s.cpuMode = .admitted .mode32 → (operandsOf i).rm = .mem x → Ready i s →
    ((formOf i).cls = .legacy → LegacyAligned .mode32 s (access .mode32 i s x)) →
    SuppressionSettled .mode32 i s (access .mode32 i s x) →
    k < (access .mode32 i s x).size → byteLive (formOf i) (operandsOf i).ctl s k = true →
    (((s.seg (access .mode32 i s x).seg).readable = false ∨ (s.seg (access .mode32 i s x).seg).nullSelector = true ∨
        (s.seg (access .mode32 i s x).seg).denied = true) →
      exec i s = .fault .generalProtection) ∧
    ((s.seg (access .mode32 i s x).seg).readable = true → (s.seg (access .mode32 i s x).seg).nullSelector = false →
      (s.seg (access .mode32 i s x).seg).denied = false →
      (s.seg (access .mode32 i s x).seg).limit.toNat < (access .mode32 i s x).ea.toNat + k →
      exec i s = .fault (if (access .mode32 i s x).seg = .ss then .stackSegment else .generalProtection))

/-- `60_exceptions.md` R158: when a broadcast read raises #AC(0), under the fixed order of R163, and that nothing
else ever does. The address tested is the linear one, also where FS or GS has a base that is no multiple of the
element size (log 21), and #AC comes before the refusals of device and page-table memory (log 28). -/
def Obligations.AlignmentCheckRule : Prop :=
  (∀ (m : Mode) (i : Instr) (s : State) (x : Mem), s.cfg.faultOrder = .fixed → s.cpuMode = .admitted m →
    (operandsOf i).rm = .mem x → Ready i s → (operandsOf i).ctl.b = true →
    PastSegmentation m i s (access m i s x) →
    (∃ j, j < laneCount (formOf i) ∧ activeLane s (operandsOf i).ctl j) →
    s.cfg.acBcst = true → s.cr0.getLsbD 18 = true → s.rflags.getLsbD 18 = true → s.cpl = 3 →
    (linearAddress m s (access m i s x).seg (access m i s x).ea).toNat % elemBytes (formOf i).elem ≠ 0 →
    exec i s = .fault .alignmentCheck) ∧
  (∀ (i : Instr) (s : State), exec i s = .fault .alignmentCheck →
    ∃ m x, s.cpuMode = .admitted m ∧ (operandsOf i).rm = .mem x ∧ (formOf i).cls = .evex ∧
      (operandsOf i).ctl.b = true ∧ s.cfg.acBcst = true ∧ s.cr0.getLsbD 18 = true ∧
      s.rflags.getLsbD 18 = true ∧ s.cpl = 3 ∧
      (linearAddress m s (access m i s x).seg (access m i s x).ea).toNat % elemBytes (formOf i).elem ≠ 0)

/-- `60_exceptions.md` R157, `20_memory.md` R47, R53: the page fault of the lowest-addressed live byte whose translation
fails, with its error code and the value CR2 receives, under the fixed order of R163. That a byte has one cause is
log 2, and that no live byte may lie in device or page-table memory is log 28. -/
def Obligations.PageFaultLowestByte : Prop :=
  ∀ (m : Mode) (i : Instr) (s : State) (x : Mem) (k : Nat) (la : W64), s.cfg.faultOrder = .fixed →
    s.cpuMode = .admitted m → (operandsOf i).rm = .mem x → Ready i s →
    PastSegmentation m i s (access m i s x) →
    ((operandsOf i).ctl.b = true → BroadcastAligned m s (access m i s x)) →
    s.cr0.getLsbD 31 = true →
    (∀ n, n < (access m i s x).size → byteLive (formOf i) (operandsOf i).ctl s n = true →
      s.kindAt (byteAddress m s (access m i s x).seg (access m i s x).ea n) ≠ .device ∧
      s.kindAt (byteAddress m s (access m i s x).seg (access m i s x).ea n) ≠ .pageTable) →
    k < (access m i s x).size → byteLive (formOf i) (operandsOf i).ctl s k = true →
    la = byteAddress m s (access m i s x).seg (access m i s x).ea k → PageFails s la →
    (∀ n, n < (access m i s x).size → byteLive (formOf i) (operandsOf i).ctl s n = true →
      (byteAddress m s (access m i s x).seg (access m i s x).ea n).toNat < la.toNat →
      ¬ PageFails s (byteAddress m s (access m i s x).seg (access m i s x).ea n)) →
    ∃ code : BitVec 32, exec i s = .fault (.pageFault code la) ∧ PageFaultCode s la code

/-- `60_exceptions.md` R150 to R158: whatever the fault order, a fault is raised only where its rule says so, and with
the values it says. The modes of #UD and #NM are log 9 (R88 refuses the modes that R152 and R153
list), what #AC tests log 21, the segment violations log 17. -/
def Obligations.FaultsHaveCauses : Prop :=
  ∀ (i : Instr) (s : State) (x : Fault), exec i s = .fault x →
    (x = .invalidOpcode ∧ ¬ NoUd i s) ∨
    (x = .deviceNotAvailable ∧ s.cr0.getLsbD 3 = true ∧ NoUd i s ∧ ∃ m, s.cpuMode = .admitted m) ∨
    (∃ m y, s.cpuMode = .admitted m ∧ (operandsOf i).rm = .mem y ∧
      ((x = .generalProtection ∧ (formOf i).cls = .legacy ∧
          (segBase m s (access m i s y).seg).toNat % 16 = 0 ∧
          (linearAddress m s (access m i s y).seg (access m i s y).ea).toNat % 16 ≠ 0) ∨
        (x = (if (access m i s y).seg = .ss then .stackSegment else .generalProtection) ∧ m = .mode64 ∧
          ∃ k, k < (access m i s y).size ∧
            canonical s.cfg.linearBits (byteAddress m s (access m i s y).seg (access m i s y).ea k) = false) ∨
        (x = (if (access m i s y).seg = .ss then .stackSegment else .generalProtection) ∧ m = .mode32 ∧
          ∃ k, k < (access m i s y).size ∧ byteLive (formOf i) (operandsOf i).ctl s k = true ∧
            (s.seg (access m i s y).seg).limit.toNat < (access m i s y).ea.toNat + k) ∨
        (x = .generalProtection ∧ m = .mode32 ∧
          ((s.seg (access m i s y).seg).readable = false ∨ (s.seg (access m i s y).seg).nullSelector = true ∨
            (s.seg (access m i s y).seg).denied = true) ∧
          ∃ k, k < (access m i s y).size ∧ byteLive (formOf i) (operandsOf i).ctl s k = true) ∨
        (x = .alignmentCheck ∧ (formOf i).cls = .evex ∧ (operandsOf i).ctl.b = true ∧
          (∃ j, j < laneCount (formOf i) ∧ activeLane s (operandsOf i).ctl j) ∧ s.cfg.acBcst = true ∧
          s.cr0.getLsbD 18 = true ∧ s.rflags.getLsbD 18 = true ∧ s.cpl = 3 ∧
          (linearAddress m s (access m i s y).seg (access m i s y).ea).toNat % elemBytes (formOf i).elem ≠ 0) ∨
        (s.cr0.getLsbD 31 = true ∧ ∃ k code la, k < (access m i s y).size ∧
          byteLive (formOf i) (operandsOf i).ctl s k = true ∧
          la = byteAddress m s (access m i s y).seg (access m i s y).ea k ∧ x = .pageFault code la ∧
          PageFails s la ∧ PageFaultCode s la code ∧
          ∀ n, n < (access m i s y).size → byteLive (formOf i) (operandsOf i).ctl s n = true →
            (byteAddress m s (access m i s y).seg (access m i s y).ea n).toNat < la.toNat →
            ¬ PageFails s (byteAddress m s (access m i s y).seg (access m i s y).ea n))))

/-- Under either fault order nothing completes where something stops it: a #UD condition, CR0.TS, a misaligned legacy
operand or segment base, a non-canonical byte in Mode64, the #AC conditions (`60_exceptions.md` R151 to R158, R163), an
inaccessible live byte, or any inaccessible byte without SuppressionHolds (`20_memory.md` R51, R53); a register form, which
nothing else can stop, raises the #UD or #NM. Without SuppressionHolds and under FAULT_ORDER = any, an inaccessible
masked-off byte means a refusal, neither completion nor fault. The choices within are logs 16, 17, 21 and 28. -/
def Obligations.InaccessibleNeverCompletes : Prop :=
  ∀ (m : Mode) (i : Instr) (s : State), s.cpuMode = .admitted m →
    ((¬ NoUd i s ∨ s.cr0.getLsbD 3 = true) → ∀ t, exec i s ≠ .next t) ∧
    (∀ r, (operandsOf i).rm = .reg r →
      (¬ NoUd i s → exec i s = .fault .invalidOpcode) ∧
      (NoUd i s → s.cr0.getLsbD 3 = true → exec i s = .fault .deviceNotAvailable)) ∧
    ∀ x, (operandsOf i).rm = .mem x →
      ((formOf i).cls = .legacy → ¬ LegacyAligned m s (access m i s x) → ∀ t, exec i s ≠ .next t) ∧
      (m = .mode64 → (∃ k, k < (access m i s x).size ∧
          canonical s.cfg.linearBits (byteAddress m s (access m i s x).seg (access m i s x).ea k) = false) →
        ∀ t, exec i s ≠ .next t) ∧
      ((operandsOf i).ctl.b = true → (∃ j, j < laneCount (formOf i) ∧ activeLane s (operandsOf i).ctl j) →
        s.cfg.acBcst = true → s.cr0.getLsbD 18 = true → s.rflags.getLsbD 18 = true → s.cpl = 3 →
        (linearAddress m s (access m i s x).seg (access m i s x).ea).toNat % elemBytes (formOf i).elem ≠ 0 →
        ∀ t, exec i s ≠ .next t) ∧
      ∀ k, k < (access m i s x).size → byteInaccessible m s (access m i s x) k = true →
        ((byteLive (formOf i) (operandsOf i).ctl s k = true ∨ s.cfg.suppression = false) →
          ∀ t, exec i s ≠ .next t) ∧
        (byteLive (formOf i) (operandsOf i).ctl s k = false → s.cfg.suppression = false →
          s.cfg.faultOrder = .any → ∃ r, exec i s = .refused r)

/-- `60_exceptions.md` R150, R161: vectors, error codes and the value recorded. -/
def Obligations.FaultVectorsAndCodes : Prop :=
  ∀ (code : BitVec 32) (a : W64),
    (Fault.vector .invalidOpcode, Fault.errorCode .invalidOpcode) = (6, none) ∧
    (Fault.vector .deviceNotAvailable, Fault.errorCode .deviceNotAvailable) = (7, none) ∧
    (Fault.vector .stackSegment, Fault.errorCode .stackSegment) = (12, some 0#32) ∧
    (Fault.vector .generalProtection, Fault.errorCode .generalProtection) = (13, some 0#32) ∧
    (Fault.vector (.pageFault code a), Fault.errorCode (.pageFault code a)) = (14, some code) ∧
    (Fault.vector .alignmentCheck, Fault.errorCode .alignmentCheck) = (17, some 0#32) ∧
    ∀ x : Fault, x.recordedCr2 = some a ↔ ∃ c, x = .pageFault c a

/-- `70_reset_and_hazards.md` R187: at the end of the code region the run is complete (log 10). -/
def Obligations.EndOfRun : Prop :=
  ∀ (m : Mode) (s : State) (c : CodeRegion), s.cpuMode = .admitted m → s.code = some c → c.size < 2 ^ 64 →
    s.rip = c.base + BitVec.ofNat 64 c.size → step s = .refused .endOfRun ∧ RunComplete s

/-- `70_reset_and_hazards.md` R187: walking off the end is the only way out of the code region. -/
def Obligations.StepStaysInCode : Prop :=
  ∀ (m : Mode) (s t : State) (c : CodeRegion), s.cpuMode = .admitted m → s.code = some c →
    c.size < 2 ^ 64 → (m = .mode32 → c.base.toNat + c.size < 2 ^ 32) → step s = .next t →
    t.code = some c ∧ (codeEnd t = none ∨ RunComplete t)
end

