-- ==== Sys2Proof/Laws/Lanes.lean ====
section
/-! SUPPORT. What lane access, the lane loop and `VMulLo` do, bit by bit and lane by lane
(`40_common_lane_arithmetic.md` R104, R106, R107, R109), and the bytes of a little-endian operand. -/

namespace Sys2Proof.Machine

-- One theorem at a time, to keep the number of waiting threads down.
set_option Elab.async false

/-- The product in an active lane, 0 or the old element in an inactive one (R106). -/
def laneResult (w : Nat) (a : Vec) (s2 : Nat → BitVec w) (active : Nat → Bool) (z : Bool) (old : Vec)
    (j : Nat) : BitVec w :=
  if active j then mullo (lane w j a) (s2 j) else if z then 0 else lane w j old

/-- KL is the vector length over the element width (`30_encoding.md` R81). -/
theorem laneCount_eq_div (f : Form) : vlenBits f.vlen / elemBits f.elem = laneCount f := by
  rcases f with ⟨_, _ | _, _ | _ | _⟩ <;> simp [vlenBits, elemBits, laneCount]

/-- The sizes of a form, in bytes and bits (`20_memory.md` R42, `30_encoding.md` R81). -/
theorem form_sizes (f : Form) :
    elemBits f.elem * laneCount f = vlenBits f.vlen ∧ vlenBytes f.vlen = elemBytes f.elem * laneCount f ∧
      elemBits f.elem = 8 * elemBytes f.elem ∧ 0 < elemBytes f.elem ∧ 0 < laneCount f ∧
      vlenBytes f.vlen ≤ 64 := by
  rcases f with ⟨_, _ | _, _ | _ | _⟩ <;> simp [vlenBits, elemBits, vlenBytes, elemBytes, laneCount]

/-- A bit of a lane is a bit of the vector. -/
theorem getLsbD_lane (w j i : Nat) (v : Vec) :
    (lane w j v).getLsbD i = (decide (i < w) && v.getLsbD (w * j + i)) := by
  simp [lane, BitVec.getLsbD_extractLsb']

/-- A bit of a vector with one lane replaced. -/
theorem getLsbD_setLane (w j i : Nat) (x : BitVec w) (v : Vec) (hi : i < 512) :
    (setLane w j x v).getLsbD i =
      if w * j ≤ i ∧ i < w * j + w then x.getLsbD (i - w * j) else v.getLsbD i := by
  simp only [setLane, BitVec.getLsbD_or, BitVec.getLsbD_and, BitVec.getLsbD_not, BitVec.getLsbD_shiftLeft,
    BitVec.getLsbD_setWidth, BitVec.getLsbD_allOnes]
  by_cases h1 : w * j ≤ i
  · by_cases h2 : i < w * j + w
    · have h3 : i - w * j < w := by omega
      have h4 : i - w * j < 512 := by omega
      simp [hi, h1, h2, h3, h4, not_lt.mpr h1]
    · have h3 : ¬ i - w * j < w := by omega
      simp [hi, h1, h2, h3, BitVec.getLsbD_of_ge x (i - w * j) (by omega)]
  · have h5 : i < w * j := by omega
    simp [hi, h1, h5]

/-- The lane that was set. -/
theorem lane_setLane_same (w j : Nat) (x : BitVec w) (v : Vec) (hj : w * j + w ≤ 512) :
    lane w j (setLane w j x v) = x := by
  apply BitVec.eq_of_getLsbD_eq
  intro i hi
  rw [getLsbD_lane, getLsbD_setLane _ _ _ _ _ (by omega)]
  have h1 : w * j ≤ w * j + i ∧ w * j + i < w * j + w := by omega
  rw [if_pos h1]
  simp [hi]

/-- The lanes do not overlap. -/
theorem lane_ranges_disjoint {w j l i : Nat} (hjl : j ≠ l) (hi : i < w) :
    ¬ (w * j ≤ w * l + i ∧ w * l + i < w * j + w) := by
  rintro ⟨h1, h2⟩
  rcases Nat.lt_or_gt_of_ne hjl with h | h
  · have : w * (j + 1) ≤ w * l := Nat.mul_le_mul_left w h
    rw [Nat.mul_add] at this; omega
  · have : w * (l + 1) ≤ w * j := Nat.mul_le_mul_left w h
    rw [Nat.mul_add] at this; omega

/-- Every other lane keeps its value. -/
theorem lane_setLane_other (w j l : Nat) (x : BitVec w) (v : Vec) (hl : w * l + w ≤ 512) (hjl : j ≠ l) :
    lane w l (setLane w j x v) = lane w l v := by
  apply BitVec.eq_of_getLsbD_eq
  intro i hi
  rw [getLsbD_lane, getLsbD_lane, getLsbD_setLane _ _ _ _ _ (by omega),
    if_neg (lane_ranges_disjoint hjl hi)]

/-- One turn of the lane loop. -/
theorem laneLoop_succ (w : Nat) (a : Vec) (s2 : Nat → BitVec w) (active : Nat → Bool) (z : Bool) (n : Nat)
    (old : Vec) :
    laneLoop w a s2 active z (n + 1) old =
      if active n then setLane w n (mullo (lane w n a) (s2 n)) (laneLoop w a s2 active z n old)
      else if z then setLane w n 0 (laneLoop w a s2 active z n old)
      else laneLoop w a s2 active z n old := rfl

/-- The loop leaves the lanes it has not reached. -/
theorem lane_laneLoop_later (w : Nat) (a : Vec) (s2 : Nat → BitVec w) (active : Nat → Bool) (z : Bool)
    (old : Vec) (l : Nat) (hl : w * l + w ≤ 512) :
    ∀ n, n ≤ l → lane w l (laneLoop w a s2 active z n old) = lane w l old
  | 0, _ => rfl
  | n + 1, h => by
    have ih := lane_laneLoop_later w a s2 active z old l hl n (by omega)
    have hne : n ≠ l := by omega
    rw [laneLoop_succ]
    split
    · rw [lane_setLane_other _ _ _ _ _ hl hne, ih]
    · split
      · rw [lane_setLane_other _ _ _ _ _ hl hne, ih]
      · exact ih

/-- Every lane the loop has reached holds its result (R106, R109). -/
theorem lane_laneLoop (w : Nat) (a : Vec) (s2 : Nat → BitVec w) (active : Nat → Bool) (z : Bool)
    (old : Vec) (l : Nat) (hl : w * l + w ≤ 512) :
    ∀ n, l < n → lane w l (laneLoop w a s2 active z n old) = laneResult w a s2 active z old l
  | n + 1, h => by
    rw [laneLoop_succ]
    by_cases hnl : n = l
    · subst hnl
      have later := lane_laneLoop_later w a s2 active z old n hl n le_rfl
      unfold laneResult
      split
      · rw [lane_setLane_same _ _ _ _ hl]
      · split
        · rw [lane_setLane_same _ _ _ _ hl]
        · exact later
    · have ih := lane_laneLoop w a s2 active z old l hl n (by omega)
      split
      · rw [lane_setLane_other _ _ _ _ _ hl hnl, ih]
      · split
        · rw [lane_setLane_other _ _ _ _ _ hl hnl, ih]
        · exact ih

/-- The loop leaves every bit above the lanes it has reached. -/
theorem getLsbD_laneLoop_above (w : Nat) (a : Vec) (s2 : Nat → BitVec w) (active : Nat → Bool) (z : Bool)
    (old : Vec) (i : Nat) (hi : i < 512) :
    ∀ n, w * n ≤ i → (laneLoop w a s2 active z n old).getLsbD i = old.getLsbD i
  | 0, _ => rfl
  | n + 1, h => by
    have h1 : w * n + w ≤ i := by rw [Nat.mul_add] at h; omega
    have ih := getLsbD_laneLoop_above w a s2 active z old i hi n (by omega)
    have hout : ¬ (w * n ≤ i ∧ i < w * n + w) := by omega
    rw [laneLoop_succ]
    split
    · rw [getLsbD_setLane _ _ _ _ _ hi, if_neg hout, ih]
    · split
      · rw [getLsbD_setLane _ _ _ _ _ hi, if_neg hout, ih]
      · exact ih

/-- A bit of a vector with a range of bits cleared. -/
theorem getLsbD_zeroBits (lo hi i : Nat) (v : Vec) (h : i < 512) :
    (zeroBits lo hi v).getLsbD i = if lo ≤ i ∧ i < hi then false else v.getLsbD i := by
  simp only [zeroBits, BitVec.getLsbD_and, BitVec.getLsbD_not, BitVec.getLsbD_shiftLeft,
    BitVec.getLsbD_setWidth, BitVec.getLsbD_allOnes]
  by_cases h1 : lo ≤ i
  · by_cases h2 : i < hi
    · have h3 : i - lo < hi - lo := by omega
      have h4 : i - lo < 512 := by omega
      simp [h, h1, h2, h3, h4, not_lt.mpr h1]
    · have h3 : ¬ i - lo < hi - lo := by omega
      simp [h, h1, h2, h3]
  · have h5 : i < lo := by omega
    simp [h, h1, h5]

/-- A lane below the cleared range. -/
theorem lane_zeroBits_below (w j lo hi : Nat) (v : Vec) (h : w * j + w ≤ lo) (hlo : lo ≤ 512) :
    lane w j (zeroBits lo hi v) = lane w j v := by
  apply BitVec.eq_of_getLsbD_eq
  intro i hi'
  have hout : ¬ (lo ≤ w * j + i ∧ w * j + i < hi) := by omega
  rw [getLsbD_lane, getLsbD_lane, getLsbD_zeroBits _ _ _ _ (by omega), if_neg hout]

/-- Every lane of `VMulLo` holds its result (R106, R109). -/
theorem lane_vMulLo (w vl mvl : Nat) (a : Vec) (s2 : Nat → BitVec w) (active : Nat → Bool) (z : Bool)
    (old : Vec) (keep : Bool) (l : Nat) (hvl : vl ≤ 512) (hl : w * l + w ≤ vl) (hw : 0 < w) :
    lane w l (vMulLo w vl mvl a s2 active z old keep) = laneResult w a s2 active z old l := by
  have hl' : l < vl / w := by
    rw [Nat.lt_div_iff_mul_lt hw]
    have : w * l = l * w := Nat.mul_comm w l
    omega
  have hin := lane_laneLoop w a s2 active z old l (by omega) (vl / w) hl'
  unfold vMulLo
  cases keep
  · simpa using (lane_zeroBits_below w l vl mvl _ hl hvl).trans hin
  · simpa using hin

/-- Bits from the vector length up: kept by the legacy class, cleared below MAXVL by the others (R107). -/
theorem getLsbD_vMulLo_above (w vl mvl : Nat) (a : Vec) (s2 : Nat → BitVec w) (active : Nat → Bool)
    (z : Bool) (old : Vec) (keep : Bool) (i : Nat) (hi : i < 512) (hvl : vl ≤ i) :
    (vMulLo w vl mvl a s2 active z old keep).getLsbD i =
      if keep = false ∧ i < mvl then false else old.getLsbD i := by
  have hloop := getLsbD_laneLoop_above w a s2 active z old i hi (vl / w)
    (le_trans (Nat.mul_div_le vl w) hvl)
  unfold vMulLo
  cases keep
  · rw [if_neg (by decide), getLsbD_zeroBits _ _ _ _ hi, hloop]
    simp [hvl]
  · simpa using hloop

/-- Byte `k` of a little-endian operand (`20_memory.md` R43). -/
theorem getLsbD_littleEndian (byte : Nat → Byte) (i : Nat) (hi : i < 512) :
    ∀ n, (littleEndian byte n).getLsbD i = (decide (i < 8 * n) && (byte (i / 8)).getLsbD (i % 8))
  | 0 => by simp [littleEndian]
  | n + 1 => by
    have ih := getLsbD_littleEndian byte i hi n
    simp only [littleEndian, BitVec.getLsbD_or, ih, BitVec.getLsbD_shiftLeft, BitVec.getLsbD_setWidth]
    by_cases h1 : i < 8 * n
    · have h2 : i < 8 * (n + 1) := by omega
      simp [h1, h2]
    · by_cases h2 : i < 8 * (n + 1)
      · have h3 : i / 8 = n := by omega
        have h4 : i - 8 * n = i % 8 := by omega
        have h5 : i % 8 < 512 := by omega
        simp [h1, h2, h3, h4, h5, hi]
      · have h3 : 8 ≤ i - 8 * n := by omega
        simp [h1, h2, BitVec.getLsbD_of_ge _ _ h3]

end Sys2Proof.Machine
end

