-- ==== Sys2Proof/Laws/Memory.lean ====
section
/-! SUPPORT. The laws of memory: a read after a write, and the canonical form that every write keeps. -/

namespace Sys2Proof.Machine

-- One theorem at a time, to keep the number of waiting threads down.
set_option Elab.async false

/-- A well-formed cell list reads 0 below its first address. -/
theorem readCells_below : ∀ (cs : List Host.Cell) (lo a : Nat), wfCells lo cs = true → a < lo →
    readCells cs a = 0#8
  | [], _, _, _, _ => rfl
  | (x, v) :: rest, lo, a, h, ha => by
    simp only [wfCells, Bool.and_eq_true, decide_eq_true_eq] at h
    have hx : x ≠ a := by omega
    simp only [readCells, if_neg hx]
    exact readCells_below rest (x + 1) a h.2 (by omega)

/-- The lower bound of a well-formed cell list may be lowered. -/
theorem wfCells_mono : ∀ (cs : List Host.Cell) (lo lo' : Nat), wfCells lo cs = true → lo' ≤ lo →
    wfCells lo' cs = true
  | [], _, _, _, _ => rfl
  | (x, v) :: rest, lo, lo', h, hl => by
    simp only [wfCells, Bool.and_eq_true, decide_eq_true_eq] at h ⊢
    exact ⟨⟨⟨by omega, h.1.1.2⟩, h.1.2⟩, h.2⟩

/-- A write keeps the canonical form. -/
theorem wfCells_putCells : ∀ (cs : List Host.Cell) (lo a : Nat) (v : Byte), wfCells lo cs = true →
    lo ≤ a → a < 2 ^ 64 → wfCells lo (putCells a v cs) = true
  | [], lo, a, v, _, hl, ha => by
    by_cases hv : v = 0#8 <;> simp [putCells, wfCells, hv, hl]; omega
  | (x, u) :: rest, lo, a, v, h, hl, ha => by
    have h' := h
    simp only [wfCells, Bool.and_eq_true, decide_eq_true_eq] at h'
    obtain ⟨⟨⟨h1, h2⟩, h3⟩, h4⟩ := h'
    unfold putCells
    by_cases hlt : a < x
    · by_cases hv : v = 0#8
      · simpa [hlt, hv] using h
      · have hw : wfCells (a + 1) ((x, u) :: rest) = true := by
          simp only [wfCells, Bool.and_eq_true, decide_eq_true_eq]
          exact ⟨⟨⟨by omega, h2⟩, h3⟩, h4⟩
        simp only [hlt, hv, if_true, if_false]
        rw [wfCells]
        simp [hl, hv, hw]; omega
    · by_cases heq : a = x
      · subst heq
        by_cases hv : v = 0#8
        · simpa [hv] using wfCells_mono rest (a + 1) lo h4 (by omega)
        · simp only [lt_irrefl, hv, if_true, if_false]
          rw [wfCells]
          simp [hl, hv, h4]; omega
      · simp only [hlt, heq, if_false]
        rw [wfCells]
        have := wfCells_putCells rest (x + 1) a v h4 (by omega) ha
        simp only [Bool.and_eq_true, decide_eq_true_eq]
        exact ⟨⟨⟨h1, h2⟩, h3⟩, this⟩

/-- A cell list reads what was written. -/
theorem readCells_putCells_same : ∀ (cs : List Host.Cell) (lo a : Nat) (v : Byte), wfCells lo cs = true →
    readCells (putCells a v cs) a = v
  | [], _, a, v, _ => by by_cases hv : v = 0#8 <;> simp [putCells, readCells, hv]
  | (x, u) :: rest, lo, a, v, h => by
    have h' := h
    simp only [wfCells, Bool.and_eq_true, decide_eq_true_eq] at h'
    unfold putCells
    by_cases hlt : a < x
    · by_cases hv : v = 0#8
      · simp only [hlt, hv, if_true]
        have hne : x ≠ a := by omega
        simp only [readCells, if_neg hne]
        exact readCells_below rest (x + 1) a h'.2 (by omega)
      · simp [hlt, hv, readCells]
    · by_cases heq : a = x
      · subst heq
        by_cases hv : v = 0#8
        · simp only [lt_irrefl, hv, if_true, if_false]
          exact readCells_below rest (a + 1) a h'.2 (by omega)
        · simp [hv, readCells]
      · have hne : x ≠ a := fun e => heq e.symm
        simp only [hlt, heq, if_false, readCells, if_neg hne]
        exact readCells_putCells_same rest (x + 1) a v h'.2

/-- A write leaves every other address. -/
theorem readCells_putCells_other : ∀ (cs : List Host.Cell) (a b : Nat) (v : Byte), b ≠ a →
    readCells (putCells a v cs) b = readCells cs b
  | [], a, b, v, hb => by
    have : a ≠ b := fun e => hb e.symm
    by_cases hv : v = 0#8 <;> simp [putCells, readCells, hv, this]
  | (x, u) :: rest, a, b, v, hb => by
    have hab : a ≠ b := fun e => hb e.symm
    unfold putCells
    split
    · split
      · rfl
      · simp [readCells, hab]
    · split
      · rename_i _ h
        subst h
        split <;> simp [readCells, hab]
      · have := readCells_putCells_other rest a b v hb
        simp [readCells, this]

/-- Memory stays canonical under a write (log 3). -/
theorem memory_put_wf (m : Memory) (a : Nat) (v : Byte) (h : m.wf = true) (ha : a < 2 ^ 64) :
    (m.put a v).wf = true :=
  wfCells_putCells m.cells 0 a v h (Nat.zero_le a) ha

/-- Memory reads what was written. -/
theorem memory_read_put_same (m : Memory) (a : Nat) (v : Byte) (h : m.wf = true) :
    (m.put a v).read a = v :=
  readCells_putCells_same m.cells 0 a v h

/-- A write leaves every other byte of memory. -/
theorem memory_read_put_other (m : Memory) (a b : Nat) (v : Byte) (h : b ≠ a) :
    (m.put a v).read b = m.read b :=
  readCells_putCells_other m.cells a b v h

/-- Memory stays canonical under a write of several bytes. -/
theorem memory_putBytes_wf : ∀ (bs : List Byte) (m : Memory) (a : Nat), m.wf = true →
    (m.putBytes a bs).wf = true
  | [], _, _, h => h
  | b :: rest, m, a, h =>
    memory_putBytes_wf rest _ _ (memory_put_wf m _ b h (Nat.mod_lt _ (by decide)))

/-- Memory after reset is canonical (log 3). -/
theorem reset_memory_wf : State.reset.mem.wf = true := rfl

end Sys2Proof.Machine
end

