-- ==== Sys2Proof/Laws/PerInstr.lean ====
section
/-! SUPPORT. The family EncodeLength: the encoder writes as many bytes as `30_encoding.md` R84 counts. One lemma
per constructor of `Instr`. -/

namespace Sys2Proof.Laws

-- One theorem at a time, to keep the number of waiting threads down.
set_option Elab.async false

/-- The encoding of an instruction is as long as R84 says. -/
def EncodeLength.Statement (i : Instr) : Prop := (encode i).length = instrLen i

/-- The optional prefix bytes. -/
theorem length_encodePfx (p : Pfx) : (encodePfx p).length = pfxLen p := by
  rcases p with ⟨_ | s, _ | _⟩ <;> simp [encodePfx, pfxLen]

/-- The displacement bytes. -/
theorem length_encodeDisp (d : Disp) : (encodeDisp d).length = dispLen d := by
  cases d <;> rfl

/-- ModRM and what follows it. -/
theorem length_encodeRM (g : BitVec 3) (r : RM) : (encodeRM g r).length = rmLen r := by
  rcases r with r | (d | ⟨b, d⟩ | ⟨b, i, sc, d⟩ | ⟨i, sc, d⟩) <;>
    simp [encodeRM, rmLen, memLen, length_encodeDisp, encodeDisp32] <;> omega

/-- The VEX forms. -/
theorem length_encodeVex (l : Bool) (p : Pfx) (d a : VReg) (r : RM) :
    (encodeVex l p d a r).length = vexLen p r := by
  simp [encodeVex, vexLen, length_encodePfx, length_encodeRM]; omega

/-- The EVEX forms. -/
theorem length_encodeEvex (w : Bool) (ll : BitVec 2) (p : Pfx) (c : EvexCtl) (d a : VReg) (r : RM) :
    (encodeEvex w ll p c d a r).length = evexLen p r := by
  simp [encodeEvex, evexLen, length_encodePfx, length_encodeRM]; omega

theorem EncodeLength.pmulld (p : Pfx) (rex : Bool) (d : VReg) (r : RM) :
    EncodeLength.Statement (.pmulld p rex d r) := by
  cases rex <;>
    simp [Statement, encode, encodeLegacy, instrLen, legacyLen, length_encodePfx, length_encodeRM] <;> omega

theorem EncodeLength.vpmulldVex128 (p : Pfx) (d a : VReg) (r : RM) :
    EncodeLength.Statement (.vpmulldVex128 p d a r) := length_encodeVex _ p d a r

theorem EncodeLength.vpmulldVex256 (p : Pfx) (d a : VReg) (r : RM) :
    EncodeLength.Statement (.vpmulldVex256 p d a r) := length_encodeVex _ p d a r

theorem EncodeLength.vpmulldEvex128 (p : Pfx) (c : EvexCtl) (d a : VReg) (r : RM) :
    EncodeLength.Statement (.vpmulldEvex128 p c d a r) := length_encodeEvex _ _ p c d a r

theorem EncodeLength.vpmulldEvex256 (p : Pfx) (c : EvexCtl) (d a : VReg) (r : RM) :
    EncodeLength.Statement (.vpmulldEvex256 p c d a r) := length_encodeEvex _ _ p c d a r

theorem EncodeLength.vpmulldEvex512 (p : Pfx) (c : EvexCtl) (d a : VReg) (r : RM) :
    EncodeLength.Statement (.vpmulldEvex512 p c d a r) := length_encodeEvex _ _ p c d a r

theorem EncodeLength.vpmullqEvex128 (p : Pfx) (c : EvexCtl) (d a : VReg) (r : RM) :
    EncodeLength.Statement (.vpmullqEvex128 p c d a r) := length_encodeEvex _ _ p c d a r

theorem EncodeLength.vpmullqEvex256 (p : Pfx) (c : EvexCtl) (d a : VReg) (r : RM) :
    EncodeLength.Statement (.vpmullqEvex256 p c d a r) := length_encodeEvex _ _ p c d a r

theorem EncodeLength.vpmullqEvex512 (p : Pfx) (c : EvexCtl) (d a : VReg) (r : RM) :
    EncodeLength.Statement (.vpmullqEvex512 p c d a r) := length_encodeEvex _ _ p c d a r

end Sys2Proof.Laws
end

