-- ==== Sys2Proof/Laws/State.lean ====
section
/-! SUPPORT. One lemma per field per update of the state, and the two views of a vector register write, so that
no proof unfolds a record update. -/

namespace Sys2Proof.Machine

-- One theorem at a time, to keep the number of waiting threads down.
set_option Elab.async false

variable (s : State) (n : VReg) (v : Vec) (t : W64)

@[simp] theorem writeZmm_k : (s.writeZmm n v).k = s.k := rfl
@[simp] theorem writeZmm_gpr : (s.writeZmm n v).gpr = s.gpr := rfl
@[simp] theorem writeZmm_rip : (s.writeZmm n v).rip = s.rip := rfl
@[simp] theorem writeZmm_rflags : (s.writeZmm n v).rflags = s.rflags := rfl
@[simp] theorem writeZmm_mxcsr : (s.writeZmm n v).mxcsr = s.mxcsr := rfl
@[simp] theorem writeZmm_st : (s.writeZmm n v).st = s.st := rfl
@[simp] theorem writeZmm_fcw : (s.writeZmm n v).fcw = s.fcw := rfl
@[simp] theorem writeZmm_fsw : (s.writeZmm n v).fsw = s.fsw := rfl
@[simp] theorem writeZmm_ftw : (s.writeZmm n v).ftw = s.ftw := rfl
@[simp] theorem writeZmm_cr0 : (s.writeZmm n v).cr0 = s.cr0 := rfl
@[simp] theorem writeZmm_cr2 : (s.writeZmm n v).cr2 = s.cr2 := rfl
@[simp] theorem writeZmm_cr4 : (s.writeZmm n v).cr4 = s.cr4 := rfl
@[simp] theorem writeZmm_xcr0 : (s.writeZmm n v).xcr0 = s.xcr0 := rfl
@[simp] theorem writeZmm_efer : (s.writeZmm n v).efer = s.efer := rfl
@[simp] theorem writeZmm_dr0 : (s.writeZmm n v).dr0 = s.dr0 := rfl
@[simp] theorem writeZmm_dr1 : (s.writeZmm n v).dr1 = s.dr1 := rfl
@[simp] theorem writeZmm_dr2 : (s.writeZmm n v).dr2 = s.dr2 := rfl
@[simp] theorem writeZmm_dr3 : (s.writeZmm n v).dr3 = s.dr3 := rfl
@[simp] theorem writeZmm_dr7 : (s.writeZmm n v).dr7 = s.dr7 := rfl
@[simp] theorem writeZmm_cpl : (s.writeZmm n v).cpl = s.cpl := rfl
@[simp] theorem writeZmm_cs : (s.writeZmm n v).cs = s.cs := rfl
@[simp] theorem writeZmm_ss : (s.writeZmm n v).ss = s.ss := rfl
@[simp] theorem writeZmm_ds : (s.writeZmm n v).ds = s.ds := rfl
@[simp] theorem writeZmm_es : (s.writeZmm n v).es = s.es := rfl
@[simp] theorem writeZmm_fs : (s.writeZmm n v).fs = s.fs := rfl
@[simp] theorem writeZmm_gs : (s.writeZmm n v).gs = s.gs := rfl
@[simp] theorem writeZmm_mem : (s.writeZmm n v).mem = s.mem := rfl
@[simp] theorem writeZmm_regions : (s.writeZmm n v).regions = s.regions := rfl
@[simp] theorem writeZmm_code : (s.writeZmm n v).code = s.code := rfl
@[simp] theorem writeZmm_cfg : (s.writeZmm n v).cfg = s.cfg := rfl
@[simp] theorem writeZmm_freeCount : (s.writeZmm n v).freeCount = s.freeCount := rfl

@[simp] theorem setRip_zmm : (s.setRip t).zmm = s.zmm := rfl
@[simp] theorem setRip_k : (s.setRip t).k = s.k := rfl
@[simp] theorem setRip_gpr : (s.setRip t).gpr = s.gpr := rfl
@[simp] theorem setRip_rip : (s.setRip t).rip = t := rfl
@[simp] theorem setRip_rflags : (s.setRip t).rflags = s.rflags := rfl
@[simp] theorem setRip_mxcsr : (s.setRip t).mxcsr = s.mxcsr := rfl
@[simp] theorem setRip_st : (s.setRip t).st = s.st := rfl
@[simp] theorem setRip_fcw : (s.setRip t).fcw = s.fcw := rfl
@[simp] theorem setRip_fsw : (s.setRip t).fsw = s.fsw := rfl
@[simp] theorem setRip_ftw : (s.setRip t).ftw = s.ftw := rfl
@[simp] theorem setRip_cr0 : (s.setRip t).cr0 = s.cr0 := rfl
@[simp] theorem setRip_cr2 : (s.setRip t).cr2 = s.cr2 := rfl
@[simp] theorem setRip_cr4 : (s.setRip t).cr4 = s.cr4 := rfl
@[simp] theorem setRip_xcr0 : (s.setRip t).xcr0 = s.xcr0 := rfl
@[simp] theorem setRip_efer : (s.setRip t).efer = s.efer := rfl
@[simp] theorem setRip_dr0 : (s.setRip t).dr0 = s.dr0 := rfl
@[simp] theorem setRip_dr1 : (s.setRip t).dr1 = s.dr1 := rfl
@[simp] theorem setRip_dr2 : (s.setRip t).dr2 = s.dr2 := rfl
@[simp] theorem setRip_dr3 : (s.setRip t).dr3 = s.dr3 := rfl
@[simp] theorem setRip_dr7 : (s.setRip t).dr7 = s.dr7 := rfl
@[simp] theorem setRip_cpl : (s.setRip t).cpl = s.cpl := rfl
@[simp] theorem setRip_cs : (s.setRip t).cs = s.cs := rfl
@[simp] theorem setRip_ss : (s.setRip t).ss = s.ss := rfl
@[simp] theorem setRip_ds : (s.setRip t).ds = s.ds := rfl
@[simp] theorem setRip_es : (s.setRip t).es = s.es := rfl
@[simp] theorem setRip_fs : (s.setRip t).fs = s.fs := rfl
@[simp] theorem setRip_gs : (s.setRip t).gs = s.gs := rfl
@[simp] theorem setRip_mem : (s.setRip t).mem = s.mem := rfl
@[simp] theorem setRip_regions : (s.setRip t).regions = s.regions := rfl
@[simp] theorem setRip_code : (s.setRip t).code = s.code := rfl
@[simp] theorem setRip_cfg : (s.setRip t).cfg = s.cfg := rfl
@[simp] theorem setRip_freeCount : (s.setRip t).freeCount = s.freeCount := rfl

/-- A vector register reads as it was written. -/
@[simp] theorem readZmm_writeZmm_same : (s.writeZmm n v).readZmm n = v := by
  simp [State.writeZmm, State.readZmm]

/-- A write of one vector register leaves the others. -/
theorem readZmm_writeZmm_other {r : VReg} (h : r ≠ n) : (s.writeZmm n v).readZmm r = s.readZmm r := by
  have h' : n.val ≠ r.val := fun e => h (Fin.ext e.symm)
  simp [State.writeZmm, State.readZmm, h']

/-- RIP is no part of a vector register. -/
@[simp] theorem readZmm_setRip (r : VReg) : (s.setRip t).readZmm r = s.readZmm r := rfl

/-- Neither update changes the operating mode. -/
@[simp] theorem cpuMode_writeZmm : (s.writeZmm n v).cpuMode = s.cpuMode := rfl
@[simp] theorem cpuMode_setRip : (s.setRip t).cpuMode = s.cpuMode := rfl

/-- A write and an advance of RIP change one vector register and RIP. -/
theorem onlyDest_write : OnlyDest s ((s.writeZmm n v).setRip t) n :=
  ⟨rfl, fun _ h => readZmm_writeZmm_other s n v h⟩

end Sys2Proof.Machine
end

