-- ==== Sys2Proof/Laws/Run.lean ====
section
/-! SUPPORT. What one execution can do, said once: it completes exactly when nothing stops it, and then its next
state is `complete`; every instruction is one `run`. -/

namespace Sys2Proof.Machine

-- One theorem at a time, to keep the number of waiting threads down.
set_option Elab.async false

/-- A condition that does not hold stops nothing. -/
@[simp] theorem stopIf_false (x : Stop) : stopIf false x = [] := rfl

/-- A condition that holds is one stop. -/
@[simp] theorem stopIf_true (x : Stop) : stopIf true x = [x] := rfl

/-- No stop exactly when the condition fails. -/
theorem stopIf_eq_nil (c : Bool) (x : Stop) : stopIf c x = [] ↔ c = false := by
  cases c <;> simp

/-- Every instruction is one `run` of its form and operands. -/
theorem exec_eq_run (i : Instr) (s : State) : exec i s = run (formOf i) (operandsOf i) s := by
  cases i <;> rfl

/-- Nothing is chosen exactly when nothing stops the execution. -/
theorem chooseStop_eq_none (order : FaultOrder) (n : Nat) (l : List Stop) :
    chooseStop order n l = none ↔ l = [] := by
  cases order with
  | fixed => simp [chooseStop]
  | any =>
    simp only [chooseStop]
    split
    · rename_i r h
      have := List.mem_of_find?_eq_some h
      simp only [reduceCtorEq, false_iff]
      rintro rfl
      simp at this
    · rw [List.getElem?_eq_none_iff]
      refine ⟨fun h => ?_, fun h => by simp [h]⟩
      by_contra hl
      have := Nat.mod_lt (Config.freePick n) (List.length_pos_iff.mpr hl)
      omega

/-- What is chosen is one of the applicable stops. -/
theorem chooseStop_mem (order : FaultOrder) (n : Nat) (l : List Stop) (x : Stop)
    (h : chooseStop order n l = some x) : x ∈ l := by
  cases order with
  | fixed => exact List.mem_of_mem_head? h
  | any =>
    simp only [chooseStop] at h
    split at h
    · rename_i r hf
      cases h
      exact List.mem_of_find?_eq_some hf
    · exact List.mem_of_getElem? h

/-- Under the fixed order the first stop is chosen (`60_exceptions.md` R163). -/
theorem chooseStop_fixed (n : Nat) (l : List Stop) : chooseStop .fixed n l = l.head? := rfl

/-- A refusal that stands first is chosen under either order (`20_memory.md` R48). -/
theorem chooseStop_refuse_first (order : FaultOrder) (n : Nat) (r : Refusal) (l : List Stop) :
    chooseStop order n (.refuse r :: l) = some (.refuse r) := by
  cases order with
  | fixed => rfl
  | any => simp only [chooseStop]; rw [List.find?_cons_of_pos (by rfl)]

/-- Under FAULT_ORDER = any a fault is chosen only where no refusal applies (`20_memory.md` R48, R53; log 6). -/
theorem chooseStop_any_fault (n : Nat) (l : List Stop) (x : Fault) (h : chooseStop .any n l = some (.fault x)) :
    ∀ r, Stop.refuse r ∉ l := by
  intro r hr
  simp only [chooseStop] at h
  split at h
  · rename_i y hf
    cases h
    exact absurd (List.find?_some hf) (by simp [Stop.isRefusal])
  · rename_i hf
    exact absurd (List.find?_eq_none.mp hf _ hr) (by simp [Stop.isRefusal])

/-- An execution that nothing stops, in an admitted mode, completes. -/
theorem run_of_no_stops (f : Form) (o : Operands) (s : State) (m : Mode) (hm : s.cpuMode = .admitted m)
    (h : stops f o s = []) : run f o s = .next (complete m f o s) := by
  simp [run, h, (chooseStop_eq_none _ _ _).mpr, hm]

/-- A stop that is chosen is the outcome. -/
theorem run_of_stop (f : Form) (o : Operands) (s : State) (x : Stop)
    (h : chooseStop s.cfg.faultOrder s.freeCount (stops f o s) = some x) : run f o s = x.outcome := by
  simp [run, h]

/-- No stop answers a next state. -/
theorem stop_outcome_ne_next (x : Stop) (t : State) : x.outcome ≠ .next t := by
  cases x <;> simp [Stop.outcome, raise]

/-- An execution that answers a next state was stopped by nothing, in an admitted mode, and the next state is
`complete`. -/
theorem run_eq_next (f : Form) (o : Operands) (s t : State) (h : run f o s = .next t) :
    ∃ m, s.cpuMode = .admitted m ∧ stops f o s = [] ∧ t = complete m f o s := by
  unfold run at h
  split at h
  · exact absurd h (stop_outcome_ne_next _ _)
  · rename_i hc
    have hs := (chooseStop_eq_none _ _ _).mp hc
    split at h
    · rename_i m hm
      exact ⟨m, hm, hs, by simpa using h.symm⟩
    · simp at h

/-- The fields of the completed state. -/
@[simp] theorem complete_rip (m : Mode) (f : Form) (o : Operands) (s : State) :
    (complete m f o s).rip = nextRip m s o.len := rfl
@[simp] theorem complete_mem (m : Mode) (f : Form) (o : Operands) (s : State) :
    (complete m f o s).mem = s.mem := rfl
@[simp] theorem complete_cfg (m : Mode) (f : Form) (o : Operands) (s : State) :
    (complete m f o s).cfg = s.cfg := rfl
@[simp] theorem complete_cpuMode (m : Mode) (f : Form) (o : Operands) (s : State) :
    (complete m f o s).cpuMode = s.cpuMode := rfl

/-- The destination of the completed state. -/
@[simp] theorem complete_readZmm_dst (m : Mode) (f : Form) (o : Operands) (s : State) :
    (complete m f o s).readZmm o.dst = newDest m f o s := by
  simp [complete]

/-- The completed state changed its destination register and RIP (`10_state.md` R32). -/
theorem complete_onlyDest (m : Mode) (f : Form) (o : Operands) (s : State) :
    OnlyDest s (complete m f o s) o.dst := onlyDest_write s o.dst _ _

/-- A step that answers a next state is the execution of the instruction decoded at RIP. -/
theorem step_eq_next (s t : State) (h : step s = .next t) :
    ∃ m i rest, s.cpuMode = .admitted m ∧ codeEnd s = none ∧ decode m (fetchBytes m s) = .ok i rest ∧
      exec i s = .next t := by
  unfold step at h
  split at h
  · simp at h
  · rename_i m hm
    split at h
    · simp at h
    · rename_i hc
      split at h
      · rename_i i rest hd
        exact ⟨m, i, rest, hm, hc, hd, h⟩
      · simp [raise] at h
      · simp at h

/-- In an admitted mode nothing stops an execution exactly when it is available, its controls are no reserved
combination and its operand stops nothing. -/
theorem stops_eq_nil_iff (f : Form) (o : Operands) (s : State) (m : Mode) (hm : s.cpuMode = .admitted m) :
    stops f o s = [] ↔ udCondition f o s = false ∧ s.ts = false ∧ operandStops m f o s = [] := by
  simp only [stops, udStops, nmStops, hm, List.append_eq_nil_iff, stopIf_eq_nil]
  cases h1 : udCondition f o s <;> cases h2 : s.ts <;> simp

/-- The #UD condition fails exactly for an available form with no reserved controls. -/
theorem udCondition_eq_false (f : Form) (o : Operands) (s : State) :
    udCondition f o s = false ↔
      featOk f s.cfg.feat = true ∧ classEnabled f.cls s = true ∧ wfCtl o.ctl o.rm = true := by
  simp [udCondition, and_assoc]

/-- The lowest address is one of the addresses, and none is lower. -/
theorem lowestAddress_eq_some (l : List W64) (a : W64) (h : lowestAddress l = some a) :
    a ∈ l ∧ ∀ b ∈ l, a.toNat ≤ b.toNat := by
  induction l generalizing a with
  | nil => simp [lowestAddress] at h
  | cons x rest ih =>
    simp only [lowestAddress] at h
    split at h
    · rename_i hn
      have : rest = [] := by
        cases rest with
        | nil => rfl
        | cons y r => simp only [lowestAddress] at hn; split at hn <;> cases hn
      cases h
      simp [this]
    · rename_i b hb
      obtain ⟨h1, h2⟩ := ih b hb
      simp only [Option.some.injEq] at h
      split at h <;> subst h
      · exact ⟨List.mem_cons_self, fun c hc => by
          rcases List.mem_cons.mp hc with rfl | hc
          · exact Nat.le_refl _
          · exact Nat.le_trans ‹_› (h2 c hc)⟩
      · exact ⟨List.mem_cons_of_mem _ h1, fun c hc => by
          rcases List.mem_cons.mp hc with rfl | hc
          · omega
          · exact h2 c hc⟩

/-- There is a lowest address unless there is no address. -/
theorem lowestAddress_eq_none (l : List W64) : lowestAddress l = none ↔ l = [] := by
  cases l with
  | nil => simp [lowestAddress]
  | cons x rest => simp only [lowestAddress]; split <;> simp

/-- An address fails exactly when it is that of a live byte whose translation fails. -/
theorem mem_failingAddresses (m : Mode) (s : State) (a : Access) (live : Nat → Bool) (la : W64) :
    la ∈ failingAddresses m s a live ↔ ∃ k, k < a.size ∧ live k = true ∧ byteAddress m s a.seg a.ea k = la ∧
      (pageFaultAt s la).isSome = true := by
  simp only [failingAddresses, Access.bytes, List.mem_map, List.mem_filter, List.mem_range, Bool.and_eq_true]
  constructor
  · rintro ⟨k, ⟨hk, hl, hf⟩, rfl⟩
    exact ⟨k, hk, hl, rfl, hf⟩
  · rintro ⟨k, hk, hl, rfl, hf⟩
    exact ⟨k, ⟨hk, hl, hf⟩, rfl⟩

/-- The page fault reported is that of a live byte, and no live byte at a lower address faults (`20_memory.md` R47). -/
theorem lowestPageFault_eq_some (m : Mode) (s : State) (a : Access) (live : Nat → Bool) (x : Fault)
    (h : lowestPageFault m s a live = some x) :
    ∃ k, k < a.size ∧ live k = true ∧ pageFaultAt s (byteAddress m s a.seg a.ea k) = some x ∧
      ∀ n, n < a.size → live n = true →
        (byteAddress m s a.seg a.ea n).toNat < (byteAddress m s a.seg a.ea k).toNat →
        pageFaultAt s (byteAddress m s a.seg a.ea n) = none := by
  obtain ⟨la, hla, hx⟩ := Option.bind_eq_some_iff.mp h
  obtain ⟨hmem, hlow⟩ := lowestAddress_eq_some _ _ hla
  obtain ⟨k, hk, hl, rfl, _⟩ := (mem_failingAddresses ..).mp hmem
  refine ⟨k, hk, hl, hx, fun n hn hln hlt => ?_⟩
  by_contra hne
  have := hlow _ ((mem_failingAddresses ..).mpr ⟨n, hn, hln, rfl, Option.isSome_iff_ne_none.mpr hne⟩)
  omega

/-- No page fault is reported exactly when no live byte faults. -/
theorem lowestPageFault_eq_none (m : Mode) (s : State) (a : Access) (live : Nat → Bool) :
    lowestPageFault m s a live = none ↔
      ∀ k, k < a.size → live k = true → pageFaultAt s (byteAddress m s a.seg a.ea k) = none := by
  constructor
  · intro h k hk hl
    by_contra hne
    obtain ⟨la, hla⟩ := Option.ne_none_iff_exists'.mp fun h0 : lowestAddress (failingAddresses m s a live) = none => by
      have := (mem_failingAddresses ..).mpr ⟨k, hk, hl, rfl, Option.isSome_iff_ne_none.mpr hne⟩
      rw [(lowestAddress_eq_none _).mp h0] at this
      cases this
    obtain ⟨_, _, _, _, hf⟩ := (mem_failingAddresses ..).mp (lowestAddress_eq_some _ _ hla).1
    rw [lowestPageFault, hla] at h
    simp only [Option.bind_some] at h
    simp [h] at hf
  · intro h
    rw [Option.eq_none_iff_forall_ne_some]
    intro x hx
    obtain ⟨k, hk, hl, hf, _⟩ := lowestPageFault_eq_some _ _ _ _ _ hx
    rw [h k hk hl] at hf
    cases hf

/-- An accessible byte violates nothing. -/
theorem byteInaccessible_eq_false (m : Mode) (s : State) (a : Access) (k : Nat) :
    byteInaccessible m s a k = false ↔
      segmentDenied m s a = false ∧ outsideLimit m s a k = false ∧
        pageFaultAt s (byteAddress m s a.seg a.ea k) = none ∧
        (s.kindAt (byteAddress m s a.seg a.ea k) == .device) = false ∧
        (s.kindAt (byteAddress m s a.seg a.ea k) == .pageTable) = false := by
  simp only [byteInaccessible, Bool.or_eq_false_iff, Option.isSome_eq_false_iff, Option.isNone_iff_eq_none, and_assoc]

/-- Two tests that agree on the bytes of an access agree on whether some byte passes. -/
theorem any_bytes_congr (a : Access) (p q : Nat → Bool) (h : ∀ k, k < a.size → p k = q k) :
    a.bytes.any p = a.bytes.any q := by
  rw [Bool.eq_iff_iff]
  simp only [Access.bytes, List.any_eq_true, List.mem_range]
  constructor <;> rintro ⟨k, hk, e⟩ <;> exact ⟨k, hk, by simpa [h k hk] using e⟩

/-- The page fault reported is a matter of the live bytes of the access only. -/
theorem lowestPageFault_congr (m : Mode) (s : State) (a : Access) (live live' : Nat → Bool)
    (h : ∀ k, k < a.size → live k = live' k) : lowestPageFault m s a live = lowestPageFault m s a live' := by
  have : failingAddresses m s a live = failingAddresses m s a live' := by
    unfold failingAddresses
    congr 1
    exact List.filter_congr fun k hk => by rw [h k (List.mem_range.mp hk)]
  rw [lowestPageFault, this, lowestPageFault]

/-- The stops of an access are a matter of which of its own bytes are live. -/
theorem accessStops_congr (m : Mode) (f : Form) (c : EvexCtl) (s : State) (a : Access) (live live' : Nat → Bool)
    (h : ∀ k, k < a.size → live k = live' k) : accessStops m f c s a live = accessStops m f c s a live' := by
  unfold accessStops
  rw [any_bytes_congr a live live' h, lowestPageFault_congr m s a live live' h,
    any_bytes_congr a (fun k => !live k && byteInaccessible m s a k) (fun k => !live' k && byteInaccessible m s a k)
      fun k hk => by rw [h k hk],
    any_bytes_congr a (fun k => live k && outsideLimit m s a k) (fun k => live' k && outsideLimit m s a k)
      fun k hk => by rw [h k hk],
    any_bytes_congr a (fun k => live k && s.kindAt (byteAddress m s a.seg a.ea k) == .device)
      (fun k => live' k && s.kindAt (byteAddress m s a.seg a.ea k) == .device) fun k hk => by rw [h k hk],
    any_bytes_congr a (fun k => live k && s.kindAt (byteAddress m s a.seg a.ea k) == .pageTable)
      (fun k => live' k && s.kindAt (byteAddress m s a.seg a.ea k) == .pageTable) fun k hk => by rw [h k hk]]

/-- What a memory operand needs to stop nothing (`20_memory.md` R47, R48, R53). -/
theorem memoryStops_eq_nil (m : Mode) (f : Form) (c : EvexCtl) (s : State) (a : Access)
    (hread : LiveReadable m f c s a) (hleg : f.cls = .legacy → LegacyAligned m s a)
    (hb : c.b = true → (∃ k, k < a.size ∧ byteLive f c s k = true) → BroadcastAligned m s a) :
    memoryStops m f c s a = [] := by
  obtain ⟨hcan, hlive, hsupp⟩ := hread
  have ok := fun k hk hl => (byteInaccessible_eq_false m s a k).mp (hlive k hk hl)
  have noPf := (lowestPageFault_eq_none m s a (byteLive f c s)).mpr fun k hk hl => (ok k hk hl).2.2.1
  simp only [memoryStops, accessStops, noPf, List.append_nil, List.append_eq_nil_iff, stopIf_eq_nil, hcan,
    Access.bytes]
  refine ⟨⟨⟨⟨⟨⟨⟨⟨?_, ?_⟩, trivial⟩, ?_⟩, ?_⟩, ?_⟩, ?_⟩, ?_⟩, ?_⟩
  · by_cases h : f.cls = .legacy
    · simp [(hleg h).1]
    · simp [h]
  · by_cases h : f.cls = .legacy
    · simp [misaligned, (hleg h).2]
    · simp [h]
  · rcases hsupp with h | h
    · simp [h]
    · simp only [Bool.and_eq_false_iff, List.any_eq_false, List.mem_range]
      exact .inr fun k hk => by simp [h k hk]
  · by_cases h : segmentDenied m s a = true
    · simp only [h, Bool.and_true, List.any_eq_false, List.mem_range]
      intro k hk hl
      simp [(ok k hk hl).1] at h
    · simp [h]
  · simp only [List.any_eq_false, List.mem_range]
    intro k hk
    by_cases hl : byteLive f c s k = true
    · simp [(ok k hk hl).2.1]
    · simp [hl]
  · by_cases h : c.b = true
    · by_cases hl : ∃ k, k < a.size ∧ byteLive f c s k = true
      · rcases hb h hl with h1 | h1 | h1
        · simp [h1]
        · simp [h1]
        · simp [misaligned, h1]
      · have : (List.range a.size).any (byteLive f c s) = false := by
          simp only [List.any_eq_false, List.mem_range]
          exact fun k hk hk' => hl ⟨k, hk, hk'⟩
        simp [this]
    · simp [h]
  · simp only [List.any_eq_false, List.mem_range]
    intro k hk
    by_cases hl : byteLive f c s k = true
    · simpa [hl] using (ok k hk hl).2.2.2.1
    · simp [hl]
  · simp only [List.any_eq_false, List.mem_range]
    intro k hk
    by_cases hl : byteLive f c s k = true
    · simpa [hl] using (ok k hk hl).2.2.2.2
    · simp [hl]

/-! ### The named premises -/

/-- A launch state that stands for itself has no pending fault. -/
@[simp] theorem noPendingFault_next (s : State) : NoPendingFault (.next s) := rfl

/-- Byte `k` of an operand is one byte at its own effective address. -/
theorem byteAddress_add (m : Mode) (s : State) (g : Seg) (ea : W64) (k : Nat) :
    byteAddress m s g (ea + BitVec.ofNat 64 k) 0 = byteAddress m s g ea k := by
  simp [byteAddress]

/-- Under `FlatReadable` an operand whose bytes lie in S can be read, if in Mode32 its offsets do not pass 2^32
(`70_reset_and_hazards.md` R186). -/
theorem accessReadable_of_flat (m : Mode) (s : State) (a : Access) (S : Nat → Prop) (h : FlatReadable m s S)
    (hoff : m = .mode32 → a.ea.toNat + a.size ≤ 2 ^ 32)
    (hS : ∀ k, k < a.size → S (byteAddress m s a.seg a.ea k).toNat) : AccessReadable m s a := by
  have hadd : m = .mode32 → ∀ k, k < a.size → (a.ea + BitVec.ofNat 64 k).toNat = a.ea.toNat + k := by
    intro hm k hk
    have := hoff hm
    rw [BitVec.toNat_add, BitVec.toNat_ofNat]
    omega
  have one := fun k hk => (h a.seg (a.ea + BitVec.ofNat 64 k)
    (fun hm => by have := hoff hm; have := hadd hm k hk; omega)).mpr (hS k hk)
  constructor
  · simp only [nonCanonical, Access.bytes, Bool.and_eq_false_iff, List.any_eq_false, List.mem_range]
    by_cases hm : m = .mode64
    · right
      intro k hk
      have := (one k hk).1
      simpa [nonCanonical, Access.bytes, hm, byteAddress_add] using this
    · exact .inl (by simp [hm])
  · intro k hk
    have := (byteInaccessible_eq_false ..).mp (one k hk).2
    rw [byteAddress_add] at this
    refine (byteInaccessible_eq_false ..).mpr ⟨this.1, ?_, this.2.2⟩
    cases m with
    | mode64 => rfl
    | mode32 => simpa [outsideLimit, hadd rfl k hk] using this.2.1

end Sys2Proof.Machine
end

