-- ==== Sys2Proof/Tests/Slice0.lean ====
section
/-! SUPPORT. Tests. Expected values come from `spec/95_test_vectors.md`, or by hand from the rule a comment names.
After them, one witness for the hypotheses of each statement that has some. -/

namespace Sys2Proof.Tests

-- One theorem at a time: a thread for each waiting kernel evaluation would add up to gigabytes of stack.
set_option Elab.async false

open Sys2Proof.Machine Sys2Proof.Claims

/-! ### Builders -/

/-- No optional prefix. -/
def np : Pfx := ⟨none, false⟩

/-- A vector from its lanes of width `w`, lane 0 first. -/
def pack (w : Nat) (l : List Nat) : Vec := l.foldr (fun x v => (v <<< w) ||| BitVec.ofNat 512 (x % 2 ^ w)) 0#512

/-- A launched Mode64 state. -/
def base : State := State.reset.launch

/-- A Mode32 state with flat segments. -/
def base32 : State :=
  { base with
    cs := { base.cs with l := false, d := true, base := 0#64, limit := 0xFFFFFFFF#32 }
    ds := { base.ds with limit := 0xFFFFFFFF#32 }
    ss := { base.ss with limit := 0xFFFFFFFF#32 } }

/-- A general register set. -/
def withGpr (s : State) (n : GReg) (v : Nat) : State := { s with gpr := s.gpr.set n.val (BitVec.ofNat 64 v) }

/-- An opmask register set. -/
def withK (s : State) (n : KReg) (v : Nat) : State := { s with k := s.k.set n.val (BitVec.ofNat 64 v) }

/-- Dwords stored from an address up. -/
def withDwords (s : State) (a : Nat) (l : List Nat) : State :=
  { s with mem := s.mem.putBytes a (l.flatMap fun x => encodeDisp32 (BitVec.ofNat 32 x)) }

/-- The memory operand `[rax]`. -/
def atRax : RM := .mem (.base 0 .none)

/-- The destination after an execution that completes. -/
def dest (i : Instr) (s : State) : Option Vec := (nextOf (exec i s)).map fun t => t.readZmm (operandsOf i).dst

/-- The instruction a byte string decodes to, if all of it is one. -/
def decodesTo (m : Mode) (bs : List Nat) : Option Instr :=
  match decode m (bs.map (BitVec.ofNat 8)) with
  | .ok i [] => some i
  | _ => none

/-! ### Well-formedness: one ill-formed term for each check -/

theorem test_wf_ok : (Instr.pmulld np true 9 (.reg 10)).wellFormed .mode64 = true := by decide
theorem test_wf_legacy_dest : (Instr.pmulld np true 16 (.reg 1)).wellFormed .mode64 = false := by decide
theorem test_wf_legacy_rm : (Instr.pmulld np true 1 (.reg 16)).wellFormed .mode64 = false := by decide
theorem test_wf_rex_mode32 : (Instr.pmulld np true 1 (.reg 2)).wellFormed .mode32 = false := by decide
theorem test_wf_rex_missing_dest : (Instr.pmulld np false 8 (.reg 2)).wellFormed .mode64 = false := by decide
theorem test_wf_rex_missing_rm : (Instr.pmulld np false 0 (.reg 8)).wellFormed .mode64 = false := by decide
theorem test_wf_rex_missing_base :
    (Instr.pmulld np false 0 (.mem (.base 9 .none))).wellFormed .mode64 = false := by decide
theorem test_wf_rex_missing_index :
    (Instr.pmulld np false 0 (.mem (.sibNoBase (some 8) 0#2 0#32))).wellFormed .mode64 = false := by decide
theorem test_wf_addr32 : (Instr.pmulld ⟨none, true⟩ false 0 (.reg 1)).wellFormed .mode32 = false := by decide
theorem test_wf_vex_dest : (Instr.vpmulldVex128 np 16 0 (.reg 0)).wellFormed .mode64 = false := by decide
theorem test_wf_vex_src : (Instr.vpmulldVex256 np 0 8 (.reg 0)).wellFormed .mode32 = false := by decide
theorem test_wf_evex_dest : (Instr.vpmulldEvex512 np ⟨0, false, false⟩ 8 0 (.reg 0)).wellFormed .mode32 = false := by
  decide
theorem test_wf_evex_src : (Instr.vpmullqEvex512 np ⟨0, false, false⟩ 0 8 (.reg 0)).wellFormed .mode32 = false := by
  decide
theorem test_wf_zeroing : (Instr.vpmulldEvex128 np ⟨0, true, false⟩ 0 0 (.reg 0)).wellFormed .mode64 = false := by
  decide
theorem test_wf_b_register : (Instr.vpmullqEvex256 np ⟨1, false, true⟩ 0 0 (.reg 0)).wellFormed .mode64 = false := by
  decide
theorem test_wf_base_rsp : (Instr.vpmulldVex128 np 0 0 (.mem (.base 12 .none))).wellFormed .mode64 = false := by decide
theorem test_wf_base_rbp : (Instr.vpmulldVex128 np 0 0 (.mem (.base 13 .none))).wellFormed .mode64 = false := by decide
theorem test_wf_index_rsp :
    (Instr.vpmulldVex128 np 0 0 (.mem (.sib 0 (some 4) 0#2 .none))).wellFormed .mode64 = false := by decide
theorem test_wf_sib_base_rbp :
    (Instr.vpmulldVex128 np 0 0 (.mem (.sib 5 none 0#2 .none))).wellFormed .mode64 = false := by decide

/-! ### Decoding: words written out in `95_test_vectors.md` sections 2.1 to 2.3 -/

theorem test_decode_pmulld :
    decodesTo .mode64 [0x66, 0x45, 0x0F, 0x38, 0x40, 0xCA] = some (.pmulld np true 9 (.reg 10)) := by decide
theorem test_decode_pmulld_sib :
    decodesTo .mode64 [0x66, 0x45, 0x0F, 0x38, 0x40, 0x84, 0x89, 0x00, 0x01, 0x00, 0x00] =
      some (.pmulld np true 8 (.mem (.sib 9 (some 1) 2#2 (.d32 0x100#32)))) := by decide
theorem test_decode_vex128 :
    decodesTo .mode64 [0xC4, 0x42, 0x29, 0x40, 0xCB] = some (.vpmulldVex128 np 9 10 (.reg 11)) := by decide
theorem test_decode_vex256 :
    decodesTo .mode64 [0xC4, 0x42, 0x15, 0x40, 0x66, 0x08] =
      some (.vpmulldVex256 np 12 13 (.mem (.base 14 (.d8 8#8)))) := by decide
theorem test_decode_evexd128 :
    decodesTo .mode64 [0x62, 0xF2, 0x6D, 0x89, 0x40, 0xCB] =
      some (.vpmulldEvex128 np ⟨1, true, false⟩ 1 2 (.reg 3)) := by decide
theorem test_decode_evexd256 :
    decodesTo .mode64 [0x62, 0xA2, 0x6D, 0x20, 0x40, 0xCB] =
      some (.vpmulldEvex256 np ⟨0, false, false⟩ 17 18 (.reg 19)) := by decide
theorem test_decode_evexd512 :
    decodesTo .mode64 [0x62, 0xF2, 0x6D, 0xD9, 0x40, 0x08] =
      some (.vpmulldEvex512 np ⟨1, true, true⟩ 1 2 atRax) := by decide
theorem test_decode_evexq128 :
    decodesTo .mode64 [0x62, 0xF2, 0xED, 0x99, 0x40, 0x08] =
      some (.vpmullqEvex128 np ⟨1, true, true⟩ 1 2 atRax) := by decide
theorem test_decode_evexq256 :
    decodesTo .mode64 [0x62, 0xF2, 0xED, 0x3B, 0x40, 0x08] =
      some (.vpmullqEvex256 np ⟨3, false, true⟩ 1 2 atRax) := by decide
theorem test_decode_evexq512 :
    decodesTo .mode64 [0x62, 0x22, 0xB5, 0x48, 0x40, 0xC1] =
      some (.vpmullqEvex512 np ⟨0, false, false⟩ 24 9 (.reg 17)) := by decide
theorem test_decode_mode32 :
    decodesTo .mode32 [0x62, 0xF2, 0xCD, 0x48, 0x40, 0x7C, 0x7B, 0x01] =
      some (.vpmullqEvex512 np ⟨0, false, false⟩ 7 6 (.mem (.sib 3 (some 7) 1#2 (.d8 1#8)))) := by decide
theorem test_decode_vex_w_ignored :
    decodesTo .mode64 [0xC4, 0xE2, 0xE9, 0x40, 0xCB] = some (.vpmulldVex128 np 1 2 (.reg 3)) := by decide
theorem test_decode_reserved_ll :
    decode .mode64 [0x62#8, 0xF2#8, 0x6D#8, 0x68#8, 0x40#8, 0xCB#8] = .invalidOpcode := by decide

/-- R89 step 2: the reserved bits of P0 are tested before the opcode byte is read; a wrong map too. -/
theorem test_decode_evex_reserved_at_end : decode .mode64 [0x62#8, 0xF6#8, 0x6D#8, 0x08#8] = .invalidOpcode ∧
    decode .mode64 [0x62#8, 0xF1#8, 0x6D#8, 0x08#8] = .refused .notInScope ∧
    decode .mode64 [0x62#8, 0xF2#8, 0x6D#8, 0x08#8] = .refused .truncated := by decide

/-- Log 14: in Mode32 nothing tells a lone C4 from LES. -/
theorem test_decode_mode32_lone_escape : decode .mode32 [0x66#8, 0xC4#8] = .refused .truncated := by decide
theorem test_decode_rep_refused :
    decode .mode64 [0xF3#8, 0x66#8, 0x0F#8, 0x38#8, 0x40#8, 0xC1#8] = .refused .repPrefix := by decide
theorem test_table_word_first_byte_low :
    decodeTableWord 40 0xC140380F66 = some (.pmulld np false 0 (.reg 1)) := by decide
theorem test_table_word_first_byte_high :
    decodeTableWord 40 0x660F3840C1 = some (.pmulld np false 0 (.reg 1)) := by decide

/-! ### Executions: `95_test_vectors.md` section 4 -/

theorem test_pmulld_lanes_and_upper :
    dest (.pmulld np false 0 (.reg 1))
      ((base.writeZmm 0 (pack 32 [2, 0xFFFFFFFF, 0x80000000, 0x7FFFFFFF, 0, 0, 0, 9])).writeZmm 1
        (pack 32 [3, 0xFFFFFFFF, 0xFFFFFFFF, 2])) =
      some (pack 32 [6, 1, 0x80000000, 0xFFFFFFFE, 0, 0, 0, 9]) := by decide +kernel
theorem test_pmulld_misaligned :
    faultOf (exec (.pmulld np false 0 atRax) (withGpr base 0 0x5008)) = some .generalProtection := by decide +kernel
theorem test_vex128_clears_upper :
    dest (.vpmulldVex128 np 1 2 (.reg 3))
      (((base.writeZmm 2 (pack 32 [1, 2, 3, 4])).writeZmm 3 (pack 32 [5, 0x10000, 0x80000000, 0xFFFFFFFF])).writeZmm 1
        (BitVec.allOnes 512)) =
      some (pack 32 [5, 0x20000, 0x80000000, 0xFFFFFFFC]) := by decide +kernel
theorem test_vex256_memory_unaligned :
    dest (.vpmulldVex256 np 2 0 atRax)
      (withDwords (withGpr (base.writeZmm 0 (pack 32 [3, 3, 3, 3, 3, 3, 3, 3])) 0 0x5001) 0x5001
        [1, 2, 3, 4, 5, 6, 7, 0x55555556]) =
      some (pack 32 [3, 6, 9, 12, 15, 18, 21, 2]) := by decide +kernel
theorem test_evexd128_merging :
    dest (.vpmulldEvex128 np ⟨1, false, false⟩ 1 2 (.reg 3))
      (withK (((base.writeZmm 2 (pack 32 [1, 2, 3, 4])).writeZmm 3
        (pack 32 [5, 0x10000, 0x80000000, 0xFFFFFFFF])).writeZmm 1 (BitVec.allOnes 512)) 1 5) =
      some (pack 32 [5, 0xFFFFFFFF, 0x80000000, 0xFFFFFFFF]) := by decide +kernel
theorem test_evexd256_masked_memory :
    dest (.vpmulldEvex256 np ⟨2, false, false⟩ 1 2 atRax)
      { withDwords (withGpr (withK ((base.writeZmm 2 (pack 32 [2, 2, 2, 2, 2, 2, 2, 2])).writeZmm 1
          (pack 32 [7, 7, 7, 7, 7, 7, 7, 7])) 2 0xF0) 0 0x5FF0) 0x6000 [0x50, 0x60, 0x70, 0x80] with
        regions := [⟨0x6000, 0x1000, .readable⟩] } =
      some (pack 32 [7, 7, 7, 7, 0xA0, 0xC0, 0xE0, 0x100]) := by decide +kernel
theorem test_evexd512_broadcast_zeroing :
    dest (.vpmulldEvex512 np ⟨1, true, true⟩ 1 2 atRax)
      (withDwords (withGpr (withK (base.writeZmm 2
        (pack 32 [1, 2, 3, 4, 5, 6, 7, 8, 9, 10, 11, 12, 13, 14, 15, 16])) 1 0x8001) 0 0x5000) 0x5000 [0xFFFFFFFD]) =
      some (pack 32 [0xFFFFFFFD, 0, 0, 0, 0, 0, 0, 0, 0, 0, 0, 0, 0, 0, 0, 0xFFFFFFD0]) := by decide +kernel
theorem test_evexq128_cross_terms :
    dest (.vpmullqEvex128 np ⟨0, false, false⟩ 1 2 (.reg 3))
      ((base.writeZmm 2 (pack 64 [0x200000003, 0x8000000000000000])).writeZmm 3
        (pack 64 [0x400000005, 0xFFFFFFFFFFFFFFFF])) =
      some (pack 64 [0x160000000F, 0x8000000000000000]) := by decide +kernel
theorem test_evexq256_broadcast_merging :
    dest (.vpmullqEvex256 np ⟨3, false, true⟩ 1 2 atRax)
      (withDwords (withGpr (withK ((base.writeZmm 2
        (pack 64 [1, 2, 0x8000000000000000, 0xFFFFFFFFFFFFFFFF])).writeZmm 1
        (pack 64 [0x11, 0x11, 0x11, 0x11, 0x11])) 3 0xE) 0 0x5000) 0x5000 [2]) =
      some (pack 64 [0x11, 4, 0, 0xFFFFFFFFFFFFFFFE]) := by decide +kernel
theorem test_evexq512_disp8_scaled :
    dest (.vpmullqEvex512 np ⟨7, false, false⟩ 1 2 (.mem (.base 3 (.d8 2#8))))
      (withDwords (withGpr (withK (base.writeZmm 2 (BitVec.allOnes 512)) 7 3) 3 0x6000) 0x6080 [1, 0, 2, 0]) =
      some (pack 64 [0xFFFFFFFFFFFFFFFF, 0xFFFFFFFFFFFFFFFE]) := by decide +kernel
theorem test_page_fault_second_page :
    faultOf (exec (.vpmulldVex256 np 2 0 atRax)
      { withGpr base 0 0x5FF0 with cpl := 3, regions := [⟨0x5000, 0x1000, .readable⟩] }) =
      some (.pageFault 4#32 0x6000#64) := by decide +kernel
theorem test_non_canonical_ss :
    faultOf (exec (.vpmulldVex128 np 0 0 (.mem (.sib 4 none 0#2 .none))) (withGpr base 4 0x800000000000)) =
      some .stackSegment := by decide +kernel

/-! ### Steps -/

/-- The state about to run `pmulld xmm0, xmm1`, by table word. -/
def ready : State := State.reset.withFetchWord 40 0x660F3840C1

theorem test_step_runs_table_word :
    (nextOf (step ready)).map (fun t => (t.rip, t.readZmm 0)) = some (0xFFF5#64, 0#512) := by decide +kernel
theorem test_step_after_reset : refusalOf (step State.reset) = some (.mode .realAddress) := by decide +kernel

/-! ### Witnesses for the hypotheses of the statements -/

/-- A completed execution is a next state. -/
theorem next_of (o : Host.Outcome State Fault Refusal) (h : (nextOf o).isSome = true) : ∃ t, o = .next t := by
  cases o with
  | next t => exact ⟨t, rfl⟩
  | fault x => exact absurd h (by simp [nextOf])
  | refused r => exact absurd h (by simp [nextOf])

/-- Every feature flag is 1 and every class enabled, as in `base`. -/
def allOn (s : State) : Bool :=
  !s.cr0.getLsbD 2 && !s.cr0.getLsbD 3 && s.cr4.getLsbD 9 && s.cr4.getLsbD 18 && s.xcr0.getLsbD 1 &&
    s.xcr0.getLsbD 2 && s.xcr0.getLsbD 5 && s.xcr0.getLsbD 6 && s.xcr0.getLsbD 7 &&
    decide (s.cfg.feat = ⟨true, true, true, true, true, true⟩)

/-- In such a state an instruction with no reserved controls is ready. -/
theorem ready_of (i : Instr) (s : State) (h : allOn s = true)
    (hc : ¬ ReservedCtl (operandsOf i).ctl (operandsOf i).rm) : Ready i s := by
  simp only [allOn, Bool.and_eq_true, Bool.not_eq_true', decide_eq_true_eq] at h
  obtain ⟨⟨⟨⟨⟨⟨⟨⟨⟨h2, h3⟩, h9⟩, h18⟩, x1⟩, x2⟩, x5⟩, x6⟩, x7⟩, hf⟩ := h
  refine ⟨⟨?_, ?_, hc⟩, h3⟩
  · rw [hf]; cases i <;> simp [formOf, FeatureOn]
  · cases hcls : (formOf i).cls <;> simp only [ClassOn] <;> simp_all

/-- No control is reserved where neither `z` nor `b` is set. -/
theorem plain (a : KReg) (r : RM) : ¬ ReservedCtl ⟨a, false, false⟩ r := by simp [ReservedCtl]

/-- Zeroing with a writemask and broadcast from memory are not reserved. -/
theorem bcst (x : Mem) : ¬ ReservedCtl ⟨1, true, true⟩ (.mem x) := by simp [ReservedCtl]

/-- Unmasked, merging under k1, and zeroing broadcast under k1. -/
def c0 : EvexCtl := ⟨0, false, false⟩
def c1 : EvexCtl := ⟨1, false, false⟩
def cb : EvexCtl := ⟨1, true, true⟩

/-- `[rax]` in the state `s` with RAX at an address. -/
def rax (n : Nat) : State := withGpr base 0 n

/-- Only the page at 6000H is mapped. -/
def onePage (s : State) : State := { s with regions := [⟨0x6000, 0x1000, .readable⟩] }

theorem witness_StepKeepsInvariant : Inv ready ∧ ∃ t, step ready = .next t := by
  refine ⟨⟨by decide +kernel, by decide +kernel, ?_, fun h => absurd h (by decide +kernel)⟩,
    next_of _ (by decide +kernel)⟩
  intro n i h
  exact BitVec.getLsbD_of_ge _ i (le_trans (show 512 ≤ maxVl ready.cfg.feat by decide +kernel) h)

theorem witness_DecodeEncodeRoundTrip :
    (Instr.pmulld ⟨some .gs, true⟩ true 15 (.mem (.sib 15 (some 15) 3#2 (.d32 0xFFFFFFFF#32)))).wellFormed .mode64 =
      true := by decide

/-- The longest form: 13 bytes. -/
theorem witness_DecodedLength :
    decode .mode64 ([0x64#8, 0x67#8, 0x66#8, 0x45#8, 0x0F#8, 0x38#8, 0x40#8, 0x84#8, 0x89#8, 0#8, 1#8, 0#8, 0#8]) =
      .ok (.pmulld ⟨some .fs, true⟩ true 8 (.mem (.sib 9 (some 1) 2#2 (.d32 0x100#32)))) [] ∧
    instrLen (.pmulld ⟨some .fs, true⟩ true 8 (.mem (.sib 9 (some 1) 2#2 (.d32 0x100#32)))) = 13 := by decide

theorem witness_DecodedIsWellFormed :
    decode .mode32 ([0xC4#8, 0xE2#8, 0x6D#8, 0x40#8, 0xCB#8]) = .ok (.vpmulldVex256 np 1 2 (.reg 3)) [] := by decide

/-- PMULLD under a LOCK prefix at RIP: #UD. Another opcode at RIP: refused. -/
def readyLock : State := ready.withCode [0xF0#8, 0x66#8, 0x0F#8, 0x38#8, 0x40#8]
def readyOther : State := ready.withCode [0x90#8]

/-- The three answers of the decoder: an instruction, #UD and a refusal. -/
theorem witness_StepRunsDecodedInstruction :
    (ready.cpuMode = .admitted .mode64 ∧ codeEnd ready = none ∧
      ∃ rest, decode .mode64 (fetchBytes .mode64 ready) = .ok (.pmulld np false 0 (.reg 1)) rest) ∧
    (readyLock.cpuMode = .admitted .mode64 ∧ codeEnd readyLock = none ∧
      decode .mode64 (fetchBytes .mode64 readyLock) = .invalidOpcode) ∧
    readyOther.cpuMode = .admitted .mode64 ∧ codeEnd readyOther = none ∧
      decode .mode64 (fetchBytes .mode64 readyOther) = .refused .notInScope :=
  ⟨⟨by decide +kernel, by decide +kernel, List.replicate 10 0#8, by decide +kernel⟩, by decide +kernel,
    by decide +kernel⟩

/-- The code region holds exactly the one instruction. -/
def exactCode : State := { ready with code := some ⟨0xFFF0#64, 5⟩ }

theorem witness_EncodedInstructionRuns :
    (Instr.pmulld np false 0 (.reg 1)).wellFormed .mode64 = true ∧ exactCode.cpuMode = .admitted .mode64 ∧
      (∀ c, exactCode.code = some c →
        (exactCode.rip - c.base).toNat + instrLen (.pmulld np false 0 (.reg 1)) ≤ c.size) ∧
      ∀ k, k < instrLen (.pmulld np false 0 (.reg 1)) → (encode (.pmulld np false 0 (.reg 1)))[k]? =
        some (exactCode.mem.read (fetchAddress .mode64 exactCode k)) := by
  refine ⟨by decide, by decide +kernel, ?_, by decide +kernel⟩
  intro c hc
  obtain rfl : ⟨0xFFF0#64, 5⟩ = c := Option.some.inj hc
  decide +kernel

/-- For VexWIgnored and RexWIgnored: prefixes may stand before. -/
theorem witness_WIgnored : ∀ b ∈ [0x64#8, 0x67#8], b ∈ prefixBytes := by decide

/-- For IllegalPrefixesUd, NoMemoryWrite and LegacyUd, legacy form: the LOCK goes between 64 and 66. -/
theorem witness_IllegalPrefixes_legacy :
    (Instr.pmulld ⟨some .fs, false⟩ false 0 (.reg 1)).wellFormed .mode64 = true ∧
      encode (.pmulld ⟨some .fs, false⟩ false 0 (.reg 1)) = [0x64#8] ++ [0x66#8, 0x0F#8, 0x38#8, 0x40#8, 0xC1#8] ∧
      (∀ b ∈ [0x64#8], b ∈ prefixBytes) ∧
      (formOf (.pmulld ⟨some .fs, false⟩ false 0 (.reg 1))).cls = .legacy := by decide

/-- For IllegalPrefixesUd and NoMemoryWrite, VEX and EVEX: directly before the escape. -/
theorem witness_IllegalPrefixes_vex :
    (Instr.vpmulldVex128 ⟨some .fs, false⟩ 1 2 (.reg 3)).wellFormed .mode64 = true ∧
      encode (.vpmulldVex128 ⟨some .fs, false⟩ 1 2 (.reg 3)) = [0x64#8] ++ [0xC4#8, 0xE2#8, 0x69#8, 0x40#8, 0xCB#8] ∧
      (formOf (.vpmulldVex128 ⟨some .fs, false⟩ 1 2 (.reg 3))).cls ≠ .legacy ∧
      (Instr.vpmulldEvex512 np c0 1 2 (.reg 3)).wellFormed .mode64 = true ∧
      encode (.vpmulldEvex512 np c0 1 2 (.reg 3)) = [] ++ [0x62#8, 0xF2#8, 0x6D#8, 0x48#8, 0x40#8, 0xCB#8] := by decide

/-- Prefixes of every kind but the ones an EVEX form refuses, in both modes. -/
theorem prefixSet_example : PrefixSet .mode64 [0x2E#8, 0x67#8] ∧ PrefixSet .mode32 [0x2E#8] := by
  refine ⟨⟨by decide, ?_, fun h => by cases h⟩, ⟨by decide, ?_, fun _ => by decide⟩⟩ <;>
    simp [SameKind, overrideBytes]

/-- The clauses, on the bytes of `95_test_vectors.md` section 2.3, and the Mode32 premises on them; the operand of the
last clause a register, the longest (SIB without base and disp32) with all its bytes, and the same with one missing. -/
theorem witness_EvexReservedFieldsUd :
    PrefixSet .mode32 [0x2E#8] ∧ (0xF6#8).extractLsb' 6 2 = 3#2 ∧
    (0xF6#8).extractLsb' 2 2 ≠ 0#2 ∧ (0x69#8).getLsbD 2 = false ∧ (0xF2#8).extractLsb' 0 4 = 2#4 ∧
      (0x6D#8).extractLsb' 0 3 = 5#3 ∧ (0x68#8).extractLsb' 5 2 = 3#2 ∧ (0x18#8).getLsbD 4 = true ∧
      (0xCB#8).extractLsb' 6 2 = 3#2 ∧ (0x88#8).getLsbD 7 = true ∧ (0x88#8).extractLsb' 0 3 = 0#3 ∧
      (0xF2#8).extractLsb' 4 2 = 3#2 ∧ (0x6D#8).getLsbD 6 = true ∧ (0x18#8).getLsbD 3 = true ∧
      (0x88#8).getLsbD 3 = true ∧ addressLen 0xCB#8 [] ≤ [].length (α := Byte) ∧
      addressLen 0x0C#8 [0x25#8, 0#8, 0#8, 0#8, 0#8] = 5 ∧
      [0x25#8, 0#8, 0#8, 0#8].length < addressLen 0x0C#8 [0x25#8, 0#8, 0#8, 0#8] ∧ (0x88#8).extractLsb' 5 2 ≠ 3#2 ∧
      NoIllegalPrefix [0x2E#8] :=
  ⟨prefixSet_example.2, by simp only [NoIllegalPrefix]; decide⟩

/-- Zeroing without a writemask, `95_test_vectors.md` section 2.3: the register form. -/
theorem test_decode_evex_zeroing_unmasked :
    decode .mode64 [0x62#8, 0xF2#8, 0x6D#8, 0x88#8, 0x40#8, 0xCB#8] = .invalidOpcode := by decide

/-- Each clause: 67 after 2E with no prefix next, a repeated segment override, F2 after F3, 66 with F2 and without, and a
Mode32 prefix with one high-register bit. -/
theorem witness_RefusedByteStrings :
    ((∀ x ∈ [0x2E#8], x ∈ prefixBytes) ∧ ([0x2E#8] ++ [0x67#8]).Pairwise (fun a b => ¬ SameKind a b) ∧
      ∀ b, [0x0F#8].head? = some b → b ∉ prefixBytes) ∧
    (∀ x ∈ [0x66#8, 0x2E#8], x ∈ prefixBytes) ∧ 0x64#8 ∈ prefixBytes ∧ (∃ a ∈ [0x66#8, 0x2E#8], SameKind a 0x64#8) ∧
      (∃ a ∈ [0xF3#8], SameKind a 0xF2#8) ∧ PrefixSet .mode64 [0x2E#8, 0x67#8] ∧ PrefixSet .mode32 [0x2E#8] ∧
      (0xBF#8).extractLsb' 6 2 ≠ 3#2 ∧ 0x66#8 ∉ [0x2E#8, 0x67#8] ∧ PrefixSet .mode32 [0x66#8, 0xF2#8] ∧
      OptionalRex .mode64 [0x41#8] ∧ NoIllegalPrefix [0x2E#8] ∧
      (0xC2#8).extractLsb' 6 2 = 3#2 ∧ (0xC2#8).extractLsb' 0 5 = 2#5 ∧ (0x69#8).extractLsb' 0 2 = 1#2 ∧
      (0xC2#8).getLsbD 5 = false ∧ (0xE2#8).extractLsb' 0 4 = 2#4 ∧ (0xE2#8).extractLsb' 4 2 ≠ 3#2 ∧
      (0x6D#8).extractLsb' 0 3 = 5#3 ∧ (0x48#8).extractLsb' 5 2 ≠ 3#2 :=
  ⟨⟨by decide, prefixSet_example.1.2.1, by simp [prefixBytes]⟩, by decide, by decide, ⟨0x2E#8, by decide, .inr (.inl (by decide))⟩, ⟨0xF3#8, by decide, .inr (.inr (by decide))⟩,
    prefixSet_example.1, prefixSet_example.2, by decide, by decide,
    ⟨by decide, by simp [SameKind, overrideBytes], fun _ => by decide⟩, .inr ⟨rfl, 1#4, by decide⟩,
    by simp only [NoIllegalPrefix]; decide⟩

/-- For the other opcodes: VEX and EVEX prefixes one bit off in the map or `pp`, opcode bytes 3F and 41, a class byte. -/
theorem witness_OtherOpcodesRefused :
    NoIllegalPrefix [0x2E#8, 0x67#8] ∧ (0xE3#8).extractLsb' 6 2 = 3#2 ∧ (0xE3#8).extractLsb' 0 5 ≠ 2#5 ∧
      (0x68#8).extractLsb' 0 2 ≠ 1#2 ∧ (0xF3#8).extractLsb' 2 2 = 0#2 ∧ (0x6C#8).getLsbD 2 = true ∧
      (0xF3#8).extractLsb' 0 2 ≠ 2#2 ∧ (0x6C#8).extractLsb' 0 2 ≠ 1#2 ∧ 0x3F#8 ≠ 0x40#8 ∧ 0x39#8 ≠ 0x38#8 ∧
      0xC5#8 ∉ prefixBytes ∧ 0xC5#8 ∉ [0x0F#8, 0xC4#8, 0x62#8] ∧ (0xC5#8).extractLsb' 4 4 ≠ 4#4 := by
  simp only [NoIllegalPrefix]; decide

theorem witness_RefusedModes :
    State.reset.cr0.getLsbD 0 = false ∧
      ({ base with rflags := 0x20000#64 } : State).rflags.getLsbD 17 = true ∧ base.cr0.getLsbD 0 = true ∧
      base.rflags.getLsbD 17 = false ∧ ({ base with efer := 0#64 } : State).efer.getLsbD 10 = false ∧
      State.reset.cs.l = false ∧ base.cs.d = false ∧ State.reset.cpuMode = .unadmitted .realAddress := by
  decide +kernel

/-- The last qword and the last byte of a 64-byte operand. -/
theorem witness_MixedWidthView_LittleEndianOperand :
    8 * 7 + 8 ≤ (⟨.ds, 0#64, 64⟩ : Access).size ∧ (⟨.ds, 0#64, 64⟩ : Access).size ≤ 64 ∧ 63 < 64 ∧ 64 ≤ 64 := by decide

theorem witness_EffectiveAddress :
    (operandsOf (.vpmulldEvex512 np cb 1 2 atRax)).rm = .mem (.base 0 .none) ∧
      (operandsOf (.vpmulldEvex512 np cb 1 2 atRax)).pfx.addr = false ∧
      (operandsOf (.vpmulldEvex512 ⟨none, true⟩ cb 1 2 atRax)).pfx.addr = true := by decide

/-- SS by default, DS by default, an ignored override in Mode64, and overrides that count. -/
theorem witness_OperandSegment :
    wfMem .mode64 (.base 5 (.d8 0#8)) = true ∧ SsByDefault (.base 5 (.d8 0#8)) ∧
      wfMem .mode64 (.base 13 (.d8 0#8)) = true ∧ ¬ SsByDefault (.base 13 (.d8 0#8)) ∧
      (operandsOf (.pmulld ⟨some .es, false⟩ false 0 atRax)).pfx.seg = some .es ∧
      (operandsOf (.pmulld ⟨some .gs, false⟩ false 0 atRax)).pfx.seg = some .gs := by
  refine ⟨by decide, .inl ⟨_, rfl⟩, by decide, ?_, rfl, rfl⟩
  simp [SsByDefault]

theorem witness_PmulldRegisterResult :
    base.cpuMode = .admitted .mode64 ∧ Ready (.pmulld np true 15 (.reg 15)) base ∧
      base32.cpuMode = .admitted .mode32 ∧ Ready (.pmulld np false 0 (.reg 7)) base32 :=
  ⟨by decide +kernel, ready_of _ _ (by decide +kernel) (plain 0 _), by decide +kernel,
    ready_of _ _ (by decide +kernel) (plain 0 _)⟩

theorem witness_PmulldMemoryResult :
    (rax 0x5000).cpuMode = .admitted .mode64 ∧ Ready (.pmulld np false 0 atRax) (rax 0x5000) ∧
      AccessReadable .mode64 (rax 0x5000) (access .mode64 (.pmulld np false 0 atRax) (rax 0x5000) (.base 0 .none)) ∧
      LegacyAligned .mode64 (rax 0x5000) (access .mode64 (.pmulld np false 0 atRax) (rax 0x5000) (.base 0 .none)) :=
  ⟨by decide +kernel, ready_of _ _ (by decide +kernel) (plain 0 _), by decide +kernel, by decide +kernel⟩

theorem witness_VexRegisterResult :
    base.cpuMode = .admitted .mode64 ∧ Ready (.vpmulldVex128 np 15 15 (.reg 15)) base ∧
      Ready (.vpmulldVex256 np 0 15 (.reg 1)) base :=
  ⟨by decide +kernel, ready_of _ _ (by decide +kernel) (plain 0 _), ready_of _ _ (by decide +kernel) (plain 0 _)⟩

/-- The highest canonical address below the gap that holds the whole operand, misaligned. -/
theorem witness_VexMemoryResult :
    (rax 0x7FFFFFFFFFE0).cpuMode = .admitted .mode64 ∧ Ready (.vpmulldVex128 np 0 0 atRax) (rax 0x7FFFFFFFFFE0) ∧
      Ready (.vpmulldVex256 np 0 0 atRax) (rax 0x7FFFFFFFFFE0) ∧
      AccessReadable .mode64 (rax 0x7FFFFFFFFFE0)
        (access .mode64 (.vpmulldVex128 np 0 0 atRax) (rax 0x7FFFFFFFFFE0) (.base 0 .none)) ∧
      AccessReadable .mode64 (rax 0x7FFFFFFFFFE0)
        (access .mode64 (.vpmulldVex256 np 0 0 atRax) (rax 0x7FFFFFFFFFE0) (.base 0 .none)) :=
  ⟨by decide +kernel, ready_of _ _ (by decide +kernel) (plain 0 _), ready_of _ _ (by decide +kernel) (plain 0 _),
    by decide +kernel, by decide +kernel⟩

/-- For both register statements of the EVEX forms: unmasked and masked, registers 0 and 31. -/
theorem witness_EvexRegisterResults :
    base.cpuMode = .admitted .mode64 ∧ Ready (.vpmulldEvex128 np c0 31 31 (.reg 31)) base ∧
      Ready (.vpmulldEvex256 np c1 0 31 (.reg 1)) base ∧ Ready (.vpmulldEvex512 np c1 0 0 (.reg 0)) base ∧
      Ready (.vpmullqEvex128 np c0 31 31 (.reg 31)) base ∧ Ready (.vpmullqEvex256 np c1 0 31 (.reg 1)) base ∧
      Ready (.vpmullqEvex512 np c1 0 0 (.reg 0)) base :=
  ⟨by decide +kernel, ready_of _ _ (by decide +kernel) (plain 0 _), ready_of _ _ (by decide +kernel) (plain 1 _),
    ready_of _ _ (by decide +kernel) (plain 1 _), ready_of _ _ (by decide +kernel) (plain 0 _),
    ready_of _ _ (by decide +kernel) (plain 1 _), ready_of _ _ (by decide +kernel) (plain 1 _)⟩

/-- The operand starts on an unmapped page and the writemask keeps only the lanes on the mapped one. -/
def straddle (mask n : Nat) : State := onePage (withK (rax n) 1 mask)

theorem witness_EvexDwordMemoryResult :
    (straddle 0xC 0x5FF8).cpuMode = .admitted .mode64 ∧
      Ready (.vpmulldEvex128 np c1 1 2 atRax) (straddle 0xC 0x5FF8) ∧
      LiveReadable .mode64 ⟨.evex, .dword, .v128⟩ c1 (straddle 0xC 0x5FF8)
        (access .mode64 (.vpmulldEvex128 np c1 1 2 atRax) (straddle 0xC 0x5FF8) (.base 0 .none)) ∧
      Ready (.vpmulldEvex256 np c1 1 2 atRax) (straddle 0xF0 0x5FF0) ∧
      LiveReadable .mode64 ⟨.evex, .dword, .v256⟩ c1 (straddle 0xF0 0x5FF0)
        (access .mode64 (.vpmulldEvex256 np c1 1 2 atRax) (straddle 0xF0 0x5FF0) (.base 0 .none)) ∧
      Ready (.vpmulldEvex512 np c1 1 2 atRax) (straddle 0x8000 0x5FC4) ∧
      LiveReadable .mode64 ⟨.evex, .dword, .v512⟩ c1 (straddle 0x8000 0x5FC4)
        (access .mode64 (.vpmulldEvex512 np c1 1 2 atRax) (straddle 0x8000 0x5FC4) (.base 0 .none)) :=
  ⟨by decide +kernel, ready_of _ _ (by decide +kernel) (plain 1 _), by decide +kernel,
    ready_of _ _ (by decide +kernel) (plain 1 _), by decide +kernel,
    ready_of _ _ (by decide +kernel) (plain 1 _), by decide +kernel⟩

theorem witness_EvexQwordMemoryResult :
    (straddle 2 0x5FF8).cpuMode = .admitted .mode64 ∧
      Ready (.vpmullqEvex128 np c1 1 2 atRax) (straddle 2 0x5FF8) ∧
      LiveReadable .mode64 ⟨.evex, .qword, .v128⟩ c1 (straddle 2 0x5FF8)
        (access .mode64 (.vpmullqEvex128 np c1 1 2 atRax) (straddle 2 0x5FF8) (.base 0 .none)) ∧
      Ready (.vpmullqEvex256 np c1 1 2 atRax) (straddle 8 0x5FE8) ∧
      LiveReadable .mode64 ⟨.evex, .qword, .v256⟩ c1 (straddle 8 0x5FE8)
        (access .mode64 (.vpmullqEvex256 np c1 1 2 atRax) (straddle 8 0x5FE8) (.base 0 .none)) ∧
      Ready (.vpmullqEvex512 np c1 1 2 atRax) (straddle 0x80 0x5FC8) ∧
      LiveReadable .mode64 ⟨.evex, .qword, .v512⟩ c1 (straddle 0x80 0x5FC8)
        (access .mode64 (.vpmullqEvex512 np c1 1 2 atRax) (straddle 0x80 0x5FC8) (.base 0 .none)) :=
  ⟨by decide +kernel, ready_of _ _ (by decide +kernel) (plain 1 _), by decide +kernel,
    ready_of _ _ (by decide +kernel) (plain 1 _), by decide +kernel,
    ready_of _ _ (by decide +kernel) (plain 1 _), by decide +kernel⟩

/-- A broadcast with every lane inactive, from an unmapped address, and one with lane 0 active, misaligned. -/
theorem witness_EvexDwordBroadcastResult :
    (straddle 0 0x5002).cpuMode = .admitted .mode64 ∧
      Ready (.vpmulldEvex128 np cb 1 2 atRax) (straddle 0 0x5002) ∧
      LiveReadable .mode64 ⟨.evex, .dword, .v128⟩ cb (straddle 0 0x5002)
        (access .mode64 (.vpmulldEvex128 np cb 1 2 atRax) (straddle 0 0x5002) (.base 0 .none)) ∧
      BroadcastAligned .mode64 (straddle 0 0x5002)
        (access .mode64 (.vpmulldEvex128 np cb 1 2 atRax) (straddle 0 0x5002) (.base 0 .none)) ∧
      Ready (.vpmulldEvex256 np cb 1 2 atRax) (straddle 1 0x6002) ∧
      LiveReadable .mode64 ⟨.evex, .dword, .v256⟩ cb (straddle 1 0x6002)
        (access .mode64 (.vpmulldEvex256 np cb 1 2 atRax) (straddle 1 0x6002) (.base 0 .none)) ∧
      Ready (.vpmulldEvex512 np cb 1 2 atRax) (straddle 1 0x6FFC) ∧
      LiveReadable .mode64 ⟨.evex, .dword, .v512⟩ cb (straddle 1 0x6FFC)
        (access .mode64 (.vpmulldEvex512 np cb 1 2 atRax) (straddle 1 0x6FFC) (.base 0 .none)) :=
  ⟨by decide +kernel, ready_of _ _ (by decide +kernel) (bcst _), by decide +kernel, by decide +kernel,
    ready_of _ _ (by decide +kernel) (bcst _), by decide +kernel,
    ready_of _ _ (by decide +kernel) (bcst _), by decide +kernel⟩

theorem witness_EvexQwordBroadcastResult :
    (straddle 0 0x5002).cpuMode = .admitted .mode64 ∧
      Ready (.vpmullqEvex128 np cb 1 2 atRax) (straddle 0 0x5002) ∧
      LiveReadable .mode64 ⟨.evex, .qword, .v128⟩ cb (straddle 0 0x5002)
        (access .mode64 (.vpmullqEvex128 np cb 1 2 atRax) (straddle 0 0x5002) (.base 0 .none)) ∧
      BroadcastAligned .mode64 (straddle 0 0x5002)
        (access .mode64 (.vpmullqEvex128 np cb 1 2 atRax) (straddle 0 0x5002) (.base 0 .none)) ∧
      Ready (.vpmullqEvex256 np cb 1 2 atRax) (straddle 1 0x6002) ∧
      LiveReadable .mode64 ⟨.evex, .qword, .v256⟩ cb (straddle 1 0x6002)
        (access .mode64 (.vpmullqEvex256 np cb 1 2 atRax) (straddle 1 0x6002) (.base 0 .none)) ∧
      Ready (.vpmullqEvex512 np cb 1 2 atRax) (straddle 1 0x6FF8) ∧
      LiveReadable .mode64 ⟨.evex, .qword, .v512⟩ cb (straddle 1 0x6FF8)
        (access .mode64 (.vpmullqEvex512 np cb 1 2 atRax) (straddle 1 0x6FF8) (.base 0 .none)) :=
  ⟨by decide +kernel, ready_of _ _ (by decide +kernel) (bcst _), by decide +kernel, by decide +kernel,
    ready_of _ _ (by decide +kernel) (bcst _), by decide +kernel,
    ready_of _ _ (by decide +kernel) (bcst _), by decide +kernel⟩

/-- For UpperBitsRule, FrameRule, NoMemoryWrite, FloatStateUntouched and FlagsUntouched: a legacy, a VEX and an EVEX
execution complete; bits 128 and 511 are in the range of the first. -/
theorem witness_completes :
    (∃ t, exec (.pmulld np false 0 (.reg 1)) base = .next t) ∧ (∃ t, exec (.vpmulldVex128 np 0 1 (.reg 2)) base = .next t) ∧
      (∃ t, exec (.vpmullqEvex256 np c0 0 1 (.reg 2)) base = .next t) ∧
      vlenBits (formOf (.pmulld np false 0 (.reg 1))).vlen ≤ 128 ∧ 511 < maxvl base.cfg.feat :=
  ⟨next_of _ (by decide +kernel), next_of _ (by decide +kernel), next_of _ (by decide +kernel), by decide, by decide⟩

/-- Lane 0 active and lane 3 inactive, merging and zeroing; and memory that differs in an
inactive lane's byte, on a page that is absent there. -/
theorem witness_WritemaskRule :
    (withK base 1 1).cpuMode = .admitted .mode64 ∧ (∃ t, exec (.vpmulldEvex128 np c1 1 2 (.reg 3)) (withK base 1 1) = .next t) ∧
      (∃ t, exec (.vpmulldEvex128 np ⟨1, true, false⟩ 1 2 (.reg 3)) (withK base 1 1) = .next t) ∧
      3 < laneCount ⟨.evex, .dword, .v128⟩ ∧ activeLane (withK base 1 1) c1 0 ∧ ¬ activeLane (withK base 1 1) c1 3 ∧
      (withK (rax 0x5000) 1 1).cfg.suppression = true ∧
      (∀ k, k < 16 → byteLive ⟨.evex, .dword, .v128⟩ c1 (withK (rax 0x5000) 1 1) k = true →
        (Memory.mk [(0x5004, 9#8)]).read (byteAddress .mode64 (withK (rax 0x5000) 1 1) .ds 0x5000#64 k).toNat =
          (withK (rax 0x5000) 1 1).mem.read (byteAddress .mode64 (withK (rax 0x5000) 1 1) .ds 0x5000#64 k).toNat ∧
        regionKind [⟨0x5004, 4, .notPresent⟩, ⟨0, 2 ^ 64, .readable⟩] true
            (byteAddress .mode64 (withK (rax 0x5000) 1 1) .ds 0x5000#64 k).toNat =
          (withK (rax 0x5000) 1 1).kindAt (byteAddress .mode64 (withK (rax 0x5000) 1 1) .ds 0x5000#64 k)) := by
  refine ⟨by decide +kernel, next_of _ (by decide +kernel), next_of _ (by decide +kernel), by decide, .inr ?_, ?_, ?_⟩
  · decide +kernel
  · rintro (h | h)
    · exact absurd h (by decide)
    · exact absurd h (by decide +kernel)
  · exact ⟨by decide, by decide +kernel⟩

/-- Two states that agree on lane 1 and differ on lane 0. -/
theorem witness_LaneIndependence :
    (∃ t, exec (.vpmulldVex128 np 0 1 (.reg 2)) base = .next t) ∧
      (∃ t, exec (.vpmulldVex128 np 0 1 (.reg 2)) (base.writeZmm 1 5#512) = .next t) ∧
      1 < laneCount ⟨.vex, .dword, .v128⟩ ∧ base.readZmm 1 ≠ (base.writeZmm 1 5#512).readZmm 1 ∧
      ∀ n ∈ [(0 : VReg), 1, 2], laneOf 32 1 (base.readZmm n) = laneOf 32 1 ((base.writeZmm 1 5#512).readZmm n) :=
  ⟨next_of _ (by decide +kernel), next_of _ (by decide +kernel), by decide, by decide +kernel, by decide +kernel⟩

/-- Status flags may differ; so may opmask bits from KL up, and all of them with `aaa = 0`. -/
theorem witness_FlagsUntouched_OpmaskOtherBitsIgnored :
    (0x8D7#64).getLsbD 17 = base.rflags.getLsbD 17 ∧ (0x8D7#64).getLsbD 18 = base.rflags.getLsbD 18 ∧
      c0.aaa = 0 ∧ ∀ j, j < laneCount ⟨.evex, .dword, .v128⟩ →
        ((withK base 1 0xFFF5).k[c1.aaa.val]).getLsbD j = ((withK base 1 5).k[c1.aaa.val]).getLsbD j := by
  decide +kernel

/-- For RegisterFormIgnoresMemory and PrivilegeIndependence. -/
theorem witness_register_form : (operandsOf (.vpmullqEvex512 np c1 0 1 (.reg 31))).rm = .reg 31 := rfl

/-- The single conditions of the #UD statements. -/
theorem witness_Ud :
    base.cpuMode = .admitted .mode64 ∧ base.cfg.faultOrder = .fixed ∧ (featOfCpuid 0#32 0#32).sse41 = false ∧ (0x80000015#64).getLsbD 2 = true ∧
      State.reset.cr4.getLsbD 9 = false ∧ State.reset.cr4.getLsbD 18 = false ∧ (5#64).extractLsb' 1 2 ≠ 3#2 ∧
      (7#64).extractLsb' 5 3 ≠ 7#3 ∧ base.cr4.getLsbD 18 = true ∧ base.xcr0.extractLsb' 1 2 = 3#2 ∧
      base.cfg.feat.avx = true ∧ base.cfg.feat.avx2 = true ∧ (featOfCpuid 0#32 0#32).avx512vl = false ∧
      (featOfCpuid 0#32 0#32).avx512dq = false ∧ (featOfCpuid 0#32 0#32).avx512f = false := by decide +kernel

theorem witness_NmRule :
    ({ base with cr0 := base.cr0 ||| 8#64 } : State).cfg.faultOrder = .fixed ∧
      ({ base with cr0 := base.cr0 ||| 8#64 } : State).cpuMode = .admitted .mode64 ∧
      ({ base with cr0 := base.cr0 ||| 8#64 } : State).cr0.getLsbD 3 = true ∧
      NoUd (.vpmulldVex256 np 0 0 atRax) { base with cr0 := base.cr0 ||| 8#64 } :=
  ⟨rfl, by decide +kernel, by decide +kernel, rfl, ⟨by decide +kernel, by decide +kernel, by decide +kernel⟩, plain 0 _⟩

/-- One byte off alignment, and a segment base one byte off. -/
theorem witness_LegacyMisaligned :
    (rax 0x500F).cfg.faultOrder = .fixed ∧ (rax 0x500F).cpuMode = .admitted .mode64 ∧
      Ready (.pmulld np false 0 atRax) (rax 0x500F) ∧
      (segBase .mode64 (rax 0x500F) (access .mode64 (.pmulld np false 0 atRax) (rax 0x500F) (.base 0 .none)).seg).toNat % 16 = 0 ∧
      (access .mode64 (.pmulld np false 0 atRax) (rax 0x500F) (.base 0 .none)).ea.toNat % 16 ≠ 0 ∧
      (segBase .mode64 { base with fs := { base.fs with base := 1#64 } }
        (access .mode64 (.pmulld ⟨some .fs, false⟩ false 0 atRax) base (.base 0 .none)).seg).toNat % 16 ≠ 0 :=
  ⟨rfl, by decide +kernel, ready_of _ _ (by decide +kernel) (plain 0 _), by decide +kernel, by decide +kernel,
    by decide +kernel⟩

/-- Only the last byte of the operand is non-canonical, and its lane is inactive. -/
theorem witness_NonCanonicalFault :
    (withK (rax 0x7FFFFFFFFFF1) 1 1).cfg.faultOrder = .fixed ∧
      (withK (rax 0x7FFFFFFFFFF1) 1 1).cpuMode = .admitted .mode64 ∧
      Ready (.vpmulldEvex128 np c1 1 2 atRax) (withK (rax 0x7FFFFFFFFFF1) 1 1) ∧
      15 < (access .mode64 (.vpmulldEvex128 np c1 1 2 atRax) (withK (rax 0x7FFFFFFFFFF1) 1 1) (.base 0 .none)).size ∧
      canonical (withK (rax 0x7FFFFFFFFFF1) 1 1).cfg.linearBits
        (linearAddress .mode64 (withK (rax 0x7FFFFFFFFFF1) 1 1) .ds (0x7FFFFFFFFFF1#64 + BitVec.ofNat 64 15)) = false :=
  ⟨rfl, by decide +kernel, ready_of _ _ (by decide +kernel) (plain 1 _), by decide +kernel, by decide +kernel⟩

/-- The last byte of the operand is the first outside the limit; and a null selector. -/
def limited (null : Bool) : State :=
  { withGpr base32 0 0xFF0 with ds := { base32.ds with limit := 0xFFE#32, nullSelector := null } }

theorem witness_SegmentFaultMode32 :
    (limited false).cfg.faultOrder = .fixed ∧ (limited false).cpuMode = .admitted .mode32 ∧
      Ready (.vpmulldVex128 np 0 0 atRax) (limited false) ∧
      SuppressionSettled .mode32 (.vpmulldVex128 np 0 0 atRax) (limited false)
        (access .mode32 (.vpmulldVex128 np 0 0 atRax) (limited false) (.base 0 .none)) ∧
      15 < (access .mode32 (.vpmulldVex128 np 0 0 atRax) (limited false) (.base 0 .none)).size ∧
      byteLive ⟨.vex, .dword, .v128⟩ noCtl (limited false) 15 = true ∧
      ((limited false).seg .ds).readable = true ∧ ((limited false).seg .ds).nullSelector = false ∧
      ((limited false).seg .ds).denied = false ∧
      ((limited false).seg .ds).limit.toNat <
        (access .mode32 (.vpmulldVex128 np 0 0 atRax) (limited false) (.base 0 .none)).ea.toNat + 15 ∧
      Ready (.vpmulldVex128 np 0 0 atRax) (limited true) ∧ ((limited true).seg .ds).nullSelector = true :=
  ⟨rfl, by decide +kernel, ready_of _ _ (by decide +kernel) (plain 0 _), .inr (by decide +kernel), by decide +kernel,
    by decide +kernel, rfl, rfl, rfl, by decide +kernel, ready_of _ _ (by decide +kernel) (plain 0 _), rfl⟩

/-- Alignment checking on, at CPL 3, with lane 0 active. -/
def checked (n : Nat) : State :=
  { withK (rax n) 1 1 with cpl := 3, cr0 := base.cr0 ||| 0x40000#64, rflags := 0x40002#64 }

/-- For the broadcast results: with no active lane a misaligned element completes with alignment checking on (R53). -/
theorem test_inactive_broadcast_completes :
    ¬ BroadcastAligned .mode64 (checked 0x5002) ⟨.ds, 0x5002#64, 4⟩ ∧
      ∃ t, exec (.vpmulldEvex512 np cb 1 2 atRax) (withK (checked 0x5002) 1 0) = .next t :=
  ⟨by decide +kernel, next_of _ (by decide +kernel)⟩

theorem witness_AlignmentCheckRule :
    (checked 0x5002).cfg.faultOrder = .fixed ∧ (checked 0x5002).cpuMode = .admitted .mode64 ∧
      Ready (.vpmulldEvex512 np cb 1 2 atRax) (checked 0x5002) ∧
      PastSegmentation .mode64 (.vpmulldEvex512 np cb 1 2 atRax) (checked 0x5002)
        (access .mode64 (.vpmulldEvex512 np cb 1 2 atRax) (checked 0x5002) (.base 0 .none)) ∧
      activeLane (checked 0x5002) cb 0 ∧ (checked 0x5002).cfg.acBcst = true ∧
      (checked 0x5002).cr0.getLsbD 18 = true ∧ (checked 0x5002).rflags.getLsbD 18 = true ∧ (checked 0x5002).cpl = 3 ∧
      (linearAddress .mode64 (checked 0x5002) .ds 0x5002#64).toNat % elemBytes .dword ≠ 0 ∧
      exec (.vpmulldEvex512 np cb 1 2 atRax) (checked 0x5002) = .fault .alignmentCheck :=
  ⟨rfl, by decide +kernel, ready_of _ _ (by decide +kernel) (bcst _),
    ⟨fun h => absurd h (by decide), by decide +kernel, by decide +kernel, by decide +kernel, .inl rfl⟩,
    .inr (by decide +kernel), rfl, by decide +kernel, by decide +kernel, rfl, by decide +kernel, rfl⟩

/-- A 32-byte operand whose second half lies on a page of the given kind. -/
def twoPages (kind : RegionKind) : State :=
  { rax 0x5FF0 with cpl := 3, regions := [⟨0x5000, 0x1000, .readable⟩, ⟨0x6000, 0x1000, kind⟩] }

/-- A 32-byte operand that wraps around the top of the address space; neither page is present. -/
def wrapped : State := { rax 0xFFFFFFFFFFFFFFF0 with regions := [⟨0x6000, 0x1000, .readable⟩] }

theorem witness_PageFaultLowestByte : ∀ kind ∈ [RegionKind.notPresent, .supervisor, .reservedBit, .keyDenied],
    (twoPages kind).cpuMode = .admitted .mode64 ∧ (twoPages kind).cr0.getLsbD 31 = true ∧ (twoPages kind).cpl = 3 ∧
      (∀ n, n < 32 → (twoPages kind).kindAt (byteAddress .mode64 (twoPages kind) .ds 0x5FF0#64 n) ≠ .device ∧
        (twoPages kind).kindAt (byteAddress .mode64 (twoPages kind) .ds 0x5FF0#64 n) ≠ .pageTable) ∧
      byteLive ⟨.vex, .dword, .v256⟩ noCtl (twoPages kind) 16 = true ∧
      0x6000#64 = byteAddress .mode64 (twoPages kind) .ds 0x5FF0#64 16 ∧
      (twoPages kind).kindAt 0x6000#64 = kind ∧
      ∀ n, n < 32 → (byteAddress .mode64 (twoPages kind) .ds 0x5FF0#64 n).toNat < (0x6000#64).toNat →
        (twoPages kind).kindAt (byteAddress .mode64 (twoPages kind) .ds 0x5FF0#64 n) = .readable := by
  decide +kernel

/-- The other premises, on the first of these states. -/
theorem witness_PageFaultLowestByte_ready :
    Ready (.vpmulldVex256 np 2 0 atRax) (twoPages .notPresent) ∧
      PastSegmentation .mode64 (.vpmulldVex256 np 2 0 atRax) (twoPages .notPresent)
        (access .mode64 (.vpmulldVex256 np 2 0 atRax) (twoPages .notPresent) (.base 0 .none)) ∧
      PageFails (twoPages .notPresent) 0x6000#64 :=
  ⟨ready_of _ _ (by decide +kernel) (plain 0 _),
    ⟨fun h => absurd h (by decide), by decide +kernel, by decide +kernel, by decide +kernel, .inl rfl⟩,
    .inl (by decide +kernel)⟩

/-- R47: the fault reported is that of the lowest address, 0, not of the first byte of the operand. -/
theorem test_wrapped_page_fault :
    faultOf (exec (.vpmulldVex256 np 2 0 atRax) wrapped) = some (.pageFault 0#32 0#64) := by decide +kernel

theorem witness_FaultsHaveCauses :
    exec (.pmulld np false 0 (.reg 1)) State.reset = .fault .invalidOpcode ∧
      exec (.vpmulldVex256 np 2 0 atRax) (twoPages .supervisor) = .fault (.pageFault 5#32 0x6000#64) ∧
      exec (.pmulld np false 0 atRax) (rax 0x500F) = .fault .generalProtection := ⟨rfl, rfl, rfl⟩

/-- SuppressionHolds not assumed, FAULT_ORDER = any. -/
def doubtful (s : State) : State := { s with cfg := { s.cfg with suppression := false, faultOrder := .any } }

/-- A live byte in device memory, one in page-table memory, and an inactive one on an absent page. -/
theorem witness_InaccessibleNeverCompletes :
    byteLive ⟨.vex, .dword, .v256⟩ noCtl (twoPages .device) 31 = true ∧
      byteInaccessible .mode64 (twoPages .device) ⟨.ds, 0x5FF0#64, 32⟩ 31 = true ∧
      byteInaccessible .mode64 (twoPages .pageTable) ⟨.ds, 0x5FF0#64, 32⟩ 31 = true ∧
      (doubtful (straddle 0xF0 0x5FF0)).cpuMode = .admitted .mode64 ∧
      (doubtful (straddle 0xF0 0x5FF0)).cfg.suppression = false ∧
      (doubtful (straddle 0xF0 0x5FF0)).cfg.faultOrder = .any ∧
      byteLive ⟨.evex, .dword, .v256⟩ c1 (doubtful (straddle 0xF0 0x5FF0)) 0 = false ∧
      byteInaccessible .mode64 (doubtful (straddle 0xF0 0x5FF0)) ⟨.ds, 0x5FF0#64, 32⟩ 0 = true := by decide +kernel

/-- The other stops, under FAULT_ORDER = any: TS, a #UD condition, a misaligned legacy operand, a non-canonical last byte
(masked off), and the #AC conditions. -/
theorem witness_stops_any :
    (∃ c : State, c = { base with cr0 := base.cr0 ||| 8#64 } ∧ c.cpuMode = .admitted .mode64 ∧ c.cr0.getLsbD 3 = true ∧
      NoUd (.pmulld np false 0 (.reg 1)) c) ∧
    ¬ NoUd (.vpmulldVex128 np 0 1 (.reg 2)) { base with xcr0 := 1#64 } ∧
    (doubtful (rax 0x500F)).cpuMode = .admitted .mode64 ∧
    ¬ LegacyAligned .mode64 (doubtful (rax 0x500F)) ⟨.ds, 0x500F#64, 16⟩ ∧
    canonical .lb48 (byteAddress .mode64 (doubtful (rax 0x7FFFFFFFFFF1)) .ds 0x7FFFFFFFFFF1#64 15) = false ∧
    (doubtful (checked 0x5002)).cpuMode = .admitted .mode64 ∧ (doubtful (checked 0x5002)).cfg.faultOrder = .any ∧
    activeLane (doubtful (checked 0x5002)) cb 0 ∧ (doubtful (checked 0x5002)).cfg.acBcst = true ∧
    (doubtful (checked 0x5002)).cr0.getLsbD 18 = true ∧ (doubtful (checked 0x5002)).rflags.getLsbD 18 = true ∧
    (doubtful (checked 0x5002)).cpl = 3 ∧
    (linearAddress .mode64 (doubtful (checked 0x5002)) .ds 0x5002#64).toNat % elemBytes .dword ≠ 0 :=
  ⟨⟨_, rfl, by decide +kernel, by decide +kernel, rfl, ⟨by decide +kernel, by decide +kernel⟩, plain 0 _⟩,
    fun h => absurd h.2.1.2.1 (by decide +kernel), by decide +kernel, by decide +kernel, by decide +kernel,
    by decide +kernel, rfl, .inr (by decide +kernel), rfl, by decide +kernel, by decide +kernel, rfl, by decide +kernel⟩

/-- R53: with a masked-off byte and a live byte on absent pages, without SuppressionHolds, the model refuses. -/
theorem test_any_order_refuses :
    refusalOf (exec (.vpmulldEvex256 np c1 1 2 atRax) (doubtful { straddle 0x1 0x5FF0 with regions := [] })) =
      some .suppressionNotAssumed := by decide +kernel

/-- U15: a read of page-table memory is refused. -/
theorem test_page_table_refused :
    refusalOf (exec (.vpmulldVex256 np 2 0 atRax) (twoPages .pageTable)) = some .pageTableRead := by decide +kernel

/-- R186: the launched state is flat over the canonical addresses. -/
theorem test_base_flatReadable :
    FlatReadable .mode64 base fun a => canonical base.cfg.linearBits (BitVec.ofNat 64 a) = true := by
  intro g ea _
  have hk : ∀ la : W64, base.kindAt la = .readable := fun la => by
    show regionKind [⟨0, 2 ^ 64, .readable⟩] _ la.toNat = _
    simp [regionKind, la.isLt]
  have ho : byteInaccessible .mode64 base ⟨g, ea, 1⟩ 0 = false :=
    (byteInaccessible_eq_false ..).mpr ⟨rfl, rfl, by simp [pageFaultAt, hk, pageDenied], by simp [hk], by simp [hk]⟩
  simp [ByteReadable, ho, nonCanonical, Access.bytes, byteAddress]

theorem witness_EndOfRun :
    ({ exactCode with rip := 0xFFF5#64 } : State).cpuMode = .admitted .mode64 ∧
      ({ exactCode with rip := 0xFFF5#64 } : State).code = some ⟨0xFFF0#64, 5⟩ ∧ 5 < 2 ^ 64 ∧
      ({ exactCode with rip := 0xFFF5#64 } : State).rip = 0xFFF0#64 + BitVec.ofNat 64 5 := by decide +kernel

/-- The same code in a Mode32 state whose CS base is 0. -/
def exactCode32 : State := { base32 with rip := 0xFFF0#64, mem := ready.mem, code := some ⟨0xFFF0#64, 5⟩ }

theorem witness_StepStaysInCode :
    exactCode.cpuMode = .admitted .mode64 ∧ exactCode.code = some ⟨0xFFF0#64, 5⟩ ∧ (∃ t, step exactCode = .next t) ∧
      exactCode32.cpuMode = .admitted .mode32 ∧ (0xFFF0#64).toNat + 5 < 2 ^ 32 ∧ ∃ t, step exactCode32 = .next t :=
  ⟨by decide +kernel, rfl, next_of _ (by decide +kernel), by decide +kernel, by decide, next_of _ (by decide +kernel)⟩

end Sys2Proof.Tests
end

section
/-! SUPPORT. `10_state.md` R28: MXCSR and the x87/MMX state. First the frame of an execution that completes, and when
a change of the state changes an execution in that part only, for any part; then that MXCSR is such a part. -/

namespace Sys2Proof.Proofs

open Sys2Proof.Machine Sys2Proof.Claims

/-! ### What an execution leaves unchanged -/

/-- An instruction that completes changes its destination register and RIP (`10_state.md` R32). -/
theorem exec_next_onlyDest (i : Instr) (s t : State) (h : exec i s = .next t) :
    OnlyDest s t (operandsOf i).dst := by
  rw [exec_eq_run] at h
  obtain ⟨m, -, -, rfl⟩ := run_eq_next _ _ _ _ h
  exact complete_onlyDest m (formOf i) (operandsOf i) s

/-- MXCSR and the x87/MMX registers and words are outside the frame of `OnlyDest` (`10_state.md` R28). -/
theorem floatState_of_onlyDest (s t : State) (d : VReg) (h : OnlyDest s t d) :
    t.mxcsr = s.mxcsr ∧ t.st = s.st ∧ t.fcw = s.fcw ∧ t.fsw = s.fsw ∧ t.ftw = s.ftw := by
  obtain ⟨hframe, -⟩ := h
  rw [hframe]
  exact ⟨rfl, rfl, rfl, rfl, rfl⟩

/-! ### Parts of the state that an execution does not read -/

/-- A stop carries no state, so its outcome has no next state to change (`60_exceptions.md` R165). -/
@[simp] theorem mapNext_stop_outcome (g : State → State) (x : Stop) : mapNext g x.outcome = x.outcome := by
  cases x <;> rfl

/-- A change `g` of the state commutes with an execution when it leaves the operating mode, the stops and the choice
among them, and commutes with the completing update. -/
theorem run_mapNext (f : Form) (o : Operands) (g : State → State) (s : State)
    (horder : (g s).cfg.faultOrder = s.cfg.faultOrder) (hcount : (g s).freeCount = s.freeCount)
    (hmode : (g s).cpuMode = s.cpuMode) (hstops : stops f o (g s) = stops f o s)
    (hcomplete : ∀ m, s.cpuMode = .admitted m → complete m f o (g s) = g (complete m f o s)) :
    run f o (g s) = mapNext g (run f o s) := by
  simp only [run, horder, hcount, hmode, hstops]
  cases chooseStop s.cfg.faultOrder s.freeCount (stops f o s) with
  | some x => simp
  | none =>
    cases hm : s.cpuMode with
    | admitted m => simp [mapNext, hcomplete m hm]
    | unadmitted why => simp [mapNext]

/-! ### No part of an execution reads MXCSR -/

section mxcsr

variable (m : Mode) (f : Form) (o : Operands) (s : State) (v : BitVec 32)

theorem cpuMode_mxcsr : ({ s with mxcsr := v } : State).cpuMode = s.cpuMode := rfl

theorem udCondition_mxcsr : udCondition f o { s with mxcsr := v } = udCondition f o s := rfl

theorem nmStops_mxcsr : nmStops f o { s with mxcsr := v } = nmStops f o s := rfl

/-- Neither segment, effective address nor size of the operand depends on MXCSR. -/
theorem accessOf_mxcsr (x : Mem) : accessOf m f o { s with mxcsr := v } x = accessOf m f o s x := by
  cases x <;> rfl

/-- Nor do translation, alignment checking or the live bytes of an access. -/
theorem memoryStops_mxcsr (c : EvexCtl) (a : Access) :
    memoryStops m f c { s with mxcsr := v } a = memoryStops m f c s a := rfl

theorem operandStops_mxcsr : operandStops m f o { s with mxcsr := v } = operandStops m f o s := by
  cases h : o.rm with
  | reg r => simp only [operandStops, h]
  | mem x => simp only [operandStops, h, accessOf_mxcsr, memoryStops_mxcsr]

theorem stops_mxcsr : stops f o { s with mxcsr := v } = stops f o s := by
  simp only [stops, udStops, udCondition_mxcsr, cpuMode_mxcsr, nmStops_mxcsr, operandStops_mxcsr]

/-- The sources, the old destination, the writemask and the bytes read are all values without MXCSR. -/
theorem newDest_mxcsr : newDest m f o { s with mxcsr := v } = newDest m f o s := rfl

theorem complete_mxcsr : complete m f o { s with mxcsr := v } = { complete m f o s with mxcsr := v } := by
  simp only [complete, newDest_mxcsr]
  rfl

/-- MXCSR changes the outcome of an instruction in MXCSR only (`10_state.md` R28). -/
theorem exec_mxcsr (i : Instr) :
    exec i { s with mxcsr := v } = mapNext (fun t => { t with mxcsr := v }) (exec i s) := by
  simp only [exec_eq_run]
  exact run_mapNext (formOf i) (operandsOf i) (fun t => { t with mxcsr := v }) s rfl rfl
    (cpuMode_mxcsr s v) (stops_mxcsr _ _ s v) fun m _ => complete_mxcsr m _ _ s v

end mxcsr

/-- Settles O42: the x87/MMX state and MXCSR lie outside the frame of a completing execution, and MXCSR is read by
neither the stops nor the completing update. -/
theorem floatStateUntouched : Obligations.FloatStateUntouched := by
  intro i s
  exact ⟨fun t h => floatState_of_onlyDest s t _ (exec_next_onlyDest i s t h), fun v => exec_mxcsr s v i⟩

end Sys2Proof.Proofs
end

section
/-! SUPPORT. The data rules of `20_memory.md`: the byte, dword and qword views of an operand (R43, R44), the linear
address (R45) and canonical form (R40). -/

namespace Sys2Proof.Proofs

open Sys2Proof.Machine

/-! ### The value of an operand as bytes, dwords and qwords -/

section operand

variable (m : Mode) (s : State) (a : Access) (k : Nat)

/-- Byte `k` of an operand stands in bits `8k` to `8k + 7` of the value read (`20_memory.md` R43). -/
theorem extract_readOperand_byte (hk : k < a.size) (hsize : a.size ≤ 64) :
    (readOperand m s a.seg a.ea a.size).extractLsb' (8 * k) 8 = operandByte m s a k := by
  apply BitVec.eq_of_getLsbD_eq
  intro i hi
  have hread : 8 * k + i < 8 * a.size := by omega
  have hbyte : (8 * k + i) / 8 = k := by omega
  have hbit : (8 * k + i) % 8 = i := by omega
  rw [BitVec.getLsbD_extractLsb', readOperand, getLsbD_littleEndian _ _ (by omega), hbyte, hbit]
  simp [hi, hread, operandByte]

/-- The dword that begins at byte `k` is the field that the four bytes fill. -/
theorem extract_readOperand_dword (hk : k + 4 ≤ a.size) (hsize : a.size ≤ 64) :
    (readOperand m s a.seg a.ea a.size).extractLsb' (8 * k) 32 = operandDword m s a k := by
  rw [operandDword, ← extract_readOperand_byte m s a (k + 3) (by omega) hsize,
    ← extract_readOperand_byte m s a (k + 2) (by omega) hsize,
    ← extract_readOperand_byte m s a (k + 1) (by omega) hsize,
    ← extract_readOperand_byte m s a k (by omega) hsize,
    BitVec.extractLsb'_append_extractLsb'_eq_extractLsb' (by omega),
    BitVec.extractLsb'_append_extractLsb'_eq_extractLsb' (by omega),
    BitVec.extractLsb'_append_extractLsb'_eq_extractLsb' (by omega)]

/-- The qword that begins at byte `k` is the field that its two dwords fill (`20_memory.md` R44). -/
theorem extract_readOperand_qword (hk : k + 8 ≤ a.size) (hsize : a.size ≤ 64) :
    (readOperand m s a.seg a.ea a.size).extractLsb' (8 * k) 64 = operandQword m s a k := by
  rw [operandQword, ← extract_readOperand_dword m s a (k + 4) (by omega) hsize,
    ← extract_readOperand_dword m s a k (by omega) hsize,
    BitVec.extractLsb'_append_extractLsb'_eq_extractLsb' (by omega)]

theorem extract_operandQword_low : (operandQword m s a k).extractLsb' 0 32 = operandDword m s a k :=
  BitVec.extractLsb'_append_eq_right

theorem extract_operandQword_high : (operandQword m s a k).extractLsb' 32 32 = operandDword m s a (k + 4) :=
  BitVec.extractLsb'_append_eq_left

end operand

/-- Settles O20: qword element `q` begins at byte `8q`, dword elements `2q` and `2q + 1` at bytes `8q` and `8q + 4`. -/
theorem mixedWidthView : Obligations.MixedWidthView := by
  intro m s a q hq hsize
  have hqword : 64 * q = 8 * (8 * q) := by omega
  have hlow : 32 * (2 * q) = 8 * (8 * q) := by omega
  have hhigh : 32 * (2 * q + 1) = 8 * (8 * q + 4) := by omega
  rw [hqword, hlow, hhigh, extract_operandQword_low, extract_operandQword_high]
  exact ⟨extract_readOperand_qword m s a _ hq hsize, extract_readOperand_dword m s a _ (by omega) hsize,
    extract_readOperand_dword m s a _ (by omega) hsize⟩

/-! ### Linear addresses -/

/-- In Mode64 only FS and GS have a base (`20_memory.md` R45). -/
theorem toNat_segBase_mode64 (s : State) (g : Seg) :
    (segBase .mode64 s g).toNat =
      if g = .fs then s.fs.base.toNat else if g = .gs then s.gs.base.toNat else 0 := by
  cases g <;> rfl

theorem toNat_low32 (x : W64) : (low32 x).toNat = x.toNat % 2 ^ 32 := by
  rw [low32, BitVec.toNat_setWidth_of_le (by decide), BitVec.toNat_setWidth]

theorem toNat_linearAddress_mode64 (s : State) (g : Seg) (ea : W64) :
    (linearAddress .mode64 s g ea).toNat = ((segBase .mode64 s g).toNat + ea.toNat) % 2 ^ 64 :=
  BitVec.toNat_add _ _

theorem toNat_linearAddress_mode32 (s : State) (g : Seg) (ea : W64) :
    (linearAddress .mode32 s g ea).toNat = ((s.seg g).base.toNat + ea.toNat) % 2 ^ 32 := by
  rw [linearAddress, toNat_low32, BitVec.toNat_add, segBase, Nat.mod_mod_of_dvd _ (by decide)]

/-! ### Canonical addresses -/

/-- Every bit from `n` up is a copy of bit `n`. -/
def CopiesFrom (n : Nat) (x : W64) : Prop := ∀ i, n ≤ i → i < 64 → x.getLsbD i = x.getLsbD n

/-- A field that ends at bit 63 equals a value whose bits are all `c` when bits `n` to 63 are `c`. -/
theorem extract_eq_iff_const (n k : Nat) (hn : n + k = 64) (x : W64) (c : Bool) (y : BitVec k)
    (hy : ∀ i, i < k → y.getLsbD i = c) :
    x.extractLsb' n k = y ↔ ∀ i, n ≤ i → i < 64 → x.getLsbD i = c := by
  constructor
  · rintro rfl i hi hlt
    have hbit := hy (i - n) (by omega)
    rw [BitVec.getLsbD_extractLsb', Nat.add_sub_cancel' hi] at hbit
    simpa [show i - n < k by omega] using hbit
  · intro h
    apply BitVec.eq_of_getLsbD_eq
    intro i hi
    rw [BitVec.getLsbD_extractLsb', hy i hi, h (n + i) (by omega) (by omega)]
    simp [hi]

/-- A field that ends at bit 63 is all zeros or all ones exactly when its bits are copies of its lowest one. -/
theorem extract_uniform_iff (n k : Nat) (hk : 0 < k) (hn : n + k = 64) (x : W64) :
    (x.extractLsb' n k = 0#k ∨ x.extractLsb' n k = BitVec.allOnes k) ↔ CopiesFrom n x := by
  rw [extract_eq_iff_const n k hn x false _ (by simp), extract_eq_iff_const n k hn x true _ (by simp)]
  constructor
  · rintro (h | h) i hi hlt
    · rw [h i hi hlt, h n le_rfl (by omega)]
    · rw [h i hi hlt, h n le_rfl (by omega)]
  · intro h
    cases hc : x.getLsbD n with
    | false => exact .inl fun i hi hlt => (h i hi hlt).trans hc
    | true => exact .inr fun i hi hlt => (h i hi hlt).trans hc

/-- The sign bit of the low `n + 1` bits is bit `n`. -/
theorem getLsbD_signExtend_setWidth (n i : Nat) (hi : i < 64) (x : W64) :
    ((x.setWidth (n + 1)).signExtend 64).getLsbD i = if i ≤ n then x.getLsbD i else x.getLsbD n := by
  rw [BitVec.getLsbD_signExtend, BitVec.msb_eq_getLsbD_last, BitVec.getLsbD_setWidth, BitVec.getLsbD_setWidth]
  by_cases h : i ≤ n
  · simp [hi, h, Nat.lt_succ_of_le h]
  · simp [hi, h, show ¬ i < n + 1 by omega]

/-- An address is the sign extension of its low `n + 1` bits exactly when the bits from `n` up are copies of bit `n`. -/
theorem signExtend_setWidth_eq_iff (n : Nat) (x : W64) :
    (x.setWidth (n + 1)).signExtend 64 = x ↔ CopiesFrom n x := by
  constructor
  · intro h i hi hlt
    have hbit := getLsbD_signExtend_setWidth n i hlt x
    rw [h] at hbit
    split at hbit
    · rw [show i = n by omega]
    · exact hbit
  · intro h
    apply BitVec.eq_of_getLsbD_eq
    intro i hi
    rw [getLsbD_signExtend_setWidth n i hi x]
    split
    · rfl
    · exact (h i (by omega) hi).symm

/-- `20_memory.md` R40: canonical form by the sign bit of the implemented address bits. -/
theorem canonical_iff (b : LinearBits) (x : W64) : canonical b x = true ↔ CopiesFrom (linearBits b - 1) x := by
  cases b with
  | lb48 => simpa [canonical, linearBits] using extract_uniform_iff 47 17 (by decide) rfl x
  | lb57 => simpa [canonical, linearBits] using extract_uniform_iff 56 8 (by decide) rfl x

/-- Settles O22. -/
theorem linearAddressRule : Obligations.LinearAddressRule := by
  intro s g ea
  refine ⟨?_, toNat_linearAddress_mode32 s g ea, ?_, ?_⟩
  · rw [toNat_linearAddress_mode64, toNat_segBase_mode64]
  · exact (canonical_iff .lb48 ea).trans (signExtend_setWidth_eq_iff 47 ea).symm
  · exact (canonical_iff .lb57 ea).trans (signExtend_setWidth_eq_iff 56 ea).symm

end Sys2Proof.Proofs
end

section
/-! SUPPORT. `20_memory.md` R55: memory is outside the frame of an execution, and a LOCK among the prefixes of any
instruction is #UD. For LOCK: what one more LOCK changes while prefixes are read, what the decoder answers after it in
each class, and that every encoding is such a byte string. -/

namespace Sys2Proof.Proofs

open Sys2Proof.Machine Sys2Proof.Claims

/-! ### Memory -/

/-- Memory is outside the frame of `OnlyDest`. -/
theorem mem_of_onlyDest (s t : State) (d : VReg) (h : OnlyDest s t d) : t.mem = s.mem := by
  obtain ⟨hframe, -⟩ := h
  rw [hframe]

/-! ### Reading prefixes -/

/-- Every byte of the table of prefixes is read as one of them (`30_encoding.md` R62). -/
theorem prefixOf_of_mem : ∀ b ∈ prefixBytes, ∃ p, prefixOf b = some p := by
  simp only [← Option.isSome_iff_exists]
  decide

theorem readPrefixes_cons_prefix {x : Byte} {p : PfxByte} (hx : prefixOf x = some p) (a : PfxSet) (bs : List Byte) :
    readPrefixes a (x :: bs) = (addPrefix a p).bind fun a' => readPrefixes a' bs := by
  rw [readPrefixes, hx]
  cases h : addPrefix a p <;> simp [h]

theorem readPrefixes_cons_other {x : Byte} (hx : prefixOf x = none) (a : PfxSet) (bs : List Byte) :
    readPrefixes a (x :: bs) = some (a, x :: bs) := by
  rw [readPrefixes, hx]

/-- The prefixes of an encoding (`30_encoding.md` R60), read: `opSize` says whether the 66 of the legacy class is one. -/
def encodedPrefixes (p : Pfx) (opSize : Bool) : PfxSet := ⟨opSize, p.addr, p.seg, false, false⟩

theorem prefixOf_segByte (g : Seg) : prefixOf (segByte g) = some (.segment g) := by
  cases g <;> decide

theorem readPrefixes_encodePfx (p : Pfx) (bs : List Byte) :
    readPrefixes noPrefixes (encodePfx p ++ bs) = readPrefixes (encodedPrefixes p false) bs := by
  have haddr : prefixOf 0x67#8 = some .addrSize := by decide
  obtain ⟨seg, addr⟩ := p
  cases seg <;> cases addr <;>
    simp [encodePfx, readPrefixes_cons_prefix, prefixOf_segByte, haddr, addPrefix, noPrefixes, encodedPrefixes]

/-! ### One more LOCK -/

/-- The prefixes read, with a LOCK. -/
def withLock (a : PfxSet) : PfxSet := { a with lock := true }

/-- Any byte that is no LOCK is added to a set with LOCK as to the set without. -/
theorem addPrefix_withLock {a a' : PfxSet} {p : PfxByte} (h : addPrefix a p = some a') (hfree : a'.lock = false) :
    a.lock = false ∧ addPrefix (withLock a) p = some (withLock a') := by
  cases p <;> obtain ⟨hnew, rfl⟩ : _ ∧ _ := by simpa [addPrefix] using h
  case lock => simp at hfree
  all_goals exact ⟨hfree, by simp [addPrefix, withLock, hnew]⟩

/-- Where no LOCK is read, a LOCK read before stays and changes nothing else. -/
theorem readPrefixes_withLock {bs rest : List Byte} {a b : PfxSet} (h : readPrefixes a bs = some (b, rest))
    (hfree : b.lock = false) : a.lock = false ∧ readPrefixes (withLock a) bs = some (withLock b, rest) := by
  induction bs generalizing a with
  | nil =>
    cases h
    exact ⟨hfree, rfl⟩
  | cons x bs ih =>
    cases hx : prefixOf x with
    | none =>
      rw [readPrefixes_cons_other hx] at h
      cases h
      exact ⟨hfree, readPrefixes_cons_other hx _ _⟩
    | some p =>
      rw [readPrefixes_cons_prefix hx] at h ⊢
      obtain ⟨a', hadd, hread⟩ := Option.bind_eq_some_iff.mp h
      obtain ⟨hfree', hread'⟩ := ih hread
      obtain ⟨hfreeA, hadd'⟩ := addPrefix_withLock hadd hfree'
      exact ⟨hfreeA, by rw [hadd']; exact hread'⟩

/-- A LOCK inserted among prefixes is one more of them, and changes nothing else. -/
theorem readPrefixes_insert_lock {pre post rest : List Byte} {a b : PfxSet} (hpre : ∀ x ∈ pre, x ∈ prefixBytes)
    (h : readPrefixes a (pre ++ post) = some (b, rest)) (hfree : b.lock = false) :
    readPrefixes a (pre ++ 0xF0#8 :: post) = some (withLock b, rest) := by
  induction pre generalizing a with
  | nil =>
    obtain ⟨hfreeA, hread⟩ := readPrefixes_withLock h hfree
    have hlock : prefixOf 0xF0#8 = some .lock := by decide
    have hadd : addPrefix a .lock = some (withLock a) := by simp [addPrefix, hfreeA, withLock]
    rw [List.nil_append, readPrefixes_cons_prefix hlock, hadd]
    exact hread
  | cons x pre ih =>
    obtain ⟨hx, hpre⟩ := List.forall_mem_cons.mp hpre
    obtain ⟨p, hp⟩ := prefixOf_of_mem x hx
    rw [List.cons_append, readPrefixes_cons_prefix hp] at h ⊢
    obtain ⟨a', hadd, hread⟩ := Option.bind_eq_some_iff.mp h
    rw [hadd]
    exact ih hpre hread

/-- Its prefixes hold no LOCK and no refused 67, and what follows them is #UD after a LOCK. -/
def LockIsUd (m : Mode) (bs : List Byte) : Prop :=
  ∃ a body, readPrefixes noPrefixes bs = some (a, body) ∧ a.lock = false ∧ (m = .mode32 → a.addr = false) ∧
    decodeBody m (withLock a) body = .invalidOpcode

theorem decode_insert_lock {m : Mode} {pre post : List Byte} (hpre : ∀ x ∈ pre, x ∈ prefixBytes)
    (h : LockIsUd m (pre ++ post)) : decode m (pre ++ 0xF0#8 :: post) = .invalidOpcode := by
  obtain ⟨a, body, hread, hfree, haddr, hbody⟩ := h
  have hadmit : ¬ (m = .mode32 ∧ (withLock a).addr = true) := fun ⟨hm, h67⟩ => by
    simp [withLock, haddr hm] at h67
  rw [decode, readPrefixes_insert_lock hpre hread hfree]
  simp only [if_neg hadmit, hbody]

/-! ### The decoder after a LOCK, by class -/

/-- LOCK before a VEX or EVEX escape (`30_encoding.md` R85, R87). -/
theorem decodeBody_lock_escape {m : Mode} {a : PfxSet} {c b : Byte} {bs : List Byte} (hc : c = 0xC4#8 ∨ c = 0x62#8)
    (hesc : escapeHolds m (b :: bs) = true) : decodeBody m (withLock a) (c :: b :: bs) = .invalidOpcode := by
  obtain rfl | rfl := hc <;> simp [decodeBody, hesc, illegalBeforeVex, withLock]

/-- LOCK before the escape of the legacy class (`30_encoding.md` R86). -/
theorem decodeLegacy_lock (p : Pfx) (rex : Option Byte) (bs : List Byte) :
    decodeLegacy (withLock (encodedPrefixes p true)) rex (0x38#8 :: 0x40#8 :: bs) = .invalidOpcode := by
  simp [decodeLegacy, withLock, encodedPrefixes]

theorem decodeBody_escape0F (m : Mode) (a : PfxSet) (bs : List Byte) :
    decodeBody m a (0x0F#8 :: bs) = decodeLegacy a none bs := by
  have hrex : fld 0x0F#8 4 4 ≠ 4#4 := by decide
  simp [decodeBody, hrex]

/-- A REX byte in Mode64 (`30_encoding.md` R63). -/
theorem decodeBody_rex (a : PfxSet) (c : Byte) (bs : List Byte) (hc : fld c 4 4 = 4#4) :
    decodeBody .mode64 a (c :: 0x0F#8 :: bs) = decodeLegacy a (some c) bs := by
  have hvex : c ≠ 0xC4#8 := by rintro rfl; exact absurd hc (by decide)
  have hevex : c ≠ 0x62#8 := by rintro rfl; exact absurd hc (by decide)
  simp [decodeBody, decodeRex, hc, hvex, hevex]

theorem fld_rexByte (r x b : Bool) : fld (rexByte r x b) 4 4 = 4#4 := by
  revert r x b
  decide

/-! ### Register numbers below 8 in Mode32 -/

theorem numBit_eq_false {n i : Nat} (h : n < 2 ^ i) : numBit n i = false := Nat.testBit_lt_two_pow h

/-- Mode32 names eight vector registers (`10_state.md` R21). -/
theorem nameableRegs_mode32 (cls : EncClass) : nameableRegs cls .mode32 = 8 := by
  cases cls <;> rfl

theorem indexX_mode32 {i : Option GReg} (h : wfIndex .mode32 i = true) : indexX i = false := by
  cases i with
  | none => rfl
  | some i =>
    simp only [wfIndex, nameableGprs, Bool.and_eq_true] at h
    obtain ⟨-, hi⟩ := h
    exact numBit_eq_false (of_decide_eq_true hi)

/-- No operand needs the `X` bit in Mode32 (`30_encoding.md` R69, R73). -/
theorem rmX_mode32 {cls : EncClass} {r : RM} (h : wfRM cls .mode32 r = true) : rmX r = false := by
  cases r with
  | reg r =>
    have hr : r.val < 8 := by simpa [wfRM, nameableRegs_mode32] using h
    exact numBit_eq_false (by omega)
  | mem x =>
    cases x with
    | disp32 d => rfl
    | base b d => rfl
    | sib b i sc d =>
      have hi : wfIndex .mode32 i = true := by simp_all [wfRM, wfMem]
      exact indexX_mode32 hi
    | sibNoBase i sc d => exact indexX_mode32 h

/-- The first byte after C4 or 62 has the inverted `R` and `X` on top: all an escape needs in Mode32
(`30_encoding.md` R69, R73). -/
theorem escapeHolds_of_fields {m : Mode} {cls : EncClass} {d : VReg} {r : RM} {b : Byte} (bs : List Byte)
    (hb : fld b 6 2 = b1 (!numBit d.val 3) ++ b1 (!rmX r)) (hd : d.val < nameableRegs cls m)
    (hr : wfRM cls m r = true) : escapeHolds m (b :: bs) = true := by
  cases m with
  | mode64 => rfl
  | mode32 =>
    rw [nameableRegs_mode32] at hd
    rw [numBit_eq_false (i := 3) hd, rmX_mode32 hr] at hb
    simp [escapeHolds, hb, b1]

theorem fld_vexP1 (r x b : Bool) : fld (vexP1 r x b) 6 2 = b1 (!r) ++ b1 (!x) := by
  revert r x b
  decide

theorem fld_evexP0 (r x b r' : Bool) : fld (evexP0 r x b r') 6 2 = b1 (!r) ++ b1 (!x) := by
  revert r x b r'
  decide

/-! ### Every encoding -/

/-- A well-formed instruction has no 67 in Mode32 (`30_encoding.md` R88). -/
theorem addr_of_wfPfx {m : Mode} {p : Pfx} (h : wfPfx m p = true) : m = .mode32 → p.addr = false := by
  rintro rfl
  simpa [wfPfx] using h

theorem prefixOf_rexByte (r x b : Bool) : prefixOf (rexByte r x b) = none := by
  revert r x b
  decide

/-- The prefixes of a legacy form end with the 66 (`30_encoding.md` R60, R61). -/
theorem readPrefixes_legacy {c : Byte} (hc : prefixOf c = none) (p : Pfx) (bs : List Byte) :
    readPrefixes noPrefixes (encodePfx p ++ 0x66#8 :: c :: bs) = some (encodedPrefixes p true, c :: bs) := by
  have h66 : prefixOf 0x66#8 = some .opSize := by decide
  rw [readPrefixes_encodePfx, readPrefixes_cons_prefix h66]
  exact readPrefixes_cons_other hc _ _

theorem lockIsUd_encodeLegacy {m : Mode} {p : Pfx} {rex : Bool} {d : VReg} {r : RM} (rest : List Byte)
    (h : wfLegacy m p rex d r = true) : LockIsUd m (encodeLegacy p rex d r ++ rest) := by
  simp only [wfLegacy, Bool.and_eq_true] at h
  obtain ⟨⟨⟨hp, -⟩, -⟩, hrex⟩ := h
  cases rex with
  | false =>
    refine ⟨encodedPrefixes p true, 0x0F#8 :: 0x38#8 :: 0x40#8 :: (encodeRM (low3 d.val) r ++ rest), ?_, rfl,
      addr_of_wfPfx hp, ?_⟩
    · simpa [encodeLegacy] using readPrefixes_legacy (by decide) p _
    · rw [decodeBody_escape0F, decodeLegacy_lock]
  | true =>
    obtain rfl : m = .mode64 := by simpa using hrex
    refine ⟨encodedPrefixes p true, rexByte (numBit d.val 3) (rmX r) (rmB r) :: 0x0F#8 :: 0x38#8 :: 0x40#8 ::
      (encodeRM (low3 d.val) r ++ rest), ?_, rfl, addr_of_wfPfx hp, ?_⟩
    · simpa [encodeLegacy] using readPrefixes_legacy (prefixOf_rexByte _ _ _) p _
    · rw [decodeBody_rex _ _ _ (fld_rexByte _ _ _), decodeLegacy_lock]

/-- The VEX and EVEX forms: the optional prefixes, then the escape. -/
theorem lockIsUd_escape {m : Mode} {p : Pfx} {c b : Byte} {bs : List Byte} (hp : wfPfx m p = true)
    (hc : c = 0xC4#8 ∨ c = 0x62#8) (hesc : escapeHolds m (b :: bs) = true) :
    LockIsUd m (encodePfx p ++ c :: b :: bs) := by
  have hother : prefixOf c = none := by
    obtain rfl | rfl := hc <;> decide
  exact ⟨encodedPrefixes p false, c :: b :: bs, by rw [readPrefixes_encodePfx, readPrefixes_cons_other hother], rfl,
    addr_of_wfPfx hp, decodeBody_lock_escape hc hesc⟩

theorem lockIsUd_encodeVex {m : Mode} {p : Pfx} {d a : VReg} {r : RM} (l : Bool) (rest : List Byte)
    (h : wfVex m p d a r = true) : LockIsUd m (encodeVex l p d a r ++ rest) := by
  simp only [wfVex, Bool.and_eq_true, decide_eq_true_eq] at h
  obtain ⟨⟨⟨hp, hd⟩, -⟩, hr⟩ := h
  simpa [encodeVex] using lockIsUd_escape hp (.inl rfl) (escapeHolds_of_fields _ (fld_vexP1 _ _ _) hd hr)

theorem lockIsUd_encodeEvex {m : Mode} {p : Pfx} {c : EvexCtl} {d a : VReg} {r : RM} (w : Bool) (ll : BitVec 2)
    (rest : List Byte) (h : wfEvex m p c d a r = true) : LockIsUd m (encodeEvex w ll p c d a r ++ rest) := by
  simp only [wfEvex, Bool.and_eq_true, decide_eq_true_eq] at h
  obtain ⟨⟨⟨⟨hp, hd⟩, -⟩, hr⟩, -⟩ := h
  simpa [encodeEvex] using lockIsUd_escape hp (.inr rfl) (escapeHolds_of_fields _ (fld_evexP0 _ _ _ _) hd hr)

theorem lockIsUd_encode {m : Mode} (i : Instr) (rest : List Byte) (h : i.wellFormed m = true) :
    LockIsUd m (encode i ++ rest) := by
  cases i with
  | pmulld p rex d r => exact lockIsUd_encodeLegacy rest h
  | vpmulldVex128 p d a r => exact lockIsUd_encodeVex _ rest h
  | vpmulldVex256 p d a r => exact lockIsUd_encodeVex _ rest h
  | vpmulldEvex128 p c d a r => exact lockIsUd_encodeEvex _ _ rest h
  | vpmulldEvex256 p c d a r => exact lockIsUd_encodeEvex _ _ rest h
  | vpmulldEvex512 p c d a r => exact lockIsUd_encodeEvex _ _ rest h
  | vpmullqEvex128 p c d a r => exact lockIsUd_encodeEvex _ _ rest h
  | vpmullqEvex256 p c d a r => exact lockIsUd_encodeEvex _ _ rest h
  | vpmullqEvex512 p c d a r => exact lockIsUd_encodeEvex _ _ rest h

/-- Settles O41: memory lies outside the frame of a completing execution, and every encoding is #UD with a LOCK among
its prefixes. -/
theorem noMemoryWrite : Obligations.NoMemoryWrite := by
  refine ⟨fun i s t h x => ?_, fun m i pre post rest hwf hsplit hpre => ?_⟩
  · rw [mem_of_onlyDest s t _ (exec_next_onlyDest i s t h)]
  · have hlock : LockIsUd m (pre ++ (post ++ rest)) := by
      rw [← List.append_assoc, ← hsplit]
      exact lockIsUd_encode i rest hwf
    simpa using decode_insert_lock hpre hlock

end Sys2Proof.Proofs
end

section
/-! SUPPORT. `30_encoding.md` R68: VEX.W is bit 7 of `P2`. Legacy prefixes are read alike whatever byte they stand
before, and the VEX class reads only the bits of `P2` below W. -/

namespace Sys2Proof.Proofs

open Sys2Proof.Claims

/-! ### Prefixes before any other byte -/

/-- Reading prefixes stops at the first byte that is none, and what follows has no part in what was read
(`30_encoding.md` R89 step 1). -/
theorem readPrefixes_append_other {pre : List Byte} {c : Byte} (hpre : ∀ x ∈ pre, x ∈ prefixBytes)
    (hc : prefixOf c = none) (a : PfxSet) (bs : List Byte) :
    readPrefixes a (pre ++ c :: bs) = (readPrefixes a pre).map fun r => (r.1, c :: bs) := by
  induction pre generalizing a with
  | nil => exact readPrefixes_cons_other hc a bs
  | cons x pre ih =>
    obtain ⟨hx, hpre⟩ := List.forall_mem_cons.mp hpre
    obtain ⟨p, hp⟩ := prefixOf_of_mem x hx
    rw [List.cons_append, readPrefixes_cons_prefix hp, readPrefixes_cons_prefix hp, Option.map_bind]
    exact Option.bind_congr fun a' _ => ih hpre a'

/-- Byte strings that decode alike after any prefixes read decode alike after prefix bytes. -/
theorem decode_prefixes_congr {m : Mode} {pre bs bs' : List Byte} {c c' : Byte} (hpre : ∀ x ∈ pre, x ∈ prefixBytes)
    (hc : prefixOf c = none) (hc' : prefixOf c' = none)
    (hbody : ∀ a, decodeBody m a (c :: bs) = decodeBody m a (c' :: bs')) :
    decode m (pre ++ c :: bs) = decode m (pre ++ c' :: bs') := by
  rw [decode, decode, readPrefixes_append_other hpre hc, readPrefixes_append_other hpre hc']
  cases readPrefixes noPrefixes pre with
  | none => rfl
  | some r => simp only [Option.map_some, hbody]

/-! ### Bytes with the same low bits -/

section lowBits

variable {p q : Byte} {k : Nat} (h : fld p 0 k = fld q 0 k)
include h

theorem bit_eq_of_low {i : Nat} (hi : i < k) : bit p i = bit q i := by
  have hbit := congrArg (fun x => x.getLsbD i) h
  simpa [fld, bit, hi] using hbit

theorem fld_eq_of_low {lo n : Nat} (hn : lo + n ≤ k) : fld p lo n = fld q lo n := by
  apply BitVec.eq_of_getLsbD_eq
  intro i hi
  have hbit : p.getLsbD (lo + i) = q.getLsbD (lo + i) := bit_eq_of_low h (by omega)
  simp only [fld, BitVec.getLsbD_extractLsb', hbit]

end lowBits

theorem fld_setBit7 (b : Byte) : fld (b ||| 0x80#8) 0 7 = fld b 0 7 := by
  have hmask : (0x80#8).extractLsb' 0 7 = 0#7 := by decide
  rw [fld, BitVec.extractLsb'_or, hmask, BitVec.or_zero, fld]

theorem fld_clearBit7 (b : Byte) : fld (b &&& 0x7F#8) 0 7 = fld b 0 7 := by
  have hmask : (0x7F#8).extractLsb' 0 7 = BitVec.allOnes 7 := by decide
  rw [fld, BitVec.extractLsb'_and, hmask, BitVec.and_allOnes, fld]

/-! ### The VEX class without W -/

section vexW

variable {p2 q2 : Byte} (h : fld p2 0 7 = fld q2 0 7) (m : Mode) (a : PfxSet) (p1 : Byte) (bs : List Byte)
include h

/-- Of `P2` the operands take `L`, `vvvv` and, for Mode32, bit 6 (`30_encoding.md` R65 to R69). -/
theorem decodeVexTail_congr_p2 : decodeVexTail m a p1 p2 bs = decodeVexTail m a p1 q2 bs := by
  have hok : vexOk32 p1 p2 = vexOk32 p1 q2 := by
    rw [vexOk32, vexOk32, bit_eq_of_low h (by decide)]
  have hvvvv : fld p2 3 4 = fld q2 3 4 := fld_eq_of_low h (by decide)
  have hl : bit p2 2 = bit q2 2 := bit_eq_of_low h (by decide)
  cases bs with
  | nil => rfl
  | cons op bs => simp only [decodeVexTail, hok, hvvvv, hl]

theorem decodeVex_congr_p2 : decodeVex m a (p1 :: p2 :: bs) = decodeVex m a (p1 :: q2 :: bs) := by
  have hpp : fld p2 0 2 = fld q2 0 2 := fld_eq_of_low h (by decide)
  simp only [decodeVex, hpp, decodeVexTail_congr_p2 h]

/-- The escape is told by `P1` alone (`30_encoding.md` R69), and C4 is no REX byte where it fails. -/
theorem decodeBody_vex_congr_p2 :
    decodeBody m a (0xC4#8 :: p1 :: p2 :: bs) = decodeBody m a (0xC4#8 :: p1 :: q2 :: bs) := by
  have hrex : fld 0xC4#8 4 4 ≠ 4#4 := by decide
  simp [decodeBody, escapeHolds, hrex, decodeVex_congr_p2 h]

end vexW

/-- Settles O12: the two bytes `P2` differ in bit 7 only. -/
theorem vexWIgnored : Obligations.VexWIgnored := by
  intro m pre rest p1 p2 hpre
  have hlow : fld (p2 ||| 0x80#8) 0 7 = fld (p2 &&& 0x7F#8) 0 7 :=
    (fld_setBit7 p2).trans (fld_clearBit7 p2).symm
  have hesc : prefixOf 0xC4#8 = none := by decide
  simpa using decode_prefixes_congr hpre hesc hesc fun a => decodeBody_vex_congr_p2 hlow m a p1 rest

end Sys2Proof.Proofs
end

section
/-! SUPPORT. `40_common_lane_arithmetic.md`: the lane product as the product of the ring of words (R100, R101), and the
bits of the destination above the vector length (R107). -/

namespace Sys2Proof.Proofs

open Sys2Proof.Machine Sys2Proof.Claims

/-! ### The lane product -/

/-- The exact signed product, cut to the width, is the product modulo `2 ^ w` (`40_common_lane_arithmetic.md` R100,
R102). -/
theorem mullo_eq_mul {w : Nat} (a b : BitVec w) : mullo a b = a * b := by
  rw [mullo, BitVec.ofInt_mul, BitVec.ofInt_toInt, BitVec.ofInt_toInt]

/-- The exact unsigned product, cut to the width, is the same product (`40_common_lane_arithmetic.md` R101). -/
theorem ofNat_toNat_mul_toNat {w : Nat} (a b : BitVec w) : BitVec.ofNat w (a.toNat * b.toNat) = a * b := by
  rw [BitVec.ofNat_mul, BitVec.ofNat_toNat, BitVec.ofNat_toNat, BitVec.setWidth_eq, BitVec.setWidth_eq]

/-- Settles O18: both readings of the factors give the product modulo `2 ^ w`. -/
theorem laneProductUnsigned : Obligations.LaneProductUnsigned := by
  intro w a b
  exact ⟨(mullo_eq_mul a b).trans (ofNat_toNat_mul_toNat a b).symm, rfl⟩

/-! ### Bits above the vector length -/

/-- The two readings of MAXVL agree (`00_scope.md` R6). -/
theorem maxVl_eq_maxvl (x : Feat) : maxVl x = maxvl x := rfl

/-- No MAXVL is larger than a register (`00_scope.md` R6). -/
theorem maxvl_le (x : Feat) : maxvl x ≤ 512 := by
  unfold maxvl
  split
  · decide
  · split <;> decide

/-- Only the legacy class keeps the upper bits (`40_common_lane_arithmetic.md` R107). -/
theorem keepsUpper_eq_decide (f : Form) : keepsUpper f = decide (f.cls = .legacy) := by
  unfold keepsUpper
  cases f.cls <;> rfl

/-- Each bit of the destination from VL up, after an instruction that completes: cleared below MAXVL unless the class
keeps it (`40_common_lane_arithmetic.md` R107). -/
theorem exec_next_getLsbD_above (i : Instr) (s t : State) (h : exec i s = .next t) (n : Nat) (hn : n < 512)
    (hvl : vlenBits (formOf i).vlen ≤ n) :
    (t.readZmm (operandsOf i).dst).getLsbD n =
      if keepsUpper (formOf i) = false ∧ n < maxvl s.cfg.feat then false
      else (s.readZmm (operandsOf i).dst).getLsbD n := by
  rw [exec_eq_run] at h
  obtain ⟨m, -, -, rfl⟩ := run_eq_next _ _ _ _ h
  rw [complete_readZmm_dst, newDest, getLsbD_vMulLo_above _ _ _ _ _ _ _ _ _ n hn hvl, maxVl_eq_maxvl]

/-- Settles O37: the bits from VL up to MAXVL, by the class. -/
theorem upperBitsRule : Obligations.UpperBitsRule := by
  intro i s t n h hvl hmax
  have hbit := exec_next_getLsbD_above i s t h n (hmax.trans_le (maxvl_le _)) hvl
  rw [keepsUpper_eq_decide] at hbit
  constructor
  · intro hlegacy
    rw [hbit, if_neg (by simp [hlegacy])]
  · intro hother
    rw [hbit, if_pos (by simp [hother, hmax])]

end Sys2Proof.Proofs
end

section
/-! SUPPORT. `60_exceptions.md` R151 to R154: the #UD conditions as the model tests them and as the rules list them, bit
by bit, and the outcomes #UD and #NM under the fixed order of R163. -/

namespace Sys2Proof.Proofs

open Sys2Proof.Machine Sys2Proof.Claims

/-! ### The #UD conditions, one by one -/

/-- The feature flags of a row (`00_scope.md` R2, R3). -/
theorem featOk_iff_featureOn (f : Form) (x : Feat) : featOk f x = true ↔ FeatureOn f x := by
  obtain ⟨cls, elem, vlen⟩ := f
  cases cls with
  | legacy => rfl
  | vex => cases vlen <;> rfl
  | evex => cases elem <;> cases vlen <;> simp [featOk, FeatureOn, and_comm]

/-- A field of a register is all ones exactly when each of its bits is 1. -/
theorem extractLsb'_eq_allOnes_iff (x : W64) (lo n : Nat) :
    x.extractLsb' lo n = BitVec.allOnes n ↔ ∀ i < n, x.getLsbD (lo + i) = true := by
  rw [BitVec.eq_of_getLsbD_eq_iff]
  exact forall₂_congr fun i hi => by simp [hi]

/-- XCR0[2:1] = 11b (`70_reset_and_hazards.md` R182). -/
theorem xcrAvx_iff (s : State) : s.xcrAvx = true ↔ s.xcr0.getLsbD 1 = true ∧ s.xcr0.getLsbD 2 = true := by
  calc s.xcrAvx = true ↔ s.xcr0.extractLsb' 1 2 = BitVec.allOnes 2 := beq_iff_eq
    _ ↔ ∀ i < 2, s.xcr0.getLsbD (1 + i) = true := extractLsb'_eq_allOnes_iff _ _ _
    _ ↔ _ := by simp only [Nat.forall_lt_succ_left, Nat.not_lt_zero, false_imp_iff, implies_true, and_true]

/-- XCR0[7:5] = 111b (`70_reset_and_hazards.md` R183). -/
theorem xcrAvx512_iff (s : State) :
    s.xcrAvx512 = true ↔ s.xcr0.getLsbD 5 = true ∧ s.xcr0.getLsbD 6 = true ∧ s.xcr0.getLsbD 7 = true := by
  calc s.xcrAvx512 = true ↔ s.xcr0.extractLsb' 5 3 = BitVec.allOnes 3 := beq_iff_eq
    _ ↔ ∀ i < 3, s.xcr0.getLsbD (5 + i) = true := extractLsb'_eq_allOnes_iff _ _ _
    _ ↔ _ := by simp only [Nat.forall_lt_succ_left, Nat.not_lt_zero, false_imp_iff, implies_true, and_true]

/-- The control state that gates a class (`70_reset_and_hazards.md` R181 to R183). -/
theorem classEnabled_iff_classOn (c : EncClass) (s : State) : classEnabled c s = true ↔ ClassOn c s := by
  cases c with
  | legacy => simp [classEnabled, ClassOn, State.em, State.osfxsr]
  | vex => simp [classEnabled, ClassOn, State.osxsave, xcrAvx_iff]
  | evex => simp [classEnabled, ClassOn, State.osxsave, xcrAvx_iff, xcrAvx512_iff, and_assoc]

/-- The reserved combinations of the EVEX controls (`30_encoding.md` R85). -/
theorem wfCtl_iff_not_reservedCtl (c : EvexCtl) (r : RM) : wfCtl c r = true ↔ ¬ ReservedCtl c r := by
  have haaa : c.aaa.val = 0 ↔ c.aaa = 0 := Fin.val_eq_zero_iff
  cases r <;> simp [wfCtl, ReservedCtl, haaa, imp_iff_not_or]

/-- No #UD condition holds, as the model tests it and as R151 to R153 list it. -/
theorem udCondition_eq_false_iff_noUd (i : Instr) (s : State) :
    udCondition (formOf i) (operandsOf i) s = false ↔ NoUd i s := by
  rw [udCondition_eq_false, featOk_iff_featureOn, classEnabled_iff_classOn, wfCtl_iff_not_reservedCtl, NoUd]

/-! ### #UD and #NM under the fixed order -/

/-- Under the fixed order the stop that stands first is the outcome (`60_exceptions.md` R163). -/
theorem exec_of_first_stop {i : Instr} {s : State} {x : Stop} {l : List Stop} (hfixed : s.cfg.faultOrder = .fixed)
    (hstops : stops (formOf i) (operandsOf i) s = x :: l) : exec i s = x.outcome := by
  rw [exec_eq_run]
  exact run_of_stop _ _ _ _ (by rw [hfixed, chooseStop_fixed, hstops, List.head?_cons])

/-- #UD stands before every other stop, in every mode (`60_exceptions.md` R163, step 1). -/
theorem exec_of_not_noUd {i : Instr} {s : State} (hfixed : s.cfg.faultOrder = .fixed) (hud : ¬ NoUd i s) :
    exec i s = .fault .invalidOpcode := by
  rw [← udCondition_eq_false_iff_noUd, Bool.not_eq_false] at hud
  exact exec_of_first_stop hfixed (by rw [stops, udStops, hud, stopIf_true, List.singleton_append])

/-- #NM stands first where no #UD condition holds, in an admitted mode (`60_exceptions.md` R163, step 2; log 9). -/
theorem exec_of_noUd_of_ts {m : Mode} {i : Instr} {s : State} (hfixed : s.cfg.faultOrder = .fixed)
    (hm : s.cpuMode = .admitted m) (hts : s.ts = true) (hud : NoUd i s) :
    exec i s = .fault .deviceNotAvailable := by
  rw [← udCondition_eq_false_iff_noUd] at hud
  have hstops : stops (formOf i) (operandsOf i) s =
      .fault .deviceNotAvailable :: operandStops m (formOf i) (operandsOf i) s := by
    simp [stops, udStops, nmStops, hm, hts, hud]
  exact exec_of_first_stop hfixed hstops

/-! ### The rules -/

/-- PMULLD has no reserved controls, so its #UD conditions at execution are three (`60_exceptions.md` R151). -/
theorem not_noUd_pmulld {p : Pfx} {rex : Bool} {d : VReg} {r : RM} {s : State}
    (h : s.cfg.feat.sse41 = false ∨ s.cr0.getLsbD 2 = true ∨ s.cr4.getLsbD 9 = false) :
    ¬ NoUd (.pmulld p rex d r) s := by
  rintro ⟨hfeat : s.cfg.feat.sse41 = true, ⟨hem : s.cr0.getLsbD 2 = false, hosfxsr : s.cr4.getLsbD 9 = true⟩, -⟩
  simp only [hfeat, hem, hosfxsr, reduceCtorEq, or_self] at h

/-- Settles O47: the three conditions at execution, and a LOCK as for every encoding. -/
theorem legacyUd : Obligations.LegacyUd := by
  refine ⟨fun p rex d r s hfixed h => exec_of_not_noUd hfixed (not_noUd_pmulld h),
    fun m p rex d r pre post rest hwf hsplit hpre => ?_⟩
  obtain ⟨-, hlock⟩ := noMemoryWrite
  exact hlock m (.pmulld p rex d r) pre post rest hwf hsplit hpre

/-- Settles O50: #NM stands first. -/
theorem nmRule : Obligations.NmRule :=
  fun _ _ _ hfixed hm hts hud => exec_of_noUd_of_ts hfixed hm hts hud

end Sys2Proof.Proofs
end

section
/-! SUPPORT. The frame of an execution and of a step (`10_state.md` R25, R32), and the machine invariant: an
available vector length lies within MAXVL, the destination has no bit from MAXVL up, and RIP stays in 32 bits in
Mode32. -/

namespace Sys2Proof.Proofs

open Sys2Proof.Machine Sys2Proof.Claims

/-! ### Executions that complete -/

/-- All that an execution that completes does: nothing stopped it, in an admitted mode, and its next state is
`complete`. -/
theorem exec_eq_next {i : Instr} {s t : State} (h : exec i s = .next t) :
    ∃ m, s.cpuMode = .admitted m ∧ stops (formOf i) (operandsOf i) s = [] ∧
      t = complete m (formOf i) (operandsOf i) s := by
  rw [exec_eq_run] at h
  exact run_eq_next _ _ _ _ h

/-- The operands carry the instruction length of `30_encoding.md` R84. -/
theorem operandsOf_len (i : Instr) : (operandsOf i).len = instrLen i := by
  cases i <;> rfl

/-- RIP advances modulo 2^64 in Mode64, modulo 2^32 in Mode32 (`10_state.md` R25). -/
def ripModulus : Mode → Nat
  | .mode64 => 2 ^ 64
  | .mode32 => 2 ^ 32

theorem toNat_nextRip (m : Mode) (s : State) (n : Nat) : (nextRip m s n).toNat = (s.rip.toNat + n) % ripModulus m := by
  cases m with
  | mode64 => simp [nextRip, ripModulus]
  | mode32 =>
    rw [nextRip, toNat_low32, BitVec.toNat_add, BitVec.toNat_ofNat, ripModulus]
    omega

theorem ripAdvanced_complete (m : Mode) (i : Instr) (s : State) :
    RipAdvanced m s (complete m (formOf i) (operandsOf i) s) (instrLen i) := by
  have hrip := toNat_nextRip m s (instrLen i)
  rw [← operandsOf_len] at hrip ⊢
  cases m <;> exact hrip

/-- An instruction that completes does so in an admitted mode, and advances RIP by its length (`10_state.md` R25). -/
theorem exec_next_ripAdvanced {i : Instr} {s t : State} (h : exec i s = .next t) :
    ∃ m, s.cpuMode = .admitted m ∧ RipAdvanced m s t (instrLen i) := by
  obtain ⟨m, hm, -, rfl⟩ := exec_eq_next h
  exact ⟨m, hm, ripAdvanced_complete m i s⟩

/-- Settles O40: the frame of the completing update, for the one instruction that a step runs. -/
theorem frameRule : Obligations.FrameRule := by
  refine ⟨fun i s t h => ⟨exec_next_onlyDest i s t h, exec_next_ripAdvanced h⟩, fun s t h => ?_⟩
  obtain ⟨-, i, -, -, -, -, hexec⟩ := step_eq_next s t h
  exact ⟨(operandsOf i).dst, exec_next_onlyDest i s t hexec⟩

/-! ### The invariant -/

/-- Under the feature closure an available vector length lies within MAXVL (`00_scope.md` R6, D2, D3). -/
theorem vlenBits_le_maxVl {i : Instr} {x : Feat} (hfeat : FeatureOn (formOf i) x) (hclosed : featClosed x = true) :
    vlenBits (formOf i).vlen ≤ maxVl x := by
  simp only [featClosed, Bool.and_eq_true, Bool.or_eq_true, Bool.not_eq_true'] at hclosed
  obtain ⟨⟨⟨⟨havx2, -⟩, -⟩, -⟩, hdq⟩ := hclosed
  cases i with
  | pmulld | vpmulldVex128 | vpmulldEvex128 | vpmullqEvex128 =>
    simp only [formOf, vlenBits, maxVl]
    split_ifs <;> decide
  | vpmulldVex256 =>
    have havx : x.avx = true := by simpa [show x.avx2 = true from hfeat] using havx2
    simp only [formOf, vlenBits, maxVl, havx]
    split_ifs <;> decide
  | vpmulldEvex256 | vpmulldEvex512 =>
    simp [formOf, vlenBits, maxVl, show x.avx512f = true from hfeat.1]
  | vpmullqEvex256 | vpmullqEvex512 =>
    have hf : x.avx512f = true := by simpa [show x.avx512dq = true from hfeat.1] using hdq
    simp [formOf, vlenBits, maxVl, hf]

/-- Where an instruction completes, its feature flags are 1. -/
theorem featureOn_of_exec_next {i : Instr} {s t : State} (h : exec i s = .next t) : FeatureOn (formOf i) s.cfg.feat := by
  obtain ⟨m, hm, hstops, -⟩ := exec_eq_next h
  obtain ⟨hud, -, -⟩ := (stops_eq_nil_iff _ _ _ m hm).mp hstops
  obtain ⟨hfeat, -, -⟩ := (udCondition_eq_false_iff_noUd i s).mp hud
  exact hfeat

/-- An instruction keeps every vector register below MAXVL: the destination is cleared or kept from VL up, the others
are not written (`40_common_lane_arithmetic.md` R107). -/
theorem exec_keeps_upperBits {i : Instr} {s t : State} (h : exec i s = .next t) (hclosed : featClosed s.cfg.feat = true)
    (hupper : ∀ (n : VReg) (j : Nat), maxVl s.cfg.feat ≤ j → (s.readZmm n).getLsbD j = false) (n : VReg) (j : Nat)
    (hj : maxVl s.cfg.feat ≤ j) : (t.readZmm n).getLsbD j = false := by
  by_cases hn : n = (operandsOf i).dst
  · subst hn
    by_cases hlt : j < 512
    · rw [exec_next_getLsbD_above i s t h j hlt ((vlenBits_le_maxVl (featureOn_of_exec_next h) hclosed).trans hj)]
      split
      · rfl
      · exact hupper _ j hj
    · exact BitVec.getLsbD_of_ge _ j (not_lt.mp hlt)
  · obtain ⟨-, hothers⟩ := exec_next_onlyDest i s t h
    rw [hothers n hn]
    exact hupper n j hj

/-- Every instruction that completes keeps the invariant. -/
theorem exec_keeps_inv {i : Instr} {s t : State} (hinv : Inv s) (h : exec i s = .next t) : Inv t := by
  obtain ⟨hmem, hclosed, hupper, -⟩ := hinv
  have hkeeps := exec_keeps_upperBits h hclosed hupper
  obtain ⟨m, hm, -, rfl⟩ := exec_eq_next h
  refine ⟨hmem, hclosed, hkeeps, fun hm32 => ?_⟩
  obtain rfl : m = .mode32 := by simpa [hm] using hm32
  rw [complete_rip, toNat_nextRip]
  exact Nat.mod_lt _ (by decide)

/-- Settles O5: a step that completes is an instruction that completes. -/
theorem stepKeepsInvariant : Obligations.StepKeepsInvariant := by
  intro s t hinv h
  obtain ⟨-, i, -, -, -, -, hexec⟩ := step_eq_next s t h
  exact exec_keeps_inv hinv hexec

end Sys2Proof.Proofs
end

section
/-! SUPPORT. The round trip of `30_encoding.md`: each field of an encoded byte reads back, then displacement, memory
operand and ModRM, then the three classes. -/

namespace Sys2Proof.Proofs

open Sys2Proof.Claims

/-! ### Register numbers from their bits -/

theorem vregOf_bits : ∀ n : VReg, vregOf (numBit n.val 4) (numBit n.val 3) (low3 n.val) = n := by decide

theorem vregOf_bits_lt16 {n : VReg} (h : n.val < 16) : vregOf false (numBit n.val 3) (low3 n.val) = n := by
  rw [← numBit_eq_false (i := 4) h, vregOf_bits]

theorem vregOfV_bits : ∀ n : VReg, vregOfV (numBit n.val 4) (BitVec.ofNat 4 n.val) = n := by decide

theorem vregOfV_bits_lt16 {n : VReg} (h : n.val < 16) : vregOfV false (BitVec.ofNat 4 n.val) = n := by
  rw [← numBit_eq_false (i := 4) h, vregOfV_bits]

theorem gregOf_bits : ∀ n : GReg, gregOf (numBit n.val 3) (low3 n.val) = n := by decide

/-- Every index but number 4, and no index, has its own encoding (`30_encoding.md` R76). -/
theorem indexOf_bits {m : Mode} {i : Option GReg} (h : wfIndex m i = true) : indexOf (indexX i) (indexField i) = i := by
  cases i with
  | none => rfl
  | some i =>
    have hne : i.val ≠ 4 := by
      simp only [wfIndex, Bool.and_eq_true, bne_iff_ne] at h
      exact h.1
    clear h
    revert i
    decide

theorem low3_eq_iff : ∀ n : GReg, (low3 n.val = 4#3 ↔ n.val % 8 = 4) ∧ (low3 n.val = 5#3 ↔ n.val % 8 = 5) := by decide

/-! ### Fields of the encoded bytes -/

@[simp] theorem fld_modRM_md (md : BitVec 2) (g rm : BitVec 3) : fld (modRM md g rm) 6 2 = md := by
  revert md g rm
  decide

@[simp] theorem fld_modRM_reg (md : BitVec 2) (g rm : BitVec 3) : fld (modRM md g rm) 3 3 = g := by
  revert md g rm
  decide

@[simp] theorem fld_modRM_rm (md : BitVec 2) (g rm : BitVec 3) : fld (modRM md g rm) 0 3 = rm := by
  revert md g rm
  decide

@[simp] theorem fld_sibByte_scale (sc : BitVec 2) (i b : BitVec 3) : fld (sibByte sc i b) 6 2 = sc := fld_modRM_md sc i b

@[simp] theorem fld_sibByte_index (sc : BitVec 2) (i b : BitVec 3) : fld (sibByte sc i b) 3 3 = i := fld_modRM_reg sc i b

@[simp] theorem fld_sibByte_base (sc : BitVec 2) (i b : BitVec 3) : fld (sibByte sc i b) 0 3 = b := fld_modRM_rm sc i b

/-! ### Displacements -/

/-- The four bytes of a displacement, lowest first, put together again (`20_memory.md` R43). -/
theorem disp32Of_bytes (d : BitVec 32) :
    disp32Of (d.extractLsb' 0 8) (d.extractLsb' 8 8) (d.extractLsb' 16 8) (d.extractLsb' 24 8) = d := by
  rw [disp32Of, BitVec.extractLsb'_append_extractLsb'_eq_extractLsb' (by omega),
    BitVec.extractLsb'_append_extractLsb'_eq_extractLsb' (by omega),
    BitVec.extractLsb'_append_extractLsb'_eq_extractLsb' (by omega)]
  exact BitVec.extractLsb'_eq_self

theorem readDisp32_encode (d : BitVec 32) (rest : List Byte) : readDisp32 (encodeDisp32 d ++ rest) = some (d, rest) := by
  simp [encodeDisp32, readDisp32, disp32Of_bytes]

theorem readDisp_encode (d : Disp) (rest : List Byte) : readDisp (dispMod d) (encodeDisp d ++ rest) = some (d, rest) := by
  cases d with
  | none => rfl
  | d8 d => rfl
  | d32 d => simp [readDisp, dispMod, encodeDisp, encodeDisp32, disp32Of_bytes]

theorem dispMod_eq_zero_iff (d : Disp) : dispMod d = 0#2 ↔ d = .none := by
  cases d <;> simp [dispMod]

/-- `mod = 11` is no displacement form (`30_encoding.md` R74). -/
theorem dispMod_ne_three (d : Disp) : dispMod d ≠ 3#2 := by
  cases d <;> simp [dispMod]

/-! ### ModRM -/

/-- A base number 5 or 13 always comes with a displacement (`30_encoding.md` R77). -/
theorem not_low3_five_of_mod_zero {b : GReg} {d : Disp} (h : (d != .none || b.val % 8 != 5) = true) :
    ¬ (low3 b.val = 5#3 ∧ dispMod d = 0#2) := by
  rintro ⟨hb, hd⟩
  rw [dispMod_eq_zero_iff] at hd
  simp [hd, (low3_eq_iff b).2.mp hb] at h

/-- A memory operand that is well-formed reads back (`30_encoding.md` R76, R77). -/
theorem readModRM_encode_mem {m : Mode} {x : Mem} (h : wfMem m x = true) (hi : Bool) (g : BitVec 3) (rest : List Byte) :
    readModRM hi (rmX (.mem x)) (rmB (.mem x)) (encodeRM g (.mem x) ++ rest) = some (g, .mem x, rest) := by
  cases x with
  | disp32 d => simp [encodeRM, readModRM, readMem, readDisp32_encode]
  | base b d =>
    simp only [wfMem, Bool.and_eq_true, bne_iff_ne] at h
    obtain ⟨⟨-, hsib⟩, hdisp⟩ := h
    have hrm : low3 b.val ≠ 4#3 := fun e => hsib ((low3_eq_iff b).1.mp e)
    simp [encodeRM, readModRM, readMem, rmB, dispMod_ne_three, hrm, not_low3_five_of_mod_zero hdisp, readDisp_encode,
      gregOf_bits]
  | sib b i sc d =>
    simp only [wfMem, Bool.and_eq_true] at h
    obtain ⟨⟨-, hindex⟩, hdisp⟩ := h
    simp [encodeRM, readModRM, readMem, rmB, rmX, dispMod_ne_three, not_low3_five_of_mod_zero hdisp, readDisp_encode,
      gregOf_bits, indexOf_bits hindex]
  | sibNoBase i sc d =>
    have hindex : wfIndex m i = true := h
    simp [encodeRM, readModRM, readMem, rmX, readDisp32_encode, indexOf_bits hindex]

/-- An r/m operand that is well-formed reads back; `hi` is bit 4 of a register number (`30_encoding.md` R74, R75). -/
theorem readModRM_encode {cls : EncClass} {m : Mode} {r : RM} (h : wfRM cls m r = true) {hi : Bool}
    (hhi : ∀ n, r = .reg n → hi = numBit n.val 4) (g : BitVec 3) (rest : List Byte) :
    readModRM hi (rmX r) (rmB r) (encodeRM g r ++ rest) = some (g, r, rest) := by
  cases r with
  | reg n => simp [encodeRM, readModRM, rmB, hhi n rfl, vregOf_bits]
  | mem x => exact readModRM_encode_mem h hi g rest

/-- The legacy and VEX classes name no register above 15 (`10_state.md` R21). -/
theorem readModRM_encode_lt16 {cls : EncClass} {m : Mode} {r : RM} (hcls : cls ≠ .evex) (h : wfRM cls m r = true)
    (g : BitVec 3) (rest : List Byte) :
    readModRM false (rmX r) (rmB r) (encodeRM g r ++ rest) = some (g, r, rest) := by
  refine readModRM_encode h (fun n hn => ?_) g rest
  have hlt : n.val < 16 := by
    subst hn
    have hn : n.val < nameableRegs cls m := of_decide_eq_true h
    cases cls <;> cases m <;> simp [nameableRegs] at hcls hn <;> omega
  exact (numBit_eq_false (i := 4) hlt).symm

/-! ### Register bits of a class -/

/-- Mode32 names no base register above 7 and no vector register above 7 (`30_encoding.md` R69, R73). -/
theorem rmB_mode32 {cls : EncClass} {r : RM} (h : wfRM cls .mode32 r = true) : rmB r = false := by
  cases r with
  | reg n =>
    have hn : n.val < 8 := by simpa [wfRM, nameableRegs_mode32] using h
    exact numBit_eq_false (i := 3) hn
  | mem x =>
    cases x with
    | disp32 d => rfl
    | base b d =>
      simp only [wfRM, wfMem, nameableGprs, Bool.and_eq_true] at h
      obtain ⟨⟨hb, -⟩, -⟩ := h
      exact numBit_eq_false (i := 3) (of_decide_eq_true hb)
    | sib b i sc d =>
      simp only [wfRM, wfMem, nameableGprs, Bool.and_eq_true] at h
      obtain ⟨⟨hb, -⟩, -⟩ := h
      exact numBit_eq_false (i := 3) (of_decide_eq_true hb)
    | sibNoBase i sc d => rfl

/-- An operand without numbers of 8 or more needs neither `X` nor `B` (`30_encoding.md` R63). -/
theorem rmBits_of_not_rmNeedsRex {r : RM} (h : rmNeedsRex r = false) : rmX r = false ∧ rmB r = false := by
  have hindex : ∀ i : Option GReg, (i.any fun x => 8 ≤ x.val) = false → indexX i = false := by
    intro i hi
    cases i with
    | none => rfl
    | some i => exact numBit_eq_false (i := 3) (by simpa using hi)
  cases r with
  | reg n =>
    have hn : n.val < 8 := by simpa [rmNeedsRex] using h
    exact ⟨numBit_eq_false (i := 4) (by omega), numBit_eq_false (i := 3) hn⟩
  | mem x =>
    cases x with
    | disp32 d => exact ⟨rfl, rfl⟩
    | base b d => exact ⟨rfl, numBit_eq_false (i := 3) (by simpa [rmNeedsRex] using h)⟩
    | sib b i sc d =>
      simp only [rmNeedsRex, Bool.or_eq_false_iff, decide_eq_false_iff_not, not_le] at h
      obtain ⟨hb, hi⟩ := h
      exact ⟨hindex i hi, numBit_eq_false (i := 3) hb⟩
    | sibNoBase i sc d => exact ⟨hindex i h, rfl⟩

/-! ### The bits of REX, VEX and EVEX -/

theorem bits_rexByte (r x b : Bool) :
    bit (rexByte r x b) 2 = r ∧ bit (rexByte r x b) 1 = x ∧ bit (rexByte r x b) 0 = b := by
  revert r x b
  decide

theorem bits_vexP1 (r x b : Bool) :
    fld (vexP1 r x b) 0 5 = 2#5 ∧ bit (vexP1 r x b) 7 = !r ∧ bit (vexP1 r x b) 6 = !x ∧ bit (vexP1 r x b) 5 = !b := by
  revert r x b
  decide

theorem bits_vexP2 (v : BitVec 4) (l : Bool) :
    fld (vexP2 v l) 0 2 = 1#2 ∧ bit (vexP2 v l) 2 = l ∧ ~~~(fld (vexP2 v l) 3 4) = v ∧
      bit (vexP2 v l) 6 = !v.getLsbD 3 := by
  revert v l
  decide

theorem bits_evexP0 (r x b r' : Bool) :
    fld (evexP0 r x b r') 2 2 = 0#2 ∧ fld (evexP0 r x b r') 0 2 = 2#2 ∧ bit (evexP0 r x b r') 7 = !r ∧
      bit (evexP0 r x b r') 6 = !x ∧ bit (evexP0 r x b r') 5 = !b ∧ bit (evexP0 r x b r') 4 = !r' := by
  revert r x b r'
  decide

theorem bits_evexP1 (w : Bool) (v : BitVec 4) :
    bit (evexP1 w v) 2 = true ∧ fld (evexP1 w v) 0 2 = 1#2 ∧ bit (evexP1 w v) 7 = w ∧ ~~~(fld (evexP1 w v) 3 4) = v ∧
      bit (evexP1 w v) 6 = !v.getLsbD 3 := by
  revert w v
  decide

theorem bits_evexP2 (c : EvexCtl) (ll : BitVec 2) (v' : Bool) :
    fld (evexP2 c ll v') 5 2 = ll ∧ bit (evexP2 c ll v') 3 = !v' ∧
      (⟨(fld (evexP2 c ll v') 0 3).toFin, bit (evexP2 c ll v') 7, bit (evexP2 c ll v') 4⟩ : EvexCtl) = c := by
  obtain ⟨aaa, z, b⟩ := c
  revert aaa z b ll v'
  decide

/-- Bit 3 of `vvvv` is 0 for every register that Mode32 names. -/
theorem getLsbD_ofNat4_of_lt8 {n : Nat} (h : n < 8) : (BitVec.ofNat 4 n).getLsbD 3 = false := by
  rw [BitVec.getLsbD_ofNat, Nat.testBit_lt_two_pow (i := 3) h, Bool.and_false]

/-! ### The three classes -/

/-- What Mode32 asks of a prefix is met: the test that refuses the high registers fails (`30_encoding.md` D22). -/
theorem not_mode32_and_not {m : Mode} {c : Bool} (h : m = .mode32 → c = true) : ¬ (m = .mode32 ∧ (!c) = true) :=
  fun ⟨hm, hc⟩ => by simp [h hm] at hc

/-- What a decoder makes of the bytes after the prefixes. -/
theorem decode_of_readPrefixes {m : Mode} {bs body : List Byte} {a : PfxSet}
    (h : readPrefixes noPrefixes bs = some (a, body)) (haddr : m = .mode32 → a.addr = false) :
    decode m bs = decodeBody m a body := by
  have hadmit : ¬ (m = .mode32 ∧ a.addr = true) := fun ⟨hm, h67⟩ => by simp [haddr hm] at h67
  simp only [decode, h, if_neg hadmit]

theorem decodeLegacy_encode {m : Mode} {p : Pfx} {rex : Option Byte} {d : VReg} {r : RM} (rest : List Byte)
    (hd : d.val < 16) (hr : wfRM .legacy m r = true) (hbits : bit (rex.getD 0x40#8) 2 = numBit d.val 3 ∧
      bit (rex.getD 0x40#8) 1 = rmX r ∧ bit (rex.getD 0x40#8) 0 = rmB r) :
    decodeLegacy (encodedPrefixes p true) rex (0x38#8 :: 0x40#8 :: (encodeRM (low3 d.val) r ++ rest)) =
      .ok (.pmulld p rex.isSome d r) rest := by
  obtain ⟨hR, hX, hB⟩ := hbits
  simp only [decodeLegacy, encodedPrefixes, hR, hX, hB, readModRM_encode_lt16 (by decide) hr, vregOf_bits_lt16 hd]
  rfl

/-- The legacy form reads back, with a REX byte or without (`30_encoding.md` R60 to R64). -/
theorem decode_encodeLegacy {m : Mode} {p : Pfx} {rex : Bool} {d : VReg} {r : RM} (rest : List Byte)
    (h : wfLegacy m p rex d r = true) : decode m (encodeLegacy p rex d r ++ rest) = .ok (.pmulld p rex d r) rest := by
  simp only [wfLegacy, Bool.and_eq_true, decide_eq_true_eq] at h
  obtain ⟨⟨⟨hp, hd⟩, hr⟩, hrex⟩ := h
  have hd16 : d.val < 16 := hd.trans_le (by cases m <;> decide)
  cases rex with
  | false =>
    have hbits : bit 0x40#8 2 = numBit d.val 3 ∧ bit 0x40#8 1 = rmX r ∧ bit 0x40#8 0 = rmB r := by
      simp only [Bool.false_eq_true, if_false, Bool.and_eq_true, Bool.not_eq_true', decide_eq_false_iff_not,
        not_le] at hrex
      obtain ⟨hlow, hneeds⟩ := hrex
      obtain ⟨hX, hB⟩ := rmBits_of_not_rmNeedsRex hneeds
      rw [hX, hB, numBit_eq_false (i := 3) hlow]
      decide
    have hread : readPrefixes noPrefixes (encodeLegacy p false d r ++ rest) =
        some (encodedPrefixes p true, 0x0F#8 :: 0x38#8 :: 0x40#8 :: (encodeRM (low3 d.val) r ++ rest)) := by
      simpa [encodeLegacy] using readPrefixes_legacy (c := 0x0F#8) (by decide) p _
    rw [decode_of_readPrefixes hread (addr_of_wfPfx hp), decodeBody_escape0F]
    exact decodeLegacy_encode (rex := none) rest hd16 hr hbits
  | true =>
    obtain rfl : m = .mode64 := by simpa using hrex
    have hread : readPrefixes noPrefixes (encodeLegacy p true d r ++ rest) = some (encodedPrefixes p true,
        rexByte (numBit d.val 3) (rmX r) (rmB r) :: 0x0F#8 :: 0x38#8 :: 0x40#8 :: (encodeRM (low3 d.val) r ++ rest)) := by
      simpa [encodeLegacy] using readPrefixes_legacy (prefixOf_rexByte (numBit d.val 3) (rmX r) (rmB r)) p _
    rw [decode_of_readPrefixes hread (addr_of_wfPfx hp), decodeBody_rex _ _ _ (fld_rexByte _ _ _)]
    exact decodeLegacy_encode (rex := some _) rest hd16 hr (bits_rexByte _ _ _)

/-- The VEX or EVEX escape stands right after the optional prefixes (`30_encoding.md` R67, R73). -/
theorem readPrefixes_escape {c : Byte} (hc : prefixOf c = none) (p : Pfx) (bs : List Byte) :
    readPrefixes noPrefixes (encodePfx p ++ c :: bs) = some (encodedPrefixes p false, c :: bs) := by
  rw [readPrefixes_encodePfx, readPrefixes_cons_other hc]

/-- The VEX instruction with the length bit `l` (`30_encoding.md` R67). -/
def vexInstr (l : Bool) (p : Pfx) (d a : VReg) (r : RM) : Instr :=
  if l then .vpmulldVex256 p d a r else .vpmulldVex128 p d a r

theorem decodeBody_vex {m : Mode} {a : PfxSet} {p1 : Byte} {bs : List Byte} (hesc : escapeHolds m (p1 :: bs) = true) :
    decodeBody m a (0xC4#8 :: p1 :: bs) = if illegalBeforeVex a then .invalidOpcode else decodeVex m a (p1 :: bs) := by
  simp [decodeBody, hesc]

theorem decodeBody_evex {m : Mode} {a : PfxSet} {p0 : Byte} {bs : List Byte} (hesc : escapeHolds m (p0 :: bs) = true) :
    decodeBody m a (0x62#8 :: p0 :: bs) = if illegalBeforeVex a then .invalidOpcode else decodeEvex m a (p0 :: bs) := by
  simp [decodeBody, hesc]

/-- The VEX forms read back (`30_encoding.md` R65 to R69). -/
theorem decode_encodeVex {m : Mode} {p : Pfx} {d a : VReg} {r : RM} (l : Bool) (rest : List Byte)
    (h : wfVex m p d a r = true) : decode m (encodeVex l p d a r ++ rest) = .ok (vexInstr l p d a r) rest := by
  simp only [wfVex, Bool.and_eq_true, decide_eq_true_eq] at h
  obtain ⟨⟨⟨hp, hd⟩, ha⟩, hr⟩ := h
  have h16 : nameableRegs .vex m ≤ 16 := by cases m <;> decide
  obtain ⟨hmap, hR, hX, hB⟩ := bits_vexP1 (numBit d.val 3) (rmX r) (rmB r)
  obtain ⟨hpp, hL, hvvvv, hv3⟩ := bits_vexP2 (BitVec.ofNat 4 a.val) l
  have hok : m = .mode32 → vexOk32 (vexP1 (numBit d.val 3) (rmX r) (rmB r)) (vexP2 (BitVec.ofNat 4 a.val) l) = true := by
    rintro rfl
    rw [vexOk32, hB, hv3, rmB_mode32 hr, getLsbD_ofNat4_of_lt8 ha]
    rfl
  have hread : readPrefixes noPrefixes (encodeVex l p d a r ++ rest) = some (encodedPrefixes p false,
      0xC4#8 :: vexP1 (numBit d.val 3) (rmX r) (rmB r) :: vexP2 (BitVec.ofNat 4 a.val) l :: 0x40#8 ::
        (encodeRM (low3 d.val) r ++ rest)) := by
    simpa [encodeVex] using readPrefixes_escape (c := 0xC4#8) (by decide) p _
  rw [decode_of_readPrefixes hread (addr_of_wfPfx hp), decodeBody_vex (escapeHolds_of_fields _ (fld_vexP1 _ _ _) hd hr)]
  simp only [illegalBeforeVex, encodedPrefixes, Bool.or_self, Bool.false_eq_true, if_false, decodeVex, hmap, hpp,
    and_self, if_true, decodeVexTail, if_neg (not_mode32_and_not hok), hR, hX, hB, hL, hvvvv, Bool.not_not,
    readModRM_encode_lt16 (by decide) hr, vregOf_bits_lt16 (hd.trans_le h16), vregOfV_bits_lt16 (ha.trans_le h16)]
  cases l <;> rfl

/-- The EVEX forms read back (`30_encoding.md` R70 to R73, R85). -/
theorem decode_encodeEvex {m : Mode} {p : Pfx} {c : EvexCtl} {d a : VReg} {r : RM} {w : Bool} {ll : BitVec 2} {i : Instr}
    (rest : List Byte) (hi : evexInstr w ll p c d a r = some i) (h : wfEvex m p c d a r = true) :
    decode m (encodeEvex w ll p c d a r ++ rest) = .ok i rest := by
  simp only [wfEvex, Bool.and_eq_true, decide_eq_true_eq] at h
  obtain ⟨⟨⟨⟨hp, hd⟩, ha⟩, hr⟩, hc⟩ := h
  have hll : ll ≠ 3#2 := by
    rintro rfl
    simp [evexInstr] at hi
  obtain ⟨hres, hmap, hR, hX, hB, hR'⟩ := bits_evexP0 (numBit d.val 3) (rmX r) (rmB r) (numBit d.val 4)
  obtain ⟨hfix, hpp, hW, hvvvv, hv3⟩ := bits_evexP1 w (BitVec.ofNat 4 a.val)
  obtain ⟨hLL, hV', hctl⟩ := bits_evexP2 c ll (numBit a.val 4)
  have hok : m = .mode32 → evexOk32 (evexP0 (numBit d.val 3) (rmX r) (rmB r) (numBit d.val 4))
      (evexP1 w (BitVec.ofNat 4 a.val)) (evexP2 c ll (numBit a.val 4)) = true := by
    rintro rfl
    rw [nameableRegs_mode32] at hd ha
    rw [evexOk32, hB, hR', hv3, hV', rmB_mode32 hr, getLsbD_ofNat4_of_lt8 ha, numBit_eq_false (i := 4) (hd.trans (by decide)),
      numBit_eq_false (i := 4) (ha.trans (by decide))]
    rfl
  have hread : readPrefixes noPrefixes (encodeEvex w ll p c d a r ++ rest) = some (encodedPrefixes p false,
      0x62#8 :: evexP0 (numBit d.val 3) (rmX r) (rmB r) (numBit d.val 4) :: evexP1 w (BitVec.ofNat 4 a.val) ::
        evexP2 c ll (numBit a.val 4) :: 0x40#8 :: (encodeRM (low3 d.val) r ++ rest)) := by
    simpa [encodeEvex] using readPrefixes_escape (c := 0x62#8) (by decide) p _
  have hmodrm : readModRM (rmX r) (rmX r) (rmB r) (encodeRM (low3 d.val) r ++ rest) = some (low3 d.val, r, rest) :=
    readModRM_encode hr (fun n hn => by rw [hn, rmX]) _ _
  rw [decode_of_readPrefixes hread (addr_of_wfPfx hp), decodeBody_evex (escapeHolds_of_fields _ (fld_evexP0 _ _ _ _) hd hr)]
  simp only [illegalBeforeVex, encodedPrefixes, Bool.or_self, Bool.false_eq_true, if_false, decodeEvex, hres, hfix,
    ne_eq, not_true_eq_false, Bool.not_true, or_self, hmap, hpp, and_self, if_true, decodeEvexTail, hLL, hll,
    if_neg (not_mode32_and_not hok),
    hR, hX, hB, hR', hW, hvvvv, hV', Bool.not_not, hmodrm, hctl, hc, vregOf_bits, vregOfV_bits]
  rw [show keptPfx ⟨false, p.addr, p.seg, false, false⟩ = p from rfl, hi]

/-- Settles O6: each of the nine encodings reads back, by its class. -/
theorem decodeEncodeRoundTrip : Obligations.DecodeEncodeRoundTrip := by
  intro m i rest h
  cases i with
  | pmulld p rex d r => exact decode_encodeLegacy rest h
  | vpmulldVex128 p d a r => exact decode_encodeVex false rest h
  | vpmulldVex256 p d a r => exact decode_encodeVex true rest h
  | vpmulldEvex128 p c d a r => exact decode_encodeEvex rest rfl h
  | vpmulldEvex256 p c d a r => exact decode_encodeEvex rest rfl h
  | vpmulldEvex512 p c d a r => exact decode_encodeEvex rest rfl h
  | vpmullqEvex128 p c d a r => exact decode_encodeEvex rest rfl h
  | vpmullqEvex256 p c d a r => exact decode_encodeEvex rest rfl h
  | vpmullqEvex512 p c d a r => exact decode_encodeEvex rest rfl h

end Sys2Proof.Proofs
end

section
/-! SUPPORT. What the decoder delivers, said once by inversion: the bytes it has read and the instruction they stand for
(`30_encoding.md` R89). From that, the length (R84) and the well-formedness of a decoded instruction. -/

namespace Sys2Proof.Proofs

open Sys2Proof.Claims

/-! ### Prefixes -/

/-- How many prefix bytes a set stands for: one for each kind (`30_encoding.md` R62). -/
def prefixCount (a : PfxSet) : Nat := pfxLen (keptPfx a) + a.opSize.toNat + a.lock.toNat + a.rep.toNat

theorem prefixCount_addPrefix {a a' : PfxSet} {p : PfxByte} (h : addPrefix a p = some a') :
    prefixCount a' = prefixCount a + 1 := by
  cases p <;> obtain ⟨hnew, rfl⟩ : _ ∧ _ := by simpa [addPrefix] using h
  all_goals simp [prefixCount, pfxLen, keptPfx, hnew] <;> omega

/-- Every prefix byte read is one kind more (`30_encoding.md` R89 step 1). -/
theorem length_readPrefixes {bs rest : List Byte} {a b : PfxSet} (h : readPrefixes a bs = some (b, rest)) :
    bs.length + prefixCount a = rest.length + prefixCount b := by
  induction bs generalizing a with
  | nil => cases h; rfl
  | cons x bs ih =>
    cases hx : prefixOf x with
    | none =>
      rw [readPrefixes_cons_other hx] at h
      cases h
      rfl
    | some p =>
      rw [readPrefixes_cons_prefix hx] at h
      obtain ⟨a', hadd, hread⟩ := Option.bind_eq_some_iff.mp h
      have hlen := ih hread
      have hcount := prefixCount_addPrefix hadd
      rw [List.length_cons]
      omega

/-! ### ModRM, SIB and displacement -/

theorem length_readDisp32 {bs rest : List Byte} {d : BitVec 32} (h : readDisp32 bs = some (d, rest)) :
    bs.length = 4 + rest.length := by
  match bs, h with
  | _ :: _ :: _ :: _ :: rest, h => cases h; simp only [List.length_cons]; omega

/-- The displacement read, its length, and that only `mod = 00` has none (`30_encoding.md` R74). -/
theorem readDisp_eq_some {md : BitVec 2} {bs rest : List Byte} {d : Disp} (h : readDisp md bs = some (d, rest)) :
    bs.length = dispLen d + rest.length ∧ (md ≠ 0#2 → d ≠ .none) := by
  unfold readDisp at h
  split at h
  · rename_i h0
    cases h
    exact ⟨by simp [dispLen], fun hne => absurd h0 hne⟩
  · split at h
    · match bs, h with
      | _ :: rest, h => cases h; simp [dispLen, Nat.add_comm]
    · match bs, h with
      | _ :: _ :: _ :: _ :: rest, h => cases h; simp [dispLen]; omega

theorem gregOf_false_lt (lo : BitVec 3) : (gregOf false lo).val < 8 := by
  simp [gregOf, lo.isLt]

theorem gregOf_mod (b : Bool) (lo : BitVec 3) : (gregOf b lo).val % 8 = lo.toNat := by
  have := lo.isLt
  simp only [gregOf]
  omega

/-- A general register from the bits that a mode leaves free (`10_state.md` R24). -/
theorem gregOf_lt_nameable {m : Mode} {b : Bool} (hb : m = .mode32 → b = false) (lo : BitVec 3) :
    (gregOf b lo).val < nameableGprs m := by
  cases m with
  | mode64 => exact (gregOf b lo).isLt
  | mode32 => rw [hb rfl]; exact gregOf_false_lt lo

theorem wfIndex_indexOf {m : Mode} {x : Bool} (hx : m = .mode32 → x = false) (idx : BitVec 3) :
    wfIndex m (indexOf x idx) = true := by
  unfold indexOf
  split
  · rfl
  · rename_i hne
    have hne4 : (gregOf x idx).val ≠ 4 := by
      clear hx
      revert x idx
      decide
    simp only [wfIndex, Bool.and_eq_true, bne_iff_ne]
    exact ⟨hne4, decide_eq_true (gregOf_lt_nameable hx idx)⟩

/-- Without `X` no index of 8 or more is named (`30_encoding.md` R63). -/
theorem any_indexOf_false (idx : BitVec 3) : (indexOf false idx).any (fun i => 8 ≤ i.val) = false := by
  revert idx
  decide

/-- What a decoded r/m operand is good for: it is as long as the bytes read, well-formed, and without the bits `X` and `B`
it names no number of 8 or more (`30_encoding.md` R74 to R77). -/
def DecodedRM (m : Mode) (cls : EncClass) (hi x b : Bool) (bs : List Byte) (r : RM) (rest : List Byte) : Prop :=
  bs.length = rmLen r + rest.length ∧
    ((m = .mode32 → hi = false ∧ x = false ∧ b = false) → (hi = true → cls = .evex) → wfRM cls m r = true) ∧
    (hi = false → x = false → b = false → rmNeedsRex r = false)

theorem readMem_eq_some {m : Mode} {cls : EncClass} {hi x b : Bool} {md : BitVec 2} {rm : BitVec 3} {y : Mem} {c : Byte}
    {bs rest : List Byte} (h : readMem x b md rm bs = some (y, rest)) :
    DecodedRM m cls hi x b (c :: bs) (.mem y) rest := by
  have hmod : ∀ (lo : BitVec 3) (d : Disp), ¬ (lo = 5#3 ∧ md = 0#2) → (md ≠ 0#2 → d ≠ .none) →
      (d != .none || (gregOf b lo).val % 8 != 5) = true := by
    intro lo d hlo hd
    by_cases h0 : md = 0#2
    · have h5 : lo.toNat ≠ 5 := fun e => hlo ⟨BitVec.eq_of_toNat_eq e, h0⟩
      simp [gregOf_mod, h5]
    · simp [hd h0]
  unfold readMem at h
  split at h
  · match bs, h with
    | sib :: bs, h =>
      simp only at h
      split at h
      · obtain ⟨⟨d, rest'⟩, hd, he⟩ := Option.map_eq_some_iff.mp h
        cases he
        have hlen := length_readDisp32 hd
        refine ⟨by simp [rmLen, memLen, hlen]; omega, fun hm _ => ?_, fun _ hx _ => ?_⟩
        · exact wfIndex_indexOf (fun h32 => (hm h32).2.1) _
        · subst hx
          exact any_indexOf_false _
      · rename_i hno
        obtain ⟨⟨d, rest'⟩, hd, he⟩ := Option.map_eq_some_iff.mp h
        cases he
        obtain ⟨hlen, hnone⟩ := readDisp_eq_some hd
        refine ⟨by simp [rmLen, memLen, hlen]; omega, fun hm _ => ?_, fun _ hx hb => ?_⟩
        · simp only [wfRM, wfMem, Bool.and_eq_true]
          exact ⟨⟨decide_eq_true (gregOf_lt_nameable (fun h32 => (hm h32).2.2) _),
            wfIndex_indexOf (fun h32 => (hm h32).2.1) _⟩, hmod _ _ hno hnone⟩
        · subst hx hb
          simp only [rmNeedsRex, any_indexOf_false, Bool.or_false, decide_eq_false_iff_not, not_le]
          exact gregOf_false_lt _
  · rename_i hsib
    split at h
    · obtain ⟨⟨d, rest'⟩, hd, he⟩ := Option.map_eq_some_iff.mp h
      cases he
      have hlen := length_readDisp32 hd
      exact ⟨by simp [rmLen, memLen, hlen]; omega, fun _ _ => rfl, fun _ _ _ => rfl⟩
    · rename_i hno
      obtain ⟨⟨d, rest'⟩, hd, he⟩ := Option.map_eq_some_iff.mp h
      cases he
      obtain ⟨hlen, hnone⟩ := readDisp_eq_some hd
      have hrm4 : rm.toNat ≠ 4 := fun e => hsib (BitVec.eq_of_toNat_eq e)
      refine ⟨by simp [rmLen, memLen, hlen]; omega, fun hm _ => ?_, fun _ _ hb => ?_⟩
      · simp only [wfRM, wfMem, Bool.and_eq_true, gregOf_mod, bne_iff_ne]
        rw [← gregOf_mod b]
        exact ⟨⟨decide_eq_true (gregOf_lt_nameable (fun h32 => (hm h32).2.2) _), by rwa [gregOf_mod]⟩, hmod _ _ hno hnone⟩
      · subst hb
        simp only [rmNeedsRex, decide_eq_false_iff_not, not_le]
        exact gregOf_false_lt _

theorem vregOf_lt_nameable {m : Mode} {cls : EncClass} {hi b : Bool} (hm : m = .mode32 → hi = false ∧ b = false)
    (hcls : hi = true → cls = .evex) (lo : BitVec 3) : (vregOf hi b lo).val < nameableRegs cls m := by
  have hlo := lo.isLt
  cases m with
  | mode32 =>
    obtain ⟨rfl, rfl⟩ := hm rfl
    rw [nameableRegs_mode32]
    simpa [vregOf] using hlo
  | mode64 =>
    cases hi with
    | true =>
      rw [hcls rfl]
      exact (vregOf true b lo).isLt
    | false =>
      have h16 : 16 ≤ nameableRegs cls .mode64 := by cases cls <;> decide
      have hb : b.toNat ≤ 1 := Bool.toNat_le b
      simp only [vregOf, Bool.toNat_false]
      omega

theorem vregOfV_lt_nameable {m : Mode} {cls : EncClass} {hi : Bool} {v : BitVec 4}
    (hm : m = .mode32 → hi = false ∧ v.getLsbD 3 = false) (hcls : hi = true → cls = .evex) :
    (vregOfV hi v).val < nameableRegs cls m := by
  have hv := v.isLt
  cases m with
  | mode32 =>
    obtain ⟨rfl, hv3⟩ := hm rfl
    rw [nameableRegs_mode32]
    revert v
    decide
  | mode64 =>
    cases hi with
    | true =>
      rw [hcls rfl]
      exact (vregOfV true v).isLt
    | false =>
      have h16 : 16 ≤ nameableRegs cls .mode64 := by cases cls <;> decide
      simp only [vregOfV, Bool.toNat_false]
      omega

theorem readModRM_eq_some {m : Mode} {cls : EncClass} {hi x b : Bool} {bs rest : List Byte} {g : BitVec 3} {r : RM}
    (h : readModRM hi x b bs = some (g, r, rest)) : DecodedRM m cls hi x b bs r rest := by
  match bs, h with
  | c :: bs, h =>
    simp only [readModRM] at h
    split at h
    · cases h
      refine ⟨by simp [rmLen, Nat.add_comm], fun hm hcls => ?_, fun hhi _ hb => ?_⟩
      · exact decide_eq_true (vregOf_lt_nameable (fun h32 => ⟨(hm h32).1, (hm h32).2.2⟩) hcls _)
      · subst hhi hb
        simpa [rmNeedsRex, vregOf] using (fld c 0 3).isLt
    · obtain ⟨⟨y, rest'⟩, hmem, he⟩ := Option.map_eq_some_iff.mp h
      cases he
      exact readMem_eq_some hmem

/-! ### The three classes, by inversion -/

theorem decodeLegacy_eq_ok {a : PfxSet} {rex : Option Byte} {tail rest : List Byte} {i : Instr}
    (h : decodeLegacy a rex tail = .ok i rest) :
    ∃ bs g r, tail = 0x38#8 :: 0x40#8 :: bs ∧ a.opSize = true ∧ a.rep = false ∧ a.lock = false ∧
      readModRM false (bit (rex.getD 0x40#8) 1) (bit (rex.getD 0x40#8) 0) bs = some (g, r, rest) ∧
      i = .pmulld (keptPfx a) rex.isSome (vregOf false (bit (rex.getD 0x40#8) 2) g) r := by
  match tail, h with
  | [], h => simp [decodeLegacy] at h
  | [b1], h => simp only [decodeLegacy] at h; split at h <;> cases h
  | b1 :: b2 :: bs, h =>
    simp only [decodeLegacy] at h
    split_ifs at h with h38 h40 hop hrep hlock
    subst h38 h40
    split at h
    · cases h
    · rename_i g r rest' hrm
      cases h
      exact ⟨bs, g, r, rfl, by simpa using hop, by simpa using hrep, by simpa using hlock, hrm, rfl⟩

theorem ite_ok_eq_vexInstr (l : Bool) (p : Pfx) (d a : VReg) (r : RM) (rest : List Byte) :
    (if l then Decoded.ok (.vpmulldVex256 p d a r) rest else .ok (.vpmulldVex128 p d a r) rest) =
      .ok (vexInstr l p d a r) rest := by
  cases l <;> rfl

theorem decodeVex_eq_ok {m : Mode} {a : PfxSet} {tail rest : List Byte} {i : Instr} (h : decodeVex m a tail = .ok i rest) :
    ∃ p1 p2 bs g r, tail = p1 :: p2 :: 0x40#8 :: bs ∧ (m = .mode32 → vexOk32 p1 p2 = true) ∧
      readModRM false (!bit p1 6) (!bit p1 5) bs = some (g, r, rest) ∧
      i = vexInstr (bit p2 2) (keptPfx a) (vregOf false (!bit p1 7) g) (vregOfV false (~~~(fld p2 3 4))) r := by
  match tail, h with
  | [], h => simp [decodeVex] at h
  | [_], h => simp [decodeVex] at h
  | [p1, p2], h => simp only [decodeVex, decodeVexTail] at h; split at h <;> cases h
  | p1 :: p2 :: op :: bs, h =>
    simp only [decodeVex, decodeVexTail, ite_ok_eq_vexInstr] at h
    split_ifs at h with hmap hop h32
    subst hop
    split at h
    · cases h
    · rename_i g r rest' hrm
      cases h
      exact ⟨p1, p2, bs, g, r, rfl, by simpa using h32, hrm, rfl⟩

theorem decodeEvex_eq_ok {m : Mode} {a : PfxSet} {tail rest : List Byte} {i : Instr} (h : decodeEvex m a tail = .ok i rest) :
    ∃ p0 p1 p2 bs g r, tail = p0 :: p1 :: p2 :: 0x40#8 :: bs ∧ (m = .mode32 → evexOk32 p0 p1 p2 = true) ∧
      readModRM (!bit p0 6) (!bit p0 6) (!bit p0 5) bs = some (g, r, rest) ∧
      wfCtl ⟨(fld p2 0 3).toFin, bit p2 7, bit p2 4⟩ r = true ∧
      evexInstr (bit p1 7) (fld p2 5 2) (keptPfx a) ⟨(fld p2 0 3).toFin, bit p2 7, bit p2 4⟩
        (vregOf (!bit p0 4) (!bit p0 7) g) (vregOfV (!bit p2 3) (~~~(fld p1 3 4))) r = some i := by
  match tail, h with
  | [], h => simp [decodeEvex] at h
  | [_], h => simp [decodeEvex] at h
  | [_, _], h => simp [decodeEvex] at h
  | [p0, p1, p2], h => simp only [decodeEvex, decodeEvexTail] at h; split_ifs at h
  | p0 :: p1 :: p2 :: op :: bs, h =>
    simp only [decodeEvex, decodeEvexTail] at h
    split_ifs at h with hres hmap hop hll h32
    subst hop
    split at h
    · cases h
    · rename_i g r rest' hrm
      split_ifs at h with hctl
      split at h
      · rename_i i' hi
        cases h
        exact ⟨p0, p1, p2, bs, g, r, rfl, by simpa using h32, hrm, hctl, hi⟩
      · cases h

/-- The ways in which the body decodes: the legacy class without and with REX, VEX, EVEX (`30_encoding.md` R89 step 2). -/
theorem decodeBody_eq_ok {m : Mode} {a : PfxSet} {body rest : List Byte} {i : Instr}
    (h : decodeBody m a body = .ok i rest) :
    (∃ bs, body = 0x0F#8 :: bs ∧ decodeLegacy a none bs = .ok i rest) ∨
    (∃ c bs, m = .mode64 ∧ body = c :: 0x0F#8 :: bs ∧ decodeLegacy a (some c) bs = .ok i rest) ∨
    (∃ bs, body = 0xC4#8 :: bs ∧ escapeHolds m bs = true ∧ illegalBeforeVex a = false ∧ decodeVex m a bs = .ok i rest) ∨
    (∃ bs, body = 0x62#8 :: bs ∧ escapeHolds m bs = true ∧ illegalBeforeVex a = false ∧ decodeEvex m a bs = .ok i rest) := by
  match body, h with
  | [], h => cases h
  | c :: bs, h =>
    simp only [decodeBody] at h
    split_ifs at h with htrunc hvex hill hevex hill hrex hlegacy
    · exact .inr (.inr (.inl ⟨bs, by rw [hvex.1], hvex.2, by simpa using hill, h⟩))
    · exact .inr (.inr (.inr ⟨bs, by rw [hevex.1], hevex.2, by simpa using hill, h⟩))
    · match bs, h with
      | [], h => cases h
      | c' :: bs, h =>
        simp only [decodeRex] at h
        split_ifs at h with hesc
        exact .inr (.inl ⟨c, bs, hrex.1, by rw [hesc], h⟩)
    · exact .inl ⟨bs, by rw [hlegacy], h⟩

theorem decode_eq_ok {m : Mode} {bs rest : List Byte} {i : Instr} (h : decode m bs = .ok i rest) :
    ∃ a body, readPrefixes noPrefixes bs = some (a, body) ∧ (m = .mode32 → a.addr = false) ∧
      decodeBody m a body = .ok i rest := by
  simp only [decode] at h
  split at h
  · cases h
  · rename_i a body hread
    split_ifs at h with haddr
    exact ⟨a, body, hread, by simpa using haddr, h⟩

/-! ### What a decoded instruction is -/

/-- The instruction is well-formed, and `n` bytes are itself and `rest`. -/
def DecodedWell (m : Mode) (n : Nat) (i : Instr) (rest : List Byte) : Prop :=
  i.wellFormed m = true ∧ n = instrLen i + rest.length

theorem wfPfx_keptPfx {m : Mode} {a : PfxSet} (h : m = .mode32 → a.addr = false) : wfPfx m (keptPfx a) = true := by
  cases m with
  | mode64 => rfl
  | mode32 => simp [wfPfx, keptPfx, h rfl]

theorem decodedWell_legacy {m : Mode} {a : PfxSet} {rex : Option Byte} {tail rest : List Byte} {i : Instr}
    (haddr : m = .mode32 → a.addr = false) (hrex : rex.isSome = true → m = .mode64)
    (h : decodeLegacy a rex tail = .ok i rest) :
    DecodedWell m (prefixCount a + rex.isSome.toNat + 1 + tail.length) i rest := by
  obtain ⟨bs, g, r, rfl, hop, hrep, hlock, hrm, rfl⟩ := decodeLegacy_eq_ok h
  obtain ⟨hlen, hwf, hneeds⟩ := readModRM_eq_some (m := m) (cls := .legacy) hrm
  have hbits : rex = none ∨ m = .mode32 → ∀ n < 3, bit (rex.getD 0x40#8) n = false := by
    intro hnone
    obtain rfl : rex = none := hnone.elim id fun h32 => by
      cases rex with
      | none => rfl
      | some c => simp [h32] at hrex
    decide
  have hd : (vregOf false (bit (rex.getD 0x40#8) 2) g).val < nameableRegs .legacy m :=
    vregOf_lt_nameable (fun h32 => ⟨rfl, hbits (.inr h32) 2 (by decide)⟩) (by simp) g
  have hr : wfRM .legacy m r = true :=
    hwf (fun h32 => ⟨rfl, hbits (.inr h32) 1 (by decide), hbits (.inr h32) 0 (by decide)⟩) (by simp)
  refine ⟨?_, ?_⟩
  · simp only [Instr.wellFormed, wfLegacy, wfPfx_keptPfx haddr, hd, hr, Bool.and_eq_true, decide_true, and_self, true_and]
    cases rex with
    | some c => simpa using hrex rfl
    | none =>
      have hlow := hbits (.inl rfl)
      simp only [Option.isSome_none, Bool.false_eq_true, if_false, Bool.and_eq_true, Bool.not_eq_true',
        decide_eq_false_iff_not, not_le]
      refine ⟨?_, hneeds rfl (hlow 1 (by decide)) (hlow 0 (by decide))⟩
      rw [hlow 2 (by decide)]
      simpa [vregOf] using g.isLt
  · simp only [prefixCount, hop, hrep, hlock, Bool.toNat_true, Bool.toNat_false, List.length_cons, hlen, instrLen, legacyLen]
    omega

theorem prefixCount_of_not_illegal {a : PfxSet} (h : illegalBeforeVex a = false) : prefixCount a = pfxLen (keptPfx a) := by
  simp only [illegalBeforeVex, Bool.or_eq_false_iff] at h
  obtain ⟨⟨hlock, hop⟩, hrep⟩ := h
  simp [prefixCount, hlock, hop, hrep]

/-- In Mode32 the first byte after the escape has the inverted `R` and `X` set (`30_encoding.md` R69, R73). -/
theorem bits_of_escapeHolds {b : Byte} {bs : List Byte} (h : escapeHolds .mode32 (b :: bs) = true) :
    bit b 7 = true ∧ bit b 6 = true := by
  have hfld : fld b 6 2 = 3#2 := by simpa [escapeHolds] using h
  clear h
  revert b
  decide

theorem bit3_not_fld (b : Byte) : (~~~(fld b 3 4)).getLsbD 3 = !bit b 6 := by
  revert b
  decide

theorem decodedWell_vex {m : Mode} {a : PfxSet} {tail rest : List Byte} {i : Instr} (haddr : m = .mode32 → a.addr = false)
    (hesc : escapeHolds m tail = true) (hill : illegalBeforeVex a = false) (h : decodeVex m a tail = .ok i rest) :
    DecodedWell m (prefixCount a + 1 + tail.length) i rest := by
  obtain ⟨p1, p2, bs, g, r, rfl, hok, hrm, rfl⟩ := decodeVex_eq_ok h
  obtain ⟨hlen, hwf, -⟩ := readModRM_eq_some (m := m) (cls := .vex) hrm
  have h32 : m = .mode32 → bit p1 7 = true ∧ bit p1 6 = true ∧ bit p1 5 = true ∧ bit p2 6 = true := by
    rintro rfl
    obtain ⟨h7, h6⟩ := bits_of_escapeHolds hesc
    obtain ⟨h5, hv⟩ := (Bool.and_eq_true _ _).mp (hok rfl)
    exact ⟨h7, h6, h5, hv⟩
  have hd : (vregOf false (!bit p1 7) g).val < nameableRegs .vex m :=
    vregOf_lt_nameable (fun hm => by simp [h32 hm]) (by simp) g
  have ha : (vregOfV false (~~~(fld p2 3 4))).val < nameableRegs .vex m :=
    vregOfV_lt_nameable (fun hm => by rw [bit3_not_fld]; simp [h32 hm]) (by simp)
  have hr : wfRM .vex m r = true := hwf (fun hm => by simp [h32 hm]) (by simp)
  have hvex : wfVex m (keptPfx a) (vregOf false (!bit p1 7) g) (vregOfV false (~~~(fld p2 3 4))) r = true := by
    simp [wfVex, wfPfx_keptPfx haddr, hd, ha, hr]
  have hcount : prefixCount a + 1 + (p1 :: p2 :: 0x40#8 :: bs).length = vexLen (keptPfx a) r + rest.length := by
    rw [prefixCount_of_not_illegal hill]
    simp only [List.length_cons, hlen, vexLen]
    omega
  cases hl : bit p2 2 <;> exact ⟨hvex, hcount⟩

/-- The EVEX instructions share one check and one length (`30_encoding.md` R73, R84). -/
theorem decodedWell_evexInstr {m : Mode} {w : Bool} {ll : BitVec 2} {p : Pfx} {c : EvexCtl} {d a : VReg} {r : RM}
    {i : Instr} {n : Nat} {rest : List Byte} (hi : evexInstr w ll p c d a r = some i)
    (hwf : wfEvex m p c d a r = true) (hn : n = evexLen p r + rest.length) : DecodedWell m n i rest := by
  unfold evexInstr at hi
  split_ifs at hi <;> cases hi <;> exact ⟨hwf, hn⟩

theorem decodedWell_evex {m : Mode} {a : PfxSet} {tail rest : List Byte} {i : Instr} (haddr : m = .mode32 → a.addr = false)
    (hesc : escapeHolds m tail = true) (hill : illegalBeforeVex a = false) (h : decodeEvex m a tail = .ok i rest) :
    DecodedWell m (prefixCount a + 1 + tail.length) i rest := by
  obtain ⟨p0, p1, p2, bs, g, r, rfl, hok, hrm, hctl, hi⟩ := decodeEvex_eq_ok h
  obtain ⟨hlen, hwf, -⟩ := readModRM_eq_some (m := m) (cls := .evex) hrm
  have h32 : m = .mode32 → (bit p0 7 = true ∧ bit p0 6 = true) ∧
      ((bit p0 5 = true ∧ bit p0 4 = true) ∧ bit p1 6 = true) ∧ bit p2 3 = true := by
    rintro rfl
    have hbits := hok rfl
    simp only [evexOk32, Bool.and_eq_true] at hbits
    exact ⟨bits_of_escapeHolds hesc, hbits⟩
  have hd : (vregOf (!bit p0 4) (!bit p0 7) g).val < nameableRegs .evex m :=
    vregOf_lt_nameable (fun hm => by simp [h32 hm]) (fun _ => rfl) g
  have ha : (vregOfV (!bit p2 3) (~~~(fld p1 3 4))).val < nameableRegs .evex m :=
    vregOfV_lt_nameable (fun hm => by rw [bit3_not_fld]; simp [h32 hm]) (fun _ => rfl)
  have hr : wfRM .evex m r = true := hwf (fun hm => by simp [h32 hm]) (fun _ => rfl)
  refine decodedWell_evexInstr hi (by simp [wfEvex, wfPfx_keptPfx haddr, hd, ha, hr, hctl]) ?_
  rw [prefixCount_of_not_illegal hill]
  simp only [List.length_cons, hlen, evexLen]
  omega

/-- The decoder delivers well-formed instructions, as long as the bytes it has read. -/
theorem decodedWell_of_decode {m : Mode} {bs rest : List Byte} {i : Instr} (h : decode m bs = .ok i rest) :
    DecodedWell m bs.length i rest := by
  obtain ⟨a, body, hread, haddr, hbody⟩ := decode_eq_ok h
  have hlen : bs.length = prefixCount a + body.length := by
    simpa [prefixCount, keptPfx, pfxLen, noPrefixes, Nat.add_comm] using length_readPrefixes hread
  rw [hlen]
  obtain ⟨tail, rfl, hc⟩ | ⟨c, tail, hm, rfl, hc⟩ | ⟨tail, rfl, hesc, hill, hc⟩ | ⟨tail, rfl, hesc, hill, hc⟩ :=
    decodeBody_eq_ok hbody
  · simpa [Nat.add_assoc, Nat.add_comm, Nat.add_left_comm] using decodedWell_legacy haddr (by simp) hc
  · simpa [Nat.add_assoc, Nat.add_comm, Nat.add_left_comm] using decodedWell_legacy haddr (fun _ => hm) hc
  · simpa [Nat.add_assoc, Nat.add_comm, Nat.add_left_comm] using decodedWell_vex haddr hesc hill hc
  · simpa [Nat.add_assoc, Nat.add_comm, Nat.add_left_comm] using decodedWell_evex haddr hesc hill hc

/-- Settles O7: each class delivers well-formed instructions. -/
theorem decodedIsWellFormed : Obligations.DecodedIsWellFormed := by
  intro m bs rest i h
  obtain ⟨hwf, -⟩ := decodedWell_of_decode h
  exact hwf

theorem rmLen_le (r : RM) : rmLen r ≤ 6 := by
  have hdisp : ∀ d : Disp, dispLen d ≤ 4 := fun d => by cases d <;> simp [dispLen]
  cases r with
  | reg n => simp [rmLen]
  | mem x =>
    cases x with
    | disp32 | sibNoBase => simp [rmLen, memLen]
    | base b d => simp only [rmLen, memLen]; have := hdisp d; omega
    | sib b i sc d => simp only [rmLen, memLen]; have := hdisp d; omega

/-- No instruction is longer than 13 bytes (`30_encoding.md` R84). -/
theorem instrLen_le (i : Instr) : instrLen i ≤ 13 := by
  have hpfx : ∀ p : Pfx, pfxLen p ≤ 2 := fun p => by
    have := Bool.toNat_le p.seg.isSome
    have := Bool.toNat_le p.addr
    simp only [pfxLen]
    omega
  have hlegacy : ∀ p rex r, legacyLen p rex r ≤ 13 := fun p rex r => by
    have := hpfx p
    have := rmLen_le r
    have := Bool.toNat_le rex
    simp only [legacyLen]
    omega
  have hvex : ∀ p r, vexLen p r ≤ 13 := fun p r => by
    have := hpfx p
    have := rmLen_le r
    simp only [vexLen]
    omega
  have hevex : ∀ p r, evexLen p r ≤ 13 := fun p r => by
    have := hpfx p
    have := rmLen_le r
    simp only [evexLen]
    omega
  cases i with
  | pmulld p rex d r => exact hlegacy p rex r
  | vpmulldVex128 p d a r | vpmulldVex256 p d a r => exact hvex p r
  | vpmulldEvex128 p c d a r | vpmulldEvex256 p c d a r | vpmulldEvex512 p c d a r => exact hevex p r
  | vpmullqEvex128 p c d a r | vpmullqEvex256 p c d a r | vpmullqEvex512 p c d a r => exact hevex p r

theorem instrLen_pos (i : Instr) : 0 < instrLen i := by
  cases i <;> simp only [instrLen, legacyLen, vexLen, evexLen] <;> omega

/-- Settles O8. -/
theorem decodedLength : Obligations.DecodedLength := by
  intro m bs rest i h
  obtain ⟨-, hlen⟩ := decodedWell_of_decode h
  exact ⟨hlen, instrLen_le i⟩

end Sys2Proof.Proofs
end

section
/-! SUPPORT. The step (`30_encoding.md` R89, `70_reset_and_hazards.md` R186, R187): the bytes it fetches, the instruction
it runs, the modes it refuses, and the code region, which it leaves only at the end. -/

namespace Sys2Proof.Proofs

open Sys2Proof.Machine Sys2Proof.Claims

/-! ### The answers of a step -/

theorem step_of_unadmitted {s : State} {why : UnadmittedMode} (h : s.cpuMode = .unadmitted why) :
    step s = .refused (.mode why) := by
  simp only [step, h]

theorem step_of_codeEnd {m : Mode} {s : State} {r : Refusal} (hm : s.cpuMode = .admitted m) (h : codeEnd s = some r) :
    step s = .refused r := by
  simp only [step, hm, h]

section inside

variable {m : Mode} {s : State} (hm : s.cpuMode = .admitted m) (hcode : codeEnd s = none)
include hm hcode

theorem step_of_decode_ok {i : Instr} {rest : List Byte} (h : decode m (fetchBytes m s) = .ok i rest) :
    step s = exec i s := by
  simp only [step, hm, hcode, h]

theorem step_of_decode_invalidOpcode (h : decode m (fetchBytes m s) = .invalidOpcode) :
    step s = .fault .invalidOpcode := by
  simp only [step, hm, hcode, h, raise]

theorem step_of_decode_refused {why : DecodeRefusal} (h : decode m (fetchBytes m s) = .refused why) :
    step s = .refused (.decode why) := by
  simp only [step, hm, hcode, h]

end inside

/-- Settles O10: one equation for each answer of the decoder, and the advance of RIP by `exec`. -/
theorem stepRunsDecodedInstruction : Obligations.StepRunsDecodedInstruction := by
  intro m s hm hcode
  refine ⟨fun i rest h => ?_, step_of_decode_invalidOpcode hm hcode, fun why => step_of_decode_refused hm hcode⟩
  have hstep := step_of_decode_ok hm hcode h
  refine ⟨hstep, fun t ht => ?_⟩
  rw [hstep] at ht
  obtain ⟨m', hm', hrip⟩ := exec_next_ripAdvanced ht
  obtain rfl : m = m' := by simpa [hm] using hm'
  exact hrip

/-- Settles O17: the control bits name the mode (log 8), a step refuses it by name, and nothing completes in it. -/
theorem refusedModes : Obligations.RefusedModes := by
  intro s
  refine ⟨fun (hpe : s.pe = false) => ?_, fun (hpe : s.pe = true) (hvm : s.vm = true) => ?_,
    fun (hpe : s.pe = true) (hvm : s.vm = false) (hlong : s.lma = false ∨ s.cs.l = false) hd => ?_,
    fun why i t hwhy h => ?_⟩
  · exact step_of_unadmitted (by simp [State.cpuMode, hpe])
  · exact step_of_unadmitted (by simp [State.cpuMode, hpe, hvm])
  · have hl : (s.lma && s.cs.l) = false := (Bool.and_eq_false_iff).mpr hlong
    exact step_of_unadmitted (by simp only [State.cpuMode, hpe, hvm, hl, hd]; rfl)
  · obtain ⟨m, hm, -⟩ := exec_eq_next h
    simp [hwhy] at hm

/-! ### Fetch -/

/-- A step looks at no byte beyond the code region (`70_reset_and_hazards.md` R186). -/
theorem fetchCount_le {s : State} {c : CodeRegion} (h : s.code = some c) :
    fetchCount s ≤ c.size - (s.rip - c.base).toNat := by
  simp only [fetchCount, h]
  exact min_le_right _ _

/-- A step looks at all of an instruction that lies in the code region (`30_encoding.md` R84). -/
theorem instrLen_le_fetchCount {i : Instr} {s : State}
    (h : ∀ c, s.code = some c → (s.rip - c.base).toNat + instrLen i ≤ c.size) : instrLen i ≤ fetchCount s := by
  have hlen : instrLen i ≤ maxInstrLen := (instrLen_le i).trans (by decide)
  unfold fetchCount
  cases hc : s.code with
  | none => exact hlen
  | some c =>
    have := h c hc
    exact le_min hlen (by omega)

theorem length_fetchBytes (m : Mode) (s : State) : (fetchBytes m s).length = fetchCount s := by
  simp [fetchBytes]

theorem length_encode (i : Instr) : (encode i).length = instrLen i := by
  cases i with
  | pmulld p rex d r => exact Laws.EncodeLength.pmulld p rex d r
  | vpmulldVex128 p d a r | vpmulldVex256 p d a r => exact Laws.length_encodeVex _ p d a r
  | vpmulldEvex128 p c d a r | vpmulldEvex256 p c d a r | vpmulldEvex512 p c d a r =>
    exact Laws.length_encodeEvex _ _ p c d a r
  | vpmullqEvex128 p c d a r | vpmullqEvex256 p c d a r | vpmullqEvex512 p c d a r =>
    exact Laws.length_encodeEvex _ _ p c d a r

/-- The bytes fetched begin with an encoding that stands at RIP (`20_memory.md` R40). -/
theorem fetchBytes_of_encode {m : Mode} {i : Instr} {s : State} (hlen : instrLen i ≤ fetchCount s)
    (hbytes : ∀ k, k < instrLen i → (encode i)[k]? = some (s.mem.read (fetchAddress m s k))) :
    ∃ rest, fetchBytes m s = encode i ++ rest := by
  refine ⟨(fetchBytes m s).drop (instrLen i), ?_⟩
  have htake : (fetchBytes m s).take (instrLen i) = encode i := by
    apply List.ext_getElem?
    intro k
    by_cases hk : k < instrLen i
    · rw [List.getElem?_take_of_lt hk, hbytes k hk, fetchBytes, List.getElem?_map,
        List.getElem?_range (hk.trans_le hlen), Option.map_some]
    · have hshort : (encode i).length ≤ k := by
        rw [length_encode]
        exact not_lt.mp hk
      have hcut : ((fetchBytes m s).take (instrLen i)).length ≤ k := by
        rw [List.length_take]
        omega
      rw [List.getElem?_eq_none hshort, List.getElem?_eq_none hcut]
  rw [← htake, List.take_append_drop]

/-- Inside the code region no end of the run is answered. -/
theorem codeEnd_eq_none {s : State} (h : ∀ c, s.code = some c → (s.rip - c.base).toNat < c.size) : codeEnd s = none := by
  unfold codeEnd
  cases hc : s.code with
  | none => rfl
  | some c => simp only [if_pos (h c hc)]

/-- Settles O11: the fetched bytes begin with the encoding, which decodes to the instruction. -/
theorem encodedInstructionRuns : Obligations.EncodedInstructionRuns := by
  intro m i s hwf hm hregion hbytes
  obtain ⟨rest, hfetch⟩ := fetchBytes_of_encode (instrLen_le_fetchCount hregion) hbytes
  have hcode : codeEnd s = none := codeEnd_eq_none fun c hc => by
    have := hregion c hc
    have := instrLen_pos i
    omega
  exact step_of_decode_ok hm hcode (by rw [hfetch]; exact decodeEncodeRoundTrip m i rest hwf)

/-! ### The code region -/

theorem codeEnd_at_end {s : State} {c : CodeRegion} (hc : s.code = some c) (hsize : c.size < 2 ^ 64)
    (hrip : s.rip = c.base + BitVec.ofNat 64 c.size) : codeEnd s = some .endOfRun := by
  have hoff : (s.rip - c.base).toNat = c.size := by
    rw [hrip, add_sub_cancel_left, BitVec.toNat_ofNat, Nat.mod_eq_of_lt hsize]
  simp only [codeEnd, hc, hoff, if_neg (lt_irrefl c.size), if_pos hrip]

theorem runComplete_at_end {s : State} {c : CodeRegion} (hc : s.code = some c) (hsize : c.size < 2 ^ 64)
    (hrip : s.rip = c.base + BitVec.ofNat 64 c.size) : RunComplete s :=
  ⟨c, hc, hrip, codeEnd_at_end hc hsize hrip⟩

/-- Settles O59. -/
theorem endOfRun : Obligations.EndOfRun := by
  intro m s c hm hc hsize hrip
  exact ⟨step_of_codeEnd hm (codeEnd_at_end hc hsize hrip), runComplete_at_end hc hsize hrip⟩

/-- RIP is inside the region or at its end when its offset is no larger than the size. -/
theorem codeEnd_none_or_runComplete {s : State} {c : CodeRegion} (hc : s.code = some c) (hsize : c.size < 2 ^ 64)
    (hoff : (s.rip - c.base).toNat ≤ c.size) : codeEnd s = none ∨ RunComplete s := by
  rcases hoff.lt_or_eq with hlt | heq
  · refine .inl (codeEnd_eq_none fun c' hc' => ?_)
    obtain rfl : c = c' := by simpa [hc] using hc'
    exact hlt
  · refine .inr (runComplete_at_end hc hsize ?_)
    rw [← heq, BitVec.ofNat_toNat, BitVec.setWidth_eq, BitVec.add_comm, BitVec.sub_add_cancel]

/-- Where no end of the run is answered, RIP is inside the region. -/
theorem lt_size_of_codeEnd {s : State} {c : CodeRegion} (hc : s.code = some c) (h : codeEnd s = none) :
    (s.rip - c.base).toNat < c.size := by
  simp only [codeEnd, hc] at h
  split at h
  · assumption
  · split at h <;> cases h

/-- RIP advanced by an instruction that lies in the region has an offset no larger than its size; in Mode32 the sum does
not wrap, for the region ends below 2^32 (`70_reset_and_hazards.md` R187). -/
theorem offset_of_ripAdvanced {m : Mode} {s t : State} {c : CodeRegion} {n : Nat} (hsize : c.size < 2 ^ 64)
    (h32 : m = .mode32 → c.base.toNat + c.size < 2 ^ 32) (hn : (s.rip - c.base).toNat + n ≤ c.size)
    (hrip : RipAdvanced m s t n) : (t.rip - c.base).toNat ≤ c.size := by
  have hs := s.rip.isLt
  have hb := c.base.isLt
  rw [BitVec.toNat_sub] at hn ⊢
  cases m with
  | mode64 =>
    simp only [RipAdvanced] at hrip
    omega
  | mode32 =>
    have := h32 rfl
    simp only [RipAdvanced] at hrip
    omega

/-- Settles O60: the instruction was fetched inside the region, so RIP advances to its end at most. -/
theorem stepStaysInCode : Obligations.StepStaysInCode := by
  intro m s t c hm hc hsize h32 hstep
  obtain ⟨m', i, rest, hm', hcode, hdecode, hexec⟩ := step_eq_next s t hstep
  obtain rfl : m = m' := by simpa [hm] using hm'
  obtain ⟨hlen, -⟩ := decodedLength m _ rest i hdecode
  rw [length_fetchBytes] at hlen
  have hcount := fetchCount_le hc
  have hinside := lt_size_of_codeEnd hc hcode
  obtain ⟨m'', hm'', hrip⟩ := exec_next_ripAdvanced hexec
  obtain rfl : m = m'' := by simpa [hm] using hm''
  have htc : t.code = some c := by
    obtain ⟨hframe, -⟩ := exec_next_onlyDest i s t hexec
    rw [hframe]
    exact hc
  exact ⟨htc, codeEnd_none_or_runComplete htc hsize (offset_of_ripAdvanced hsize h32 (by omega) hrip)⟩

end Sys2Proof.Proofs
end

section
/-! SUPPORT. Prefixes by kind (`30_encoding.md` R62): when a kind is repeated, and which kinds have been read after a set
of prefixes. From that, the encodings that R85 to R87 make #UD: illegal prefixes and the reserved fields of EVEX. -/

namespace Sys2Proof.Proofs

open Sys2Proof.Machine Sys2Proof.Claims

/-! ### Kinds of prefix -/

/-- A prefix of the same kind has been read. -/
def kindRead (a : PfxSet) : PfxByte → Bool
  | .opSize => a.opSize
  | .addrSize => a.addr
  | .segment _ => a.seg.isSome
  | .lock => a.lock
  | .rep => a.rep

/-- Two prefixes are of one kind. -/
def sameKind : PfxByte → PfxByte → Bool
  | .opSize, .opSize => true
  | .addrSize, .addrSize => true
  | .segment _, .segment _ => true
  | .lock, .lock => true
  | .rep, .rep => true
  | _, _ => false

theorem addPrefix_eq_none_iff (a : PfxSet) (p : PfxByte) : addPrefix a p = none ↔ kindRead a p = true := by
  cases p <;> simp [addPrefix, kindRead, Option.isSome_iff_ne_none]

theorem kindRead_addPrefix {a a' : PfxSet} {p : PfxByte} (h : addPrefix a p = some a') (q : PfxByte) :
    kindRead a' q = (kindRead a q || sameKind p q) := by
  cases p <;> obtain ⟨-, rfl⟩ : _ ∧ _ := by simpa [addPrefix] using h
  all_goals cases q <;> simp [kindRead, sameKind]

/-- A prefix of the kind of a byte has been read; of no other byte. -/
def byteKindRead (a : PfxSet) (x : Byte) : Bool := (prefixOf x).any (kindRead a)

theorem sameKind_iff_bytes : ∀ x ∈ prefixBytes, ∀ y ∈ prefixBytes,
    (prefixOf x).any (fun p => (prefixOf y).any (sameKind p)) = true ↔ SameKind x y := by
  unfold SameKind
  decide

theorem byteKindRead_addPrefix {a a' : PfxSet} {x y : Byte} {p : PfxByte} (hx : x ∈ prefixBytes) (hy : y ∈ prefixBytes)
    (hp : prefixOf x = some p) (h : addPrefix a p = some a') :
    byteKindRead a' y = true ↔ byteKindRead a y = true ∨ SameKind x y := by
  obtain ⟨q, hq⟩ := prefixOf_of_mem y hy
  rw [← sameKind_iff_bytes x hx y hy]
  simp [byteKindRead, hp, hq, kindRead_addPrefix h]

theorem byteKindRead_noPrefixes (x : Byte) : byteKindRead noPrefixes x = false := by
  unfold byteKindRead
  cases prefixOf x with
  | none => rfl
  | some p => cases p <;> rfl

/-! ### Reading prefixes by kind -/

/-- A byte whose kind was read before, or stands before it, makes the prefixes repeated, whatever follows
(`30_encoding.md` R62). -/
theorem readPrefixes_eq_none {pre : List Byte} {b : Byte} (hpre : ∀ x ∈ pre, x ∈ prefixBytes) (hb : b ∈ prefixBytes)
    {a : PfxSet} (h : byteKindRead a b = true ∨ ∃ x ∈ pre, SameKind x b) (bs : List Byte) :
    readPrefixes a (pre ++ b :: bs) = none := by
  induction pre generalizing a with
  | nil =>
    obtain ⟨p, hp⟩ := prefixOf_of_mem b hb
    have hread : kindRead a p = true := by simpa [byteKindRead, hp] using h
    rw [List.nil_append, readPrefixes_cons_prefix hp, (addPrefix_eq_none_iff a p).mpr hread, Option.bind_none]
  | cons x pre ih =>
    obtain ⟨hx, hpre⟩ := List.forall_mem_cons.mp hpre
    obtain ⟨p, hp⟩ := prefixOf_of_mem x hx
    rw [List.cons_append, readPrefixes_cons_prefix hp, Option.bind_eq_none_iff]
    intro a' hadd
    refine ih hpre ?_
    rw [byteKindRead_addPrefix hx hb hp hadd]
    simpa [or_assoc] using h

/-- Prefixes of different kinds are all read, and then the kinds read are those before and their own. -/
theorem readPrefixes_of_pairwise {pre : List Byte} (hpre : ∀ x ∈ pre, x ∈ prefixBytes)
    (hpair : pre.Pairwise fun a b => ¬ SameKind a b) {a : PfxSet} (hnew : ∀ x ∈ pre, byteKindRead a x = false) :
    ∃ b, readPrefixes a pre = some (b, []) ∧
      ∀ y ∈ prefixBytes, byteKindRead b y = true ↔ byteKindRead a y = true ∨ ∃ x ∈ pre, SameKind x y := by
  induction pre generalizing a with
  | nil => exact ⟨a, rfl, by simp⟩
  | cons x pre ih =>
    obtain ⟨hx, hpre⟩ := List.forall_mem_cons.mp hpre
    obtain ⟨hxpre, hpair⟩ := List.pairwise_cons.mp hpair
    obtain ⟨hnewx, hnew⟩ := List.forall_mem_cons.mp hnew
    obtain ⟨p, hp⟩ := prefixOf_of_mem x hx
    obtain ⟨a', hadd⟩ : ∃ a', addPrefix a p = some a' := by
      refine Option.ne_none_iff_exists'.mp fun hnone => ?_
      rw [addPrefix_eq_none_iff] at hnone
      simp [byteKindRead, hp, hnone] at hnewx
    have hkinds := fun y hy => byteKindRead_addPrefix (y := y) hx hy hp hadd
    obtain ⟨b, hread, hb⟩ := ih hpre hpair (a := a') fun y hy => by
      rw [← Bool.not_eq_true, hkinds y (hpre y hy), not_or, Bool.not_eq_true]
      exact ⟨hnew y hy, hxpre y hy⟩
    refine ⟨b, by rw [readPrefixes_cons_prefix hp, hadd]; exact hread, fun y hy => ?_⟩
    rw [hb y hy, hkinds y hy]
    simp [or_assoc]

/-- A kind that was read stays read. -/
theorem byteKindRead_mono {bs rest : List Byte} {a b : PfxSet} (h : readPrefixes a bs = some (b, rest)) {y : Byte}
    (hy : byteKindRead a y = true) : byteKindRead b y = true := by
  induction bs generalizing a with
  | nil => cases h; exact hy
  | cons x bs ih =>
    cases hx : prefixOf x with
    | none =>
      rw [readPrefixes_cons_other hx] at h
      cases h
      exact hy
    | some p =>
      rw [readPrefixes_cons_prefix hx] at h
      obtain ⟨a', hadd, hread⟩ := Option.bind_eq_some_iff.mp h
      refine ih hread ?_
      unfold byteKindRead at hy ⊢
      cases hq : prefixOf y with
      | none => simp [hq] at hy
      | some q =>
        rw [hq] at hy
        simpa [kindRead_addPrefix hadd] using Or.inl hy

/-- The kind of a prefix that stands in a byte string is read, if its prefixes are. -/
theorem byteKindRead_of_mem {pre bs rest : List Byte} {c : Byte} {a b : PfxSet} (hpre : ∀ x ∈ pre, x ∈ prefixBytes)
    (hc : c ∈ prefixBytes) (h : readPrefixes a (pre ++ c :: bs) = some (b, rest)) : byteKindRead b c = true := by
  induction pre generalizing a with
  | nil =>
    obtain ⟨p, hp⟩ := prefixOf_of_mem c hc
    rw [List.nil_append, readPrefixes_cons_prefix hp] at h
    obtain ⟨a', hadd, hread⟩ := Option.bind_eq_some_iff.mp h
    exact byteKindRead_mono hread ((byteKindRead_addPrefix hc hc hp hadd).mpr (.inr (.inl rfl)))
  | cons x pre ih =>
    obtain ⟨hx, hpre⟩ := List.forall_mem_cons.mp hpre
    obtain ⟨p, hp⟩ := prefixOf_of_mem x hx
    rw [List.cons_append, readPrefixes_cons_prefix hp] at h
    obtain ⟨a', -, hread⟩ := Option.bind_eq_some_iff.mp h
    exact ih hpre hread

/-! ### Sets of prefixes -/

/-- What the decoder knows after a set of prefixes: they are read, 67 is none of them in Mode32, and the kinds read are
theirs. -/
def PrefixesRead (m : Mode) (pre : List Byte) (a : PfxSet) : Prop :=
  readPrefixes noPrefixes pre = some (a, []) ∧ (m = .mode32 → a.addr = false) ∧
    ∀ y ∈ prefixBytes, byteKindRead a y = true ↔ ∃ x ∈ pre, SameKind x y

theorem mem_prefixBytes_of_prefixSet {m : Mode} {pre : List Byte} (h : PrefixSet m pre) : ∀ x ∈ pre, x ∈ prefixBytes := h.1

theorem sameKind_addrSize_iff (x : Byte) : SameKind x 0x67#8 ↔ x = 0x67#8 := by
  simp [SameKind, overrideBytes]

theorem prefixesRead_of_prefixSet {m : Mode} {pre : List Byte} (h : PrefixSet m pre) : ∃ a, PrefixesRead m pre a := by
  obtain ⟨hpre, hpair, h67⟩ := h
  obtain ⟨a, hread, hkinds⟩ := readPrefixes_of_pairwise hpre hpair (a := noPrefixes) fun x _ => byteKindRead_noPrefixes x
  simp only [byteKindRead_noPrefixes, Bool.false_eq_true, false_or] at hkinds
  refine ⟨a, hread, fun hm => ?_, hkinds⟩
  have haddr := hkinds 0x67#8 (by decide)
  rw [← Bool.not_eq_true]
  intro hset
  obtain ⟨x, hx, hsame⟩ := haddr.mp hset
  rw [sameKind_addrSize_iff] at hsame
  exact h67 hm (hsame ▸ hx)

/-- After a set of prefixes the decoder goes on with what follows them (`30_encoding.md` R89 step 1). -/
theorem decode_of_prefixesRead {m : Mode} {pre : List Byte} {a : PfxSet} (hpre : PrefixSet m pre)
    (h : PrefixesRead m pre a) {c : Byte} (hc : prefixOf c = none) (bs : List Byte) :
    decode m (pre ++ c :: bs) = decodeBody m a (c :: bs) := by
  obtain ⟨hread, haddr, -⟩ := h
  refine decode_of_readPrefixes ?_ haddr
  rw [readPrefixes_append_other (mem_prefixBytes_of_prefixSet hpre) hc, hread, Option.map_some]

section kinds

variable {m : Mode} {pre : List Byte} {a : PfxSet} (h : PrefixesRead m pre a)
include h

theorem lock_iff : a.lock = true ↔ 0xF0#8 ∈ pre := by
  obtain ⟨-, -, hkinds⟩ := h
  simpa [SameKind, overrideBytes] using (show a.lock = true ↔ _ from hkinds 0xF0#8 (by decide))

theorem opSize_iff : a.opSize = true ↔ 0x66#8 ∈ pre := by
  obtain ⟨-, -, hkinds⟩ := h
  simpa [SameKind, overrideBytes] using (show a.opSize = true ↔ _ from hkinds 0x66#8 (by decide))

theorem rep_iff : a.rep = true ↔ 0xF2#8 ∈ pre ∨ 0xF3#8 ∈ pre := by
  obtain ⟨-, -, hkinds⟩ := h
  rw [show a.rep = true ↔ _ from hkinds 0xF2#8 (by decide)]
  simp only [SameKind, overrideBytes, List.mem_cons, List.not_mem_nil, or_false]
  constructor
  · rintro ⟨x, hx, rfl | ⟨-, hno⟩ | ⟨rfl | rfl, -⟩⟩
    · exact .inl hx
    · exact absurd hno (by decide)
    · exact .inl hx
    · exact .inr hx
  · rintro (hx | hx)
    · exact ⟨_, hx, .inl rfl⟩
    · exact ⟨_, hx, .inr (.inr ⟨.inr rfl, .inl trivial⟩)⟩

/-- The prefixes that are #UD before VEX and EVEX (`30_encoding.md` R85, R87). -/
theorem illegalBeforeVex_iff : illegalBeforeVex a = true ↔ ∃ b ∈ [0xF0#8, 0x66#8, 0xF2#8, 0xF3#8], b ∈ pre := by
  simp only [illegalBeforeVex, Bool.or_eq_true, lock_iff h, opSize_iff h, rep_iff h, List.mem_cons, List.not_mem_nil,
    or_false, exists_eq_or_imp, exists_eq_left, or_assoc]

theorem illegalBeforeVex_eq_false (hno : NoIllegalPrefix pre) : illegalBeforeVex a = false := by
  rw [← Bool.not_eq_true, illegalBeforeVex_iff h]
  rintro ⟨b, hb, hmem⟩
  exact hno b hb hmem

end kinds

/-! ### REX bytes -/

theorem fld_rex (n : BitVec 4) : fld (0x40#8 ||| n.setWidth 8) 4 4 = 4#4 := by
  revert n
  decide

theorem prefixOf_of_rex {c : Byte} (hc : fld c 4 4 = 4#4) : prefixOf c = none := by
  revert c
  decide

theorem decodeBody_rexByte (a : PfxSet) {c : Byte} (hc : fld c 4 4 = 4#4) (bs : List Byte) :
    decodeBody .mode64 a (c :: bs) = decodeRex a c bs := by
  have hvex : c ≠ 0xC4#8 := by rintro rfl; exact absurd hc (by decide)
  have hevex : c ≠ 0x62#8 := by rintro rfl; exact absurd hc (by decide)
  simp [decodeBody, hc, hvex, hevex]

/-- Of a REX byte only the low three bits are read (`30_encoding.md` R63). -/
theorem decodeRex_congr {c c' : Byte} (h : fld c 0 3 = fld c' 0 3) (a : PfxSet) (bs : List Byte) :
    decodeRex a c bs = decodeRex a c' bs := by
  have h0 : bit c 0 = bit c' 0 := bit_eq_of_low h (by decide)
  have h1 : bit c 1 = bit c' 1 := bit_eq_of_low h (by decide)
  have h2 : bit c 2 = bit c' 2 := bit_eq_of_low h (by decide)
  have hlegacy : ∀ bs, decodeLegacy a (some c) bs = decodeLegacy a (some c') bs := by
    intro bs
    match bs with
    | [] => rfl
    | [_] => rfl
    | b1 :: b2 :: bs => simp only [decodeLegacy, Option.getD_some, Option.isSome_some, h0, h1, h2]
  cases bs with
  | nil => rfl
  | cons x bs => simp only [decodeRex, hlegacy]

/-- Settles O13: REX bytes with and without W have the same low three bits. -/
theorem rexWIgnored : Obligations.RexWIgnored := by
  intro pre rest n hpre
  have hbytes : fld (0x40#8 ||| n.setWidth 8) 4 4 = 4#4 ∧ fld (0x48#8 ||| n.setWidth 8) 4 4 = 4#4 ∧
      fld (0x40#8 ||| n.setWidth 8) 0 3 = fld (0x48#8 ||| n.setWidth 8) 0 3 := by
    revert n
    decide
  obtain ⟨h0, h1, hlow⟩ := hbytes
  have hbody : ∀ a, decodeBody .mode64 a ((0x40#8 ||| n.setWidth 8) :: rest) =
      decodeBody .mode64 a ((0x48#8 ||| n.setWidth 8) :: rest) := fun a => by
    rw [decodeBody_rexByte a h0, decodeBody_rexByte a h1, decodeRex_congr hlow]
  simpa using decode_prefixes_congr hpre (prefixOf_of_rex h0) (prefixOf_of_rex h1) hbody

/-! ### Illegal prefixes before VEX and EVEX -/

/-- The bytes are optional prefixes and a VEX or EVEX escape that holds in the mode (`30_encoding.md` R67, R73). -/
def EscapeForm (m : Mode) (p : Pfx) (bytes : List Byte) : Prop :=
  ∃ c b bs, bytes = encodePfx p ++ c :: b :: bs ∧ (c = 0xC4#8 ∨ c = 0x62#8) ∧ (m = .mode32 → p.addr = false) ∧
    ∀ rest, escapeHolds m (b :: rest) = true

theorem escapeForm_encodeVex {m : Mode} {p : Pfx} {d a : VReg} {r : RM} (l : Bool) (h : wfVex m p d a r = true) :
    EscapeForm m p (encodeVex l p d a r) := by
  simp only [wfVex, Bool.and_eq_true, decide_eq_true_eq] at h
  obtain ⟨⟨⟨hp, hd⟩, -⟩, hr⟩ := h
  exact ⟨0xC4#8, _, _, by rw [encodeVex, List.append_assoc]; rfl, .inl rfl, addr_of_wfPfx hp,
    fun rest => escapeHolds_of_fields rest (fld_vexP1 _ _ _) hd hr⟩

theorem escapeForm_encodeEvex {m : Mode} {p : Pfx} {c : EvexCtl} {d a : VReg} {r : RM} (w : Bool) (ll : BitVec 2)
    (h : wfEvex m p c d a r = true) : EscapeForm m p (encodeEvex w ll p c d a r) := by
  simp only [wfEvex, Bool.and_eq_true, decide_eq_true_eq] at h
  obtain ⟨⟨⟨⟨hp, hd⟩, -⟩, hr⟩, -⟩ := h
  exact ⟨0x62#8, _, _, by rw [encodeEvex, List.append_assoc]; rfl, .inr rfl, addr_of_wfPfx hp,
    fun rest => escapeHolds_of_fields rest (fld_evexP0 _ _ _ _) hd hr⟩

theorem escapeForm_encode {m : Mode} {i : Instr} (hwf : i.wellFormed m = true) (hcls : (formOf i).cls ≠ .legacy) :
    ∃ p, EscapeForm m p (encode i) := by
  cases i with
  | pmulld p rex d r => exact absurd rfl hcls
  | vpmulldVex128 p d a r | vpmulldVex256 p d a r => exact ⟨p, escapeForm_encodeVex _ hwf⟩
  | vpmulldEvex128 p c d a r | vpmulldEvex256 p c d a r | vpmulldEvex512 p c d a r =>
    exact ⟨p, escapeForm_encodeEvex _ _ hwf⟩
  | vpmullqEvex128 p c d a r | vpmullqEvex256 p c d a r | vpmullqEvex512 p c d a r =>
    exact ⟨p, escapeForm_encodeEvex _ _ hwf⟩

/-- Leading prefix bytes of such a string are some of its prefixes. -/
theorem split_at_prefixes {pfx pre post bs : List Byte} {c : Byte} (hc : c ∉ prefixBytes)
    (hpre : ∀ x ∈ pre, x ∈ prefixBytes) (h : pfx ++ c :: bs = pre ++ post) :
    ∃ mid, pfx = pre ++ mid ∧ post = mid ++ c :: bs := by
  obtain ⟨mid, hpfx, hpost⟩ | ⟨mid, hpre', hbs⟩ := List.append_eq_append_iff.mp h.symm
  · exact ⟨mid, hpfx, hpost⟩
  · cases mid with
    | nil => exact ⟨[], by simpa using hpre'.symm, by simpa using hbs.symm⟩
    | cons x mid =>
      obtain ⟨rfl, -⟩ := List.cons.inj hbs
      exact absurd (hpre c (by simp [hpre'])) hc

/-- The bytes of a segment override and 67 are prefixes of two kinds. -/
theorem prefixSet_encodePfx {m : Mode} {p : Pfx} (h67 : m = .mode32 → p.addr = false) : PrefixSet m (encodePfx p) := by
  have hseg : ∀ g : Seg, segByte g ∈ prefixBytes ∧ ¬ SameKind (segByte g) 0x67#8 := fun g => by
    cases g <;> exact ⟨by decide, by rw [sameKind_addrSize_iff]; decide⟩
  have haddr : (0x67#8 : Byte) ∈ prefixBytes := by decide
  have hne : ∀ g : Seg, segByte g ≠ 0x67#8 := fun g => by cases g <;> decide
  obtain ⟨seg, addr⟩ := p
  cases seg <;> cases addr <;> simp_all [encodePfx, PrefixSet, ne_comm]

theorem sameKind_symm {x y : Byte} (h : SameKind x y) : SameKind y x := by
  obtain rfl | ⟨hx, hy⟩ | ⟨hx, hy⟩ := h
  · exact .inl rfl
  · exact .inr (.inl ⟨hy, hx⟩)
  · exact .inr (.inr ⟨hy, hx⟩)

/-- One more prefix, of another kind and not 67, among a set of prefixes. -/
theorem prefixSet_insert {m : Mode} {pre mid : List Byte} {x : Byte} (h : PrefixSet m (pre ++ mid)) (hx : x ∈ prefixBytes)
    (h67 : x ≠ 0x67#8) (hnew : ∀ y ∈ pre ++ mid, ¬ SameKind x y) : PrefixSet m (pre ++ x :: mid) := by
  obtain ⟨hpre, hpair, hno⟩ := h
  have hperm : (pre ++ x :: mid).Perm (x :: (pre ++ mid)) := List.perm_middle
  refine ⟨fun y hy => ?_, ?_, fun hm hy => ?_⟩
  · obtain rfl | hy := List.mem_cons.mp (hperm.mem_iff.mp hy)
    · exact hx
    · exact hpre y hy
  · rw [hperm.pairwise_iff fun {y z} hyz hzy => hyz (sameKind_symm hzy)]
    exact List.pairwise_cons.mpr ⟨hnew, hpair⟩
  · obtain heq | hy := List.mem_cons.mp (hperm.mem_iff.mp hy)
    · exact h67 heq.symm
    · exact hno hm hy

/-- LOCK, 66, F2 and F3 are no optional prefixes of VEX and EVEX. -/
theorem not_sameKind_encodePfx {b : Byte} (hb : b ∈ [0xF0#8, 0x66#8, 0xF2#8, 0xF3#8]) (p : Pfx) :
    ∀ y ∈ encodePfx p, ¬ SameKind b y := by
  have hseg : ∀ y ∈ 0x67#8 :: overrideBytes, ¬ SameKind b y := by
    revert b
    unfold SameKind
    decide
  have hmem : ∀ g, segByte g ∈ overrideBytes := fun g => by cases g <;> decide
  intro y hy
  refine hseg y ?_
  obtain ⟨seg, addr⟩ := p
  cases seg <;> cases addr <;> simp only [encodePfx, List.append_nil, List.nil_append, List.mem_append, List.mem_cons,
    List.not_mem_nil, or_false, Bool.false_eq_true, if_false, if_true] at hy
  case some.false g => rw [hy]; exact List.mem_cons_of_mem _ (hmem g)
  case some.true g =>
    obtain rfl | rfl := hy
    · exact List.mem_cons_of_mem _ (hmem g)
    · exact List.mem_cons_self
  case none.true => rw [hy]; exact List.mem_cons_self

/-- After prefixes of which one is illegal, VEX and EVEX are #UD (`30_encoding.md` R85, R87). -/
theorem decode_illegal_escape {m : Mode} {pre : List Byte} {x c b : Byte} {bs : List Byte} (hpre : PrefixSet m pre)
    (hx : x ∈ [0xF0#8, 0x66#8, 0xF2#8, 0xF3#8]) (hmem : x ∈ pre) (hc : c = 0xC4#8 ∨ c = 0x62#8)
    (hesc : escapeHolds m (b :: bs) = true) : decode m (pre ++ c :: b :: bs) = .invalidOpcode := by
  obtain ⟨a, ha⟩ := prefixesRead_of_prefixSet hpre
  have hill : illegalBeforeVex a = true := (illegalBeforeVex_iff ha).mpr ⟨x, hx, hmem⟩
  obtain rfl | rfl := hc
  · rw [decode_of_prefixesRead hpre ha (by decide), decodeBody_vex hesc, if_pos hill]
  · rw [decode_of_prefixesRead hpre ha (by decide), decodeBody_evex hesc, if_pos hill]

/-- A REX byte just before a VEX or EVEX escape is #UD (`30_encoding.md` R85, R87; log 15). -/
theorem decode_rex_escape {pre : List Byte} {c : Byte} (hpre : PrefixSet .mode64 pre) (hc : c = 0xC4#8 ∨ c = 0x62#8)
    (n : BitVec 4) (bs : List Byte) : decode .mode64 (pre ++ (0x40#8 ||| n.setWidth 8) :: c :: bs) = .invalidOpcode := by
  obtain ⟨a, ha⟩ := prefixesRead_of_prefixSet hpre
  rw [decode_of_prefixesRead hpre ha (prefixOf_of_rex (fld_rex n)), decodeBody_rexByte a (fld_rex n)]
  obtain rfl | rfl := hc <;> simp [decodeRex]

/-- Settles O14: the inserted prefix is one more of the set before the escape; a LOCK before the legacy form is as for
every encoding. -/
theorem illegalPrefixesUd : Obligations.IllegalPrefixesUd := by
  intro m i pre post rest hwf hsplit hpre
  obtain ⟨-, hlock⟩ := noMemoryWrite
  refine ⟨fun _ => hlock m i pre post rest hwf hsplit hpre, fun hcls => ?_⟩
  obtain ⟨p, c, b, bs, henc, hc, h67, hesc⟩ := escapeForm_encode hwf hcls
  have hcpfx : c ∉ prefixBytes := by obtain rfl | rfl := hc <;> decide
  obtain ⟨mid, hmid, rfl⟩ := split_at_prefixes hcpfx hpre (henc.symm.trans hsplit)
  have hset : PrefixSet m (pre ++ mid) := hmid ▸ prefixSet_encodePfx h67
  refine ⟨fun x hx => ?_, fun hm hhead n => ?_⟩
  · have hnew := not_sameKind_encodePfx hx p
    rw [hmid] at hnew
    have hbytes : x ∈ prefixBytes ∧ x ≠ 0x67#8 := by
      clear hnew
      revert x
      decide
    have hins := prefixSet_insert hset hbytes.1 hbytes.2 hnew
    simpa using decode_illegal_escape hins hx (by simp) hc (hesc (bs ++ rest))
  · subst hm
    have hnil : mid = [] := by
      cases mid with
      | nil => rfl
      | cons x mid =>
        have hx : x ∈ prefixBytes := hset.1 x (by simp)
        have hx' : x = 0xC4#8 ∨ x = 0x62#8 := by simpa using hhead
        obtain rfl | rfl := hx' <;> exact absurd hx (by decide)
    subst hnil
    simpa using decode_rex_escape (by simpa using hset) hc n (b :: (bs ++ rest))

/-! ### The reserved fields of EVEX -/

/-- How many displacement bytes `mod` asks for (`30_encoding.md` R74). -/
theorem readDisp_isSome_iff (md : BitVec 2) (bs : List Byte) :
    (readDisp md bs).isSome = true ↔ (if md = 0#2 then 0 else if md = 1#2 then 1 else 4) ≤ bs.length := by
  unfold readDisp
  split
  · simp
  · split
    · match bs with
      | [] => simp
      | _ :: bs => simp
    · match bs with
      | [] | [_] | [_, _] | [_, _, _] => simp
      | _ :: _ :: _ :: _ :: bs => simp

theorem readDisp32_isSome_iff (bs : List Byte) : (readDisp32 bs).isSome = true ↔ 4 ≤ bs.length := by
  match bs with
  | [] | [_] | [_, _] | [_, _, _] => simp [readDisp32]
  | _ :: _ :: _ :: _ :: bs => simp [readDisp32]

/-- An operand is read exactly when the SIB and displacement bytes that its ModRM asks for are there
(`30_encoding.md` R74, R76, R77). -/
theorem readModRM_isSome_iff (hi x b : Bool) (modrm : Byte) (rest : List Byte) :
    (readModRM hi x b (modrm :: rest)).isSome = true ↔ addressLen modrm rest ≤ rest.length := by
  have hmod : ∀ md : BitVec 2, md = 3#2 ∨ md = 0#2 ∨ md = 1#2 ∨ md = 2#2 := by decide
  have hmd := hmod (modrm.extractLsb' 6 2)
  by_cases h4 : modrm.extractLsb' 0 3 = 4#3
  · cases rest with
    | nil => obtain hmd | hmd | hmd | hmd := hmd <;> simp [readModRM, addressLen, readMem, fld, hmd, h4]
    | cons sib rest =>
      by_cases h5 : sib.extractLsb' 0 3 = 5#3 <;> obtain hmd | hmd | hmd | hmd := hmd <;>
        simp [readModRM, addressLen, readMem, fld, hmd, h4, h5, readDisp_isSome_iff, readDisp32_isSome_iff]
  · by_cases h5 : modrm.extractLsb' 0 3 = 5#3 <;> obtain hmd | hmd | hmd | hmd := hmd <;>
      simp [readModRM, addressLen, readMem, fld, hmd, h4, h5, readDisp_isSome_iff, readDisp32_isSome_iff]

/-- After a set of prefixes with nothing illegal the EVEX class decides, else it is #UD (`30_encoding.md` R87). -/
theorem decode_evex {m : Mode} {pre : List Byte} {a : PfxSet} (hpre : PrefixSet m pre) (ha : PrefixesRead m pre a)
    {p0 : Byte} (h32 : m = .mode32 → p0.extractLsb' 6 2 = 3#2) (bs : List Byte) :
    decode m (pre ++ 0x62#8 :: p0 :: bs) = if illegalBeforeVex a then .invalidOpcode else decodeEvex m a (p0 :: bs) := by
  have hesc : escapeHolds m (p0 :: bs) = true := by
    cases m with
    | mode64 => rfl
    | mode32 => simp [escapeHolds, fld, h32 rfl]
  rw [decode_of_prefixesRead hpre ha (by decide), decodeBody_evex hesc]

/-- Bytes that the EVEX class makes #UD are #UD after any set of prefixes. -/
theorem decode_evex_ud {m : Mode} {pre : List Byte} (hpre : PrefixSet m pre) {p0 : Byte}
    (h32 : m = .mode32 → p0.extractLsb' 6 2 = 3#2) {bs : List Byte}
    (h : ∀ a, decodeEvex m a (p0 :: bs) = .invalidOpcode) : decode m (pre ++ 0x62#8 :: p0 :: bs) = .invalidOpcode := by
  obtain ⟨a, ha⟩ := prefixesRead_of_prefixSet hpre
  rw [decode_evex hpre ha h32, h, ite_self]

/-- The map and `pp` of the group, with the reserved bits of `P0` and `P1` in order (`30_encoding.md` R71, R85). -/
theorem decodeEvex_group {m : Mode} {a : PfxSet} {p0 p1 p2 : Byte} {tail : List Byte} (h0 : p0.extractLsb' 0 4 = 2#4)
    (h1 : p1.extractLsb' 0 3 = 5#3) : decodeEvex m a (p0 :: p1 :: p2 :: tail) = decodeEvexTail m a p0 p1 p2 tail := by
  have hp0 : fld p0 2 2 = 0#2 ∧ fld p0 0 2 = 2#2 := by
    revert p0
    unfold fld
    decide
  have hp1 : bit p1 2 = true ∧ fld p1 0 2 = 1#2 := by
    revert p1
    unfold fld bit
    decide
  simp [decodeEvex, hp0, hp1]

section tail

variable {m : Mode} {a : PfxSet} {p0 p1 p2 modrm : Byte} {rest : List Byte}

/-- `L'L = 11` (`30_encoding.md` R85). -/
theorem decodeEvexTail_ll3 {bs : List Byte} (hll : p2.extractLsb' 5 2 = 3#2) :
    decodeEvexTail m a p0 p1 p2 (0x40#8 :: bs) = .invalidOpcode := by
  simp [decodeEvexTail, fld, hll]

/-- Controls that no operand allows, once the operand is there (`30_encoding.md` R85; log 14). -/
theorem decodeEvexTail_ctl (h32 : m = .mode32 → evexOk32 p0 p1 p2 = true) (hlen : addressLen modrm rest ≤ rest.length)
    (hctl : ∀ g r rest', readModRM (!bit p0 6) (!bit p0 6) (!bit p0 5) (modrm :: rest) = some (g, r, rest') →
      wfCtl ⟨(fld p2 0 3).toFin, bit p2 7, bit p2 4⟩ r = false) :
    decodeEvexTail m a p0 p1 p2 (0x40#8 :: modrm :: rest) = .invalidOpcode := by
  obtain ⟨⟨g, r, rest'⟩, hrm⟩ := Option.isSome_iff_exists.mp
    ((readModRM_isSome_iff (!bit p0 6) (!bit p0 6) (!bit p0 5) modrm rest).mpr hlen)
  simp only [decodeEvexTail, if_true, if_neg (not_mode32_and_not h32), hrm, hctl g r rest' hrm, Bool.false_eq_true,
    if_false, ite_self]

/-- Operand bytes missing (log 14). -/
theorem decodeEvexTail_truncated (hll : p2.extractLsb' 5 2 ≠ 3#2) (h32 : m = .mode32 → evexOk32 p0 p1 p2 = true)
    (hlen : rest.length < addressLen modrm rest) :
    decodeEvexTail m a p0 p1 p2 (0x40#8 :: modrm :: rest) = .refused .truncated := by
  have hnone : readModRM (!bit p0 6) (!bit p0 6) (!bit p0 5) (modrm :: rest) = none := by
    rw [← Option.not_isSome_iff_eq_none, readModRM_isSome_iff]
    exact not_le.mpr hlen
  have hll' : fld p2 5 2 ≠ 3#2 := hll
  simp only [decodeEvexTail, if_true, if_neg hll', if_neg (not_mode32_and_not h32), hnone]

end tail

/-- `mod = 11` is a register operand (`30_encoding.md` R74). -/
theorem readModRM_reg (hi x b : Bool) {modrm : Byte} (h : modrm.extractLsb' 6 2 = 3#2) (rest : List Byte) :
    readModRM hi x b (modrm :: rest) = some (fld modrm 3 3, .reg (vregOf hi b (fld modrm 0 3)), rest) := by
  simp [readModRM, fld, h]

/-- Settles O15: the bits of `P0` and `P1` first, then `L'L`, then the controls on the operand that is there. -/
theorem evexReservedFieldsUd : Obligations.EvexReservedFieldsUd := by
  intro m pre p0 p1 p2 modrm rest hpre h32
  refine ⟨fun hres => ?_, fun h0 h1 => ⟨fun hll => ?_, fun hok => ?_⟩⟩
  · have hres' : fld p0 2 2 ≠ 0#2 ∨ (!bit p1 2) = true := hres.imp_right fun h => by simpa [bit] using h
    simpa using decode_evex_ud hpre h32 (bs := p1 :: p2 :: rest) fun a => by simp only [decodeEvex, if_pos hres']
  · simpa using decode_evex_ud hpre h32 (bs := p1 :: p2 :: 0x40#8 :: modrm :: rest) fun a => by
      rw [decodeEvex_group h0 h1, decodeEvexTail_ll3 hll]
  · have hok' : m = .mode32 → evexOk32 p0 p1 p2 = true := fun hm => by
      obtain ⟨hp0, hp1, hp2⟩ := hok hm
      have hbits : p0.getLsbD 5 = true ∧ p0.getLsbD 4 = true := by
        clear hpre h32 h0 hok
        revert p0
        decide
      simp only [evexOk32, bit, hbits, hp1, hp2, Bool.and_self]
    have hud := fun hlen hctl => decode_evex_ud hpre h32 (bs := p1 :: p2 :: 0x40#8 :: modrm :: rest) fun a => by
      rw [decodeEvex_group h0 h1, decodeEvexTail_ctl hok' hlen hctl]
    refine ⟨fun (hb : bit p2 4 = true) hmod => ?_, fun (hz : bit p2 7 = true) haaa => ⟨fun hlen => ?_, fun hlen hll hno => ?_⟩⟩
    · have hlen : addressLen modrm rest ≤ rest.length := by simp [addressLen, hmod]
      simpa using hud hlen fun g r rest' hrm => by
        rw [readModRM_reg _ _ _ hmod] at hrm
        cases hrm
        simp [wfCtl, hb]
    · have h0' : fld p2 0 3 = 0#3 := haaa
      simpa using hud hlen fun g r rest' _ => by simp [wfCtl, hz, h0']
    · obtain ⟨a, ha⟩ := prefixesRead_of_prefixSet hpre
      have hdec := decode_evex hpre ha h32 (p1 :: p2 :: 0x40#8 :: modrm :: rest)
      rw [illegalBeforeVex_eq_false ha hno, decodeEvex_group h0 h1, decodeEvexTail_truncated hll hok' hlen] at hdec
      simpa using hdec

end Sys2Proof.Proofs
end

section
/-! SUPPORT. The byte strings that the model refuses by name (`30_encoding.md` R62, R63, R67, R69, R73, R85 to R89), by
what stands after the prefixes. -/

namespace Sys2Proof.Proofs

open Sys2Proof.Claims

/-! ### Prefixes that are refused for themselves -/

theorem prefixOf_of_not_mem {b : Byte} (h : b ∉ prefixBytes) : prefixOf b = none := by
  revert b
  decide

/-- Reading prefixes ends before a byte that is none, or at the end. -/
theorem readPrefixes_append {pre bs : List Byte} {a b : PfxSet} (hpre : ∀ x ∈ pre, x ∈ prefixBytes)
    (hbs : ∀ x, bs.head? = some x → x ∉ prefixBytes) (h : readPrefixes a pre = some (b, [])) :
    readPrefixes a (pre ++ bs) = some (b, bs) := by
  cases bs with
  | nil => simpa using h
  | cons x bs => rw [readPrefixes_append_other hpre (prefixOf_of_not_mem (hbs x rfl)), h, Option.map_some]

theorem decode_repeated {m : Mode} {bs : List Byte} (h : readPrefixes noPrefixes bs = none) :
    decode m bs = .refused .repeatedPrefix := by
  simp only [decode, h]

/-- 67 in Mode32 selects 16-bit addressing (`30_encoding.md` R88). -/
theorem decode_addr16 {bs rest : List Byte} {a : PfxSet} (h : readPrefixes noPrefixes bs = some (a, rest))
    (haddr : a.addr = true) : decode .mode32 bs = .refused .addressSize16 := by
  simp only [decode, h, haddr, and_self, if_true]

/-- After any prefixes 67 in Mode32 is refused, as 16-bit addressing or as repeated (log 14). -/
theorem decode_67_mode32 {pre : List Byte} (hpre : ∀ x ∈ pre, x ∈ prefixBytes) (bs : List Byte) :
    decode .mode32 (pre ++ 0x67#8 :: bs) = .refused .addressSize16 ∨
      decode .mode32 (pre ++ 0x67#8 :: bs) = .refused .repeatedPrefix := by
  cases hread : readPrefixes noPrefixes (pre ++ 0x67#8 :: bs) with
  | none => exact .inr (decode_repeated hread)
  | some out => exact .inl (decode_addr16 hread (byteKindRead_of_mem (c := 0x67#8) hpre (by decide) hread))

/-- It is the former where no kind is repeated and no prefix follows. -/
theorem decode_67_mode32_unrepeated {pre bs : List Byte} (hpre : ∀ x ∈ pre, x ∈ prefixBytes)
    (hpair : (pre ++ [0x67#8]).Pairwise fun a b => ¬ SameKind a b) (hbs : ∀ x, bs.head? = some x → x ∉ prefixBytes) :
    decode .mode32 (pre ++ 0x67#8 :: bs) = .refused .addressSize16 := by
  have hall : ∀ x ∈ pre ++ [0x67#8], x ∈ prefixBytes := by
    simp only [List.mem_append, List.mem_singleton]
    rintro x (hx | rfl)
    · exact hpre x hx
    · decide
  obtain ⟨a, hread, hkinds⟩ := readPrefixes_of_pairwise hall hpair (a := noPrefixes) fun x _ => byteKindRead_noPrefixes x
  have haddr : byteKindRead a 0x67#8 = true := (hkinds 0x67#8 (by decide)).mpr (.inr ⟨0x67#8, by simp, .inl rfl⟩)
  exact decode_addr16 (by simpa using readPrefixes_append hall hbs hread) haddr

/-! ### What stands after the prefixes -/

section body

variable {m : Mode} {a : PfxSet}

/-- After a REX byte another prefix is refused (`30_encoding.md` R63, R88). -/
theorem decodeRex_prefix {rex b : Byte} (hb : b ∈ prefixBytes) (bs : List Byte) :
    decodeRex a rex (b :: bs) = .refused .misplacedRex := by
  have hne : b ≠ 0x0F#8 ∧ ¬ (b = 0xC4#8 ∨ b = 0x62#8) ∧ (prefixOf b).isSome = true := by
    revert b
    decide
  obtain ⟨h0F, hesc, hpfx⟩ := hne
  simp only [decodeRex, if_neg h0F, if_neg hesc, hpfx, true_or, if_true]

/-- In Mode32 C4 and 62 without 11 in bits 7:6 of the next byte are LES and BOUND (`30_encoding.md` R69, R73). -/
theorem decodeBody_les_bound {c b : Byte} (hc : c = 0xC4#8 ∨ c = 0x62#8) (hb : b.extractLsb' 6 2 ≠ 3#2) (bs : List Byte) :
    decodeBody .mode32 a (c :: b :: bs) = .refused .notInScope := by
  have hesc : escapeHolds .mode32 (b :: bs) = false := by simp [escapeHolds, fld, hb]
  obtain rfl | rfl := hc <;> simp [decodeBody, hesc]

/-- A class byte of none of the three classes (`30_encoding.md` R89). -/
theorem decodeBody_other {c : Byte} (hclass : c ∉ [0x0F#8, 0xC4#8, 0x62#8]) (hrex : m = .mode64 → fld c 4 4 ≠ 4#4)
    (bs : List Byte) : decodeBody m a (c :: bs) = .refused .notInScope := by
  simp only [List.mem_cons, List.not_mem_nil, or_false, not_or] at hclass
  obtain ⟨h0F, hC4, h62⟩ := hclass
  have hno : ¬ (m = .mode64 ∧ fld c 4 4 = 4#4) := fun ⟨hm, hc⟩ => hrex hm hc
  simp [decodeBody, h0F, hC4, h62, hno]

/-- The same after a REX byte. -/
theorem decodeRex_other {rex c : Byte} (hclass : c ∉ [0x0F#8, 0xC4#8, 0x62#8]) (hpfx : c ∉ prefixBytes)
    (hrex : fld c 4 4 ≠ 4#4) (bs : List Byte) : decodeRex a rex (c :: bs) = .refused .notInScope := by
  simp only [List.mem_cons, List.not_mem_nil, or_false, not_or] at hclass
  obtain ⟨h0F, hC4, h62⟩ := hclass
  simp [decodeRex, h0F, hC4, h62, hrex, prefixOf_of_not_mem hpfx]

/-- The legacy escape after an optional REX byte (`30_encoding.md` R63). -/
theorem decodeBody_optionalRex {rex : List Byte} (hrex : OptionalRex m rex) (bs : List Byte) :
    decodeBody m a (rex ++ 0x0F#8 :: bs) = decodeLegacy a rex.head? bs := by
  obtain rfl | ⟨rfl, n, rfl⟩ := hrex
  · exact decodeBody_escape0F m a bs
  · exact decodeBody_rex a _ bs (fld_rex n)

theorem decodeLegacy_not38 {rex : Option Byte} {c : Byte} (hc : c ≠ 0x38#8) (bs : List Byte) :
    decodeLegacy a rex (c :: bs) = .refused .notInScope := by
  simp only [decodeLegacy, if_neg hc]

theorem decodeLegacy_not40 {rex : Option Byte} {c : Byte} (hc : c ≠ 0x40#8) (bs : List Byte) :
    decodeLegacy a rex (0x38#8 :: c :: bs) = .refused .notInScope := by
  simp only [decodeLegacy, if_true, if_neg hc]

theorem decodeLegacy_no66 {rex : Option Byte} (hop : a.opSize = false) (bs : List Byte) :
    decodeLegacy a rex (0x38#8 :: 0x40#8 :: bs) = .refused .notInScope := by
  simp only [decodeLegacy, if_true, hop, Bool.not_false]

/-- F2 or F3 with the legacy form (`30_encoding.md` R86). -/
theorem decodeLegacy_rep {rex : Option Byte} (hop : a.opSize = true) (hrep : a.rep = true) (bs : List Byte) :
    decodeLegacy a rex (0x38#8 :: 0x40#8 :: bs) = .refused .repPrefix := by
  simp only [decodeLegacy, if_true, hop, hrep, Bool.not_true, Bool.false_eq_true, if_false]

/-- Another map or `pp` than the group's (`30_encoding.md` R66, R85). -/
theorem decodeVex_otherMap {p1 p2 : Byte} (h : p1.extractLsb' 0 5 ≠ 2#5 ∨ p2.extractLsb' 0 2 ≠ 1#2) (bs : List Byte) :
    decodeVex m a (p1 :: p2 :: bs) = .refused .notInScope := by
  have hno : ¬ (fld p1 0 5 = 2#5 ∧ fld p2 0 2 = 1#2) := fun ⟨h1, h2⟩ => h.elim (· h1) (· h2)
  simp only [decodeVex, if_neg hno]

theorem decodeVex_otherOpcode {p1 p2 op : Byte} (hop : op ≠ 0x40#8) (bs : List Byte) :
    decodeVex m a (p1 :: p2 :: op :: bs) = .refused .notInScope := by
  simp only [decodeVex, decodeVexTail, if_neg hop, ite_self]

/-- A bit that would name a register above 7 in Mode32 (`30_encoding.md` D22). -/
theorem decodeVex_highRegister {p1 p2 : Byte} (hmap : p1.extractLsb' 0 5 = 2#5) (hpp : p2.extractLsb' 0 2 = 1#2)
    (h : p1.getLsbD 5 = false ∨ p2.getLsbD 6 = false) (bs : List Byte) :
    decodeVex .mode32 a (p1 :: p2 :: 0x40#8 :: bs) = .refused .highRegister32 := by
  have hmap' : fld p1 0 5 = 2#5 := hmap
  have hpp' : fld p2 0 2 = 1#2 := hpp
  have hbad : vexOk32 p1 p2 = false := (Bool.and_eq_false_iff).mpr h
  simp only [decodeVex, hmap', hpp', and_self, if_true, decodeVexTail, hbad, Bool.not_false]

theorem decodeEvex_otherMap {p0 p1 p2 : Byte} (h0 : p0.extractLsb' 2 2 = 0#2) (h1 : p1.getLsbD 2 = true)
    (h : p0.extractLsb' 0 2 ≠ 2#2 ∨ p1.extractLsb' 0 2 ≠ 1#2) (bs : List Byte) :
    decodeEvex m a (p0 :: p1 :: p2 :: bs) = .refused .notInScope := by
  have hres : ¬ (fld p0 2 2 ≠ 0#2 ∨ (!bit p1 2) = true) := by simp [fld, bit, h0, h1]
  have hno : ¬ (fld p0 0 2 = 2#2 ∧ fld p1 0 2 = 1#2) := fun ⟨h1, h2⟩ => h.elim (· h1) (· h2)
  simp only [decodeEvex, if_neg hres, if_neg hno]

theorem decodeEvex_otherOpcode {p0 p1 p2 op : Byte} (h0 : p0.extractLsb' 2 2 = 0#2) (h1 : p1.getLsbD 2 = true)
    (hop : op ≠ 0x40#8) (bs : List Byte) : decodeEvex m a (p0 :: p1 :: p2 :: op :: bs) = .refused .notInScope := by
  have hres : ¬ (fld p0 2 2 ≠ 0#2 ∨ (!bit p1 2) = true) := by simp [fld, bit, h0, h1]
  simp only [decodeEvex, if_neg hres, decodeEvexTail, if_neg hop, ite_self]

theorem decodeEvex_highRegister {p0 p1 p2 : Byte} (h0 : p0.extractLsb' 0 4 = 2#4) (h1 : p1.extractLsb' 0 3 = 5#3)
    (hll : p2.extractLsb' 5 2 ≠ 3#2) (h : p0.extractLsb' 4 2 ≠ 3#2 ∨ p1.getLsbD 6 = false ∨ p2.getLsbD 3 = false)
    (bs : List Byte) : decodeEvex .mode32 a (p0 :: p1 :: p2 :: 0x40#8 :: bs) = .refused .highRegister32 := by
  have hll' : fld p2 5 2 ≠ 3#2 := hll
  have hbad : evexOk32 p0 p1 p2 = false := by
    have hp0 : p0.extractLsb' 4 2 ≠ 3#2 → (bit p0 5 && bit p0 4) = false := by
      clear h h0
      unfold bit
      revert p0
      decide
    obtain h | h | h := h
    · simp only [evexOk32, hp0 h, Bool.false_and]
    · simp only [evexOk32, bit, h, Bool.and_false, Bool.false_and]
    · simp only [evexOk32, bit, h, Bool.and_false]
  rw [decodeEvex_group h0 h1]
  simp only [decodeEvexTail, if_true, if_neg hll', hbad, Bool.not_false, and_self]

end body

/-! ### The strings, after a set of prefixes -/

section sets

variable {m : Mode} {pre : List Byte} (hpre : PrefixSet m pre)
include hpre

/-- What the decoder refuses after any prefixes read, it refuses after a set of them. -/
theorem decode_refused {c : Byte} (hc : prefixOf c = none) {bs : List Byte} {why : DecodeRefusal}
    (h : ∀ a, PrefixesRead m pre a → decodeBody m a (c :: bs) = .refused why) :
    decode m (pre ++ c :: bs) = .refused why := by
  obtain ⟨a, ha⟩ := prefixesRead_of_prefixSet hpre
  rw [decode_of_prefixesRead hpre ha hc, h a ha]

/-- What the VEX class refuses, it refuses after prefixes that are legal before it. -/
theorem decode_vex_refused (hno : NoIllegalPrefix pre) {p1 : Byte} (h32 : m = .mode32 → p1.extractLsb' 6 2 = 3#2)
    {bs : List Byte} {why : DecodeRefusal} (h : ∀ a, decodeVex m a (p1 :: bs) = .refused why) :
    decode m (pre ++ 0xC4#8 :: p1 :: bs) = .refused why := by
  have hesc : escapeHolds m (p1 :: bs) = true := by
    cases m with
    | mode64 => rfl
    | mode32 => simp [escapeHolds, fld, h32 rfl]
  refine decode_refused hpre (by decide) fun a ha => ?_
  rw [decodeBody_vex hesc, illegalBeforeVex_eq_false ha hno, h]
  rfl

/-- The same for EVEX. -/
theorem decode_evex_refused (hno : NoIllegalPrefix pre) {p0 : Byte} (h32 : m = .mode32 → p0.extractLsb' 6 2 = 3#2)
    {bs : List Byte} {why : DecodeRefusal} (h : ∀ a, decodeEvex m a (p0 :: bs) = .refused why) :
    decode m (pre ++ 0x62#8 :: p0 :: bs) = .refused why := by
  obtain ⟨a, ha⟩ := prefixesRead_of_prefixSet hpre
  rw [decode_evex hpre ha h32, illegalBeforeVex_eq_false ha hno, h]
  rfl

/-- What the legacy class refuses, it refuses after an optional REX byte. -/
theorem decode_legacy_refused {rex : List Byte} (hrex : OptionalRex m rex) {bs : List Byte} {why : DecodeRefusal}
    (h : ∀ a, PrefixesRead m pre a → decodeLegacy a rex.head? bs = .refused why) :
    decode m (pre ++ (rex ++ 0x0F#8 :: bs)) = .refused why := by
  have hbody := fun a ha => (decodeBody_optionalRex (a := a) hrex bs).trans (h a ha)
  obtain rfl | ⟨rfl, n, rfl⟩ := hrex
  · exact decode_refused hpre (by decide) hbody
  · exact decode_refused hpre (prefixOf_of_rex (fld_rex n)) hbody

theorem decode_other_refused {rex : List Byte} (hrex : OptionalRex m rex) {c : Byte} (hpfx : c ∉ prefixBytes)
    (hclass : c ∉ [0x0F#8, 0xC4#8, 0x62#8]) (hc : m = .mode64 → c.extractLsb' 4 4 ≠ 4#4) (bs : List Byte) :
    decode m (pre ++ (rex ++ c :: bs)) = .refused .notInScope := by
  obtain rfl | ⟨rfl, n, rfl⟩ := hrex
  · exact decode_refused hpre (prefixOf_of_not_mem hpfx) fun a _ => decodeBody_other hclass hc bs
  · exact decode_refused hpre (prefixOf_of_rex (fld_rex n)) fun a _ =>
      (decodeBody_rexByte a (fld_rex n) _).trans (decodeRex_other hclass hpfx (hc rfl) bs)

end sets

/-- The strings that spell another opcode than the group's. -/
theorem otherOpcodesRefused : OtherOpcodesRefused := by
  refine ⟨fun m pre bs p1 p2 op hpre hno h32 => ⟨fun hmap => ?_, fun hop => ?_⟩,
    fun m pre bs p0 p1 p2 op hpre hno h32 h0 h1 => ⟨fun hmap => ?_, fun hop => ?_⟩,
    fun m pre rex bs c hpre hrex => ⟨fun hc => ?_, fun hc => ?_, fun hpfx hclass hc => ?_⟩⟩
  · simpa using decode_vex_refused hpre hno h32 fun a => decodeVex_otherMap hmap bs
  · simpa using decode_vex_refused hpre hno h32 fun a => decodeVex_otherOpcode (p2 := p2) hop bs
  · simpa using decode_evex_refused hpre hno h32 fun a => decodeEvex_otherMap (p2 := p2) h0 h1 hmap bs
  · simpa using decode_evex_refused hpre hno h32 fun a => decodeEvex_otherOpcode (p2 := p2) h0 h1 hop bs
  · simpa using decode_legacy_refused hpre hrex fun a _ => decodeLegacy_not38 hc bs
  · simpa using decode_legacy_refused hpre hrex fun a _ => decodeLegacy_not40 hc bs
  · simpa using decode_other_refused hpre hrex hpfx hclass hc bs

/-- Settles O16: the strings one by one, in the order of the statement. -/
theorem refusedByteStrings : Obligations.RefusedByteStrings := by
  refine ⟨fun pre bs hpre => ⟨by simpa using decode_67_mode32 hpre bs, fun hpair hbs => ?_⟩,
    fun pre b bs m hpre hb hsame => ?_, fun pre n b bs hpre hb => ?_, fun pre b bs hpre hb => ⟨?_, ?_⟩,
    fun m pre bs hpre => ?_, fun m pre rex bs hpre hrex => ⟨fun hno => ?_, fun h66 hrep => ?_⟩,
    fun pre p0 p1 p2 bs hpre hno h32 => ⟨fun hmap hpp hbad => ?_, fun h0 h1 hll hbad => ?_⟩, otherOpcodesRefused⟩
  · simpa using decode_67_mode32_unrepeated hpre hpair hbs
  · simpa using decode_repeated (readPrefixes_eq_none hpre hb (.inr hsame) bs)
  · have href := decode_refused hpre (prefixOf_of_rex (fld_rex n)) (bs := b :: bs) fun a _ =>
      (decodeBody_rexByte a (fld_rex n) _).trans (decodeRex_prefix hb bs)
    simpa using href
  · simpa using decode_refused hpre (by decide) fun a _ => decodeBody_les_bound (.inl rfl) hb bs
  · simpa using decode_refused hpre (by decide) fun a _ => decodeBody_les_bound (.inr rfl) hb bs
  · simpa using decode_other_refused (c := 0xC5#8) hpre (.inl rfl) (by decide) (by decide) (fun _ => by decide) bs
  · simpa using decode_legacy_refused hpre hrex fun a ha =>
      decodeLegacy_no66 (by rw [← Bool.not_eq_true, opSize_iff ha]; exact hno) bs
  · simpa using decode_legacy_refused hpre hrex fun a ha =>
      decodeLegacy_rep ((opSize_iff ha).mpr h66) ((rep_iff ha).mpr hrep) bs
  · simpa using decode_vex_refused hpre hno (fun _ => h32) fun a => decodeVex_highRegister hmap hpp hbad bs
  · simpa using decode_evex_refused hpre hno (fun _ => h32) fun a => decodeEvex_highRegister h0 h1 hll hbad bs

end Sys2Proof.Proofs
end

section
/-! SUPPORT. The ring of lane products (`40_common_lane_arithmetic.md` R102), the bytes of an operand (`20_memory.md` R42,
R43), and its effective address and segment (`30_encoding.md` R77 to R80). -/

namespace Sys2Proof.Proofs

open Sys2Proof.Machine Sys2Proof.Claims

/-! ### The ring of lane products -/

/-- Settles O19: the lane product is the product of the commutative ring of words. -/
theorem laneProductRing : Obligations.LaneProductRing := by
  intro w a b c
  have hneg : ∀ x : BitVec w, x * BitVec.allOnes w = -x := fun x => by
    rw [← BitVec.neg_one_eq_allOnes, BitVec.mul_neg, BitVec.mul_one]
  simp only [mullo_eq_mul, hneg]
  refine ⟨BitVec.mul_comm a b, BitVec.mul_assoc a b c, BitVec.mul_add, BitVec.mul_zero, BitVec.mul_one a, ?_,
    BitVec.neg_intMin⟩
  rw [BitVec.ofInt_neg, BitVec.ofInt_toInt]

/-! ### The bytes of an operand -/

theorem toNat_append_add {m n : Nat} (x : BitVec m) (y : BitVec n) : (x ++ y).toNat = 2 ^ n * x.toNat + y.toNat := by
  rw [BitVec.toNat_append, ← Nat.shiftLeft_add_eq_or_of_lt y.isLt, Nat.shiftLeft_eq, Nat.mul_comm]

/-- Settles O21: byte `k` of the value read is byte `k` of the operand, and the first byte of a displacement is lowest. -/
theorem littleEndianOperand : Obligations.LittleEndianOperand := by
  refine ⟨fun m s g ea n k hk hn => extract_readOperand_byte m s ⟨g, ea, n⟩ k hk hn, fun b0 b1 b2 b3 => ?_⟩
  simp only [disp32Of, toNat_append_add]
  omega

/-- Settles O26: each width is the vector length or, with broadcast, the element. -/
theorem readWidths : Obligations.ReadWidths := by
  intro m s p rex c d a x
  exact ⟨rfl, rfl, rfl, rfl, rfl, rfl, rfl, rfl, rfl⟩

/-! ### Addresses as integers -/

/-- The low `w` bits of a word are those of an integer. -/
def Represents (w : Nat) (x : W64) (z : Int) : Prop := x.setWidth w = BitVec.ofInt w z

section represents

variable {w : Nat} {x y : W64} {a b : Int}

theorem represents_ofInt (hw : w ≤ 64) (z : Int) : Represents w (BitVec.ofInt 64 z) z := by
  apply BitVec.eq_of_toNat_eq
  rw [BitVec.toNat_setWidth, BitVec.toNat_ofInt, BitVec.toNat_ofInt]
  have hdvd : ((2 ^ w : Nat) : Int) ∣ ((2 ^ 64 : Nat) : Int) := Int.natCast_dvd_natCast.mpr (Nat.pow_dvd_pow 2 hw)
  rw [← Int.emod_emod_of_dvd z hdvd, Int.toNat_emod (Int.emod_nonneg _ (by decide)) (by positivity), Int.toNat_natCast]

theorem represents_toNat : Represents w x x.toNat := by
  rw [Represents, BitVec.ofInt_natCast, BitVec.ofNat_toNat]

theorem represents_add (hw : w ≤ 64) (hx : Represents w x a) (hy : Represents w y b) : Represents w (x + y) (a + b) := by
  rw [Represents, BitVec.setWidth_add x y hw, hx, hy, BitVec.ofInt_add]

theorem represents_mul (hw : w ≤ 64) (hx : Represents w x a) (hy : Represents w y b) : Represents w (x * y) (a * b) := by
  rw [Represents, BitVec.setWidth_mul x y hw, hx, hy, BitVec.ofInt_mul]

theorem represents_signExtend (hw : w ≤ 64) {n : Nat} (d : BitVec n) : Represents w (d.signExtend 64) d.toInt :=
  represents_ofInt hw _

theorem represents_ofNat (hw : w ≤ 64) (n : Nat) : Represents w (BitVec.ofNat 64 n) n := by
  simpa using represents_ofInt hw (n : Int)

theorem represents_low32 (hx : Represents 32 x a) : Represents 32 (low32 x) a := by
  rw [Represents, low32, BitVec.setWidth_setWidth_of_le _ (by decide), BitVec.setWidth_eq]
  exact hx

end represents

/-- The width of an address under 32-bit addressing or not (`30_encoding.md` R78). -/
def addrWidth (a32 : Bool) : Nat := if a32 then 32 else 64

theorem addrWidth_le (a32 : Bool) : addrWidth a32 ≤ 64 := by
  cases a32 <;> decide

theorem represents_addrReg (a32 : Bool) (s : State) (n : GReg) :
    Represents (addrWidth a32) (addrReg a32 s n) (s.gpr[n.val]).toNat := by
  cases a32 with
  | false => exact represents_toNat
  | true => exact represents_low32 represents_toNat

theorem represents_scaledIndex (a32 : Bool) (s : State) (scale : BitVec 2) (i : Option GReg) :
    Represents (addrWidth a32) (scaledIndex a32 s scale i) (indexInt s scale i) := by
  cases i with
  | none => exact represents_ofNat (addrWidth_le a32) 0
  | some i =>
    have hpow : BitVec.twoPow 64 scale.toNat = BitVec.ofNat 64 (2 ^ scale.toNat) := by
      apply BitVec.eq_of_toNat_eq
      rw [BitVec.toNat_twoPow, BitVec.toNat_ofNat]
    rw [scaledIndex, BitVec.shiftLeft_eq_mul_twoPow, hpow]
    have hprod := represents_mul (addrWidth_le a32) (represents_addrReg a32 s i)
      (represents_ofNat (addrWidth_le a32) (2 ^ scale.toNat))
    rwa [Nat.cast_pow] at hprod

theorem represents_dispValue (a32 : Bool) (n : Nat) (d : Disp) :
    Represents (addrWidth a32) (dispValue n d) (dispInt n d) := by
  cases d with
  | none => exact represents_ofNat (addrWidth_le a32) 0
  | d8 d =>
    exact represents_mul (addrWidth_le a32) (represents_signExtend (addrWidth_le a32) d)
      (represents_ofNat (addrWidth_le a32) n)
  | d32 d => exact represents_signExtend (addrWidth_le a32) d

/-- The sum that the model takes modulo 2^64 has the low bits of the exact sum, with the registers cut to 32 bits or not
(`30_encoding.md` R77, R78). -/
theorem represents_addressSum (m : Mode) (a32 : Bool) (s : State) (n len : Nat) (x : Mem) :
    Represents (addrWidth a32) (addressSum m a32 s n len x) (addressInt m s n len x) := by
  have hw := addrWidth_le a32
  cases x with
  | disp32 d =>
    have hd := represents_signExtend hw d
    cases m with
    | mode64 => exact represents_add hw (represents_add hw represents_toNat (represents_ofNat hw len)) hd
    | mode32 => simpa [addressInt, addressSum] using hd
  | base b d => exact represents_add hw (represents_addrReg a32 s b) (represents_dispValue a32 n d)
  | sib b i sc d =>
    exact represents_add hw (represents_add hw (represents_addrReg a32 s b) (represents_scaledIndex a32 s sc i))
      (represents_dispValue a32 n d)
  | sibNoBase i sc d => exact represents_add hw (represents_scaledIndex a32 s sc i) (represents_signExtend hw d)

/-- The two readings of the scale of an 8-bit displacement agree (`30_encoding.md` R80). -/
theorem disp8Scale_eq_disp8Factor (f : Form) (b : Bool) : disp8Scale f b = disp8Factor f b := by
  obtain ⟨cls, elem, vlen⟩ := f
  cases cls with
  | legacy | vex => rfl
  | evex =>
    cases b with
    | true => cases elem <;> rfl
    | false => cases vlen <;> rfl

/-- The effective address has the low bits of the exact sum. -/
theorem represents_access_ea (m : Mode) (i : Instr) (s : State) (x : Mem) :
    Represents (addrWidth (addressing32 m (operandsOf i).pfx)) (access m i s x).ea
      (addressInt m s (disp8Factor (formOf i) (operandsOf i).ctl.b) (instrLen i) x) := by
  have hsum := represents_addressSum m (addressing32 m (operandsOf i).pfx) s
    (disp8Scale (formOf i) (operandsOf i).ctl.b) (operandsOf i).len x
  rw [disp8Scale_eq_disp8Factor, operandsOf_len] at hsum
  rw [access, accessOf, effectiveAddress, disp8Scale_eq_disp8Factor, operandsOf_len]
  cases h32 : addressing32 m (operandsOf i).pfx with
  | false => simpa [h32] using hsum
  | true =>
    rw [h32] at hsum
    exact represents_low32 hsum

/-- Settles O23: all 64 bits are those of the exact sum. -/
theorem effectiveAddress64 : Obligations.EffectiveAddress64 := by
  intro i s x _ haddr
  have hea := represents_access_ea .mode64 i s x
  have h64 : addressing32 .mode64 (operandsOf i).pfx = false := by simp [addressing32, haddr]
  rw [h64, Represents, addrWidth, if_neg (by decide), BitVec.setWidth_eq] at hea
  exact hea

/-- Settles O24: the low 32 bits are those of the exact sum, and there are no others. -/
theorem effectiveAddress32 : Obligations.EffectiveAddress32 := by
  intro m i s x _ h
  have hea := represents_access_ea m i s x
  have h32 : addressing32 m (operandsOf i).pfx = true := by simpa [addressing32] using h
  rw [h32, Represents, addrWidth, if_pos rfl] at hea
  have hlt : (access m i s x).ea.toNat < 2 ^ 32 := by
    rw [access, accessOf, effectiveAddress, h32]
    simp only [if_true, toNat_low32]
    exact Nat.mod_lt _ (by decide)
  have hnat := congrArg BitVec.toNat hea
  rw [BitVec.toNat_setWidth, Nat.mod_eq_of_lt hlt, BitVec.toNat_ofInt] at hnat
  rw [hnat, Int.toNat_of_nonneg (Int.emod_nonneg _ (by decide))]
  rfl

/-! ### Segments -/

/-- A base register 4 stands in a SIB byte only (`30_encoding.md` R76), so R79 names three addressing forms. -/
theorem defaultSeg_eq_ss_iff {m : Mode} {x : Mem} (h : wfMem m x = true) : defaultSeg x = .ss ↔ SsByDefault x := by
  have h5 : ∀ b : GReg, b.val = 5 ↔ b = 5 := by decide
  have h4 : ∀ b : GReg, b.val = 4 ↔ b = 4 := by decide
  cases x with
  | disp32 d => simp [defaultSeg, baseReg, SsByDefault]
  | base b d =>
    have hb : b ≠ 4 := by
      rintro rfl
      simp [wfMem] at h
    simp [defaultSeg, baseReg, SsByDefault, h4, h5, hb]
  | sib b i sc d => simp [defaultSeg, baseReg, SsByDefault, h4, h5, or_iff_not_imp_left]
  | sibNoBase i sc d => simp [defaultSeg, baseReg, SsByDefault]

theorem defaultSeg_eq_or (x : Mem) : defaultSeg x = .ss ∨ defaultSeg x = .ds := by
  unfold defaultSeg
  cases baseReg x with
  | none => exact .inr rfl
  | some b =>
    by_cases hb : b.val = 4 ∨ b.val = 5
    · simp [hb]
    · simp [hb]

/-- An override that Mode64 ignores, or none, leaves the default segment (`30_encoding.md` R62, R79; log 18). -/
theorem operandSeg_default {m : Mode} {p : Pfx} (h : p.seg = none ∨ (m = .mode64 ∧ p.seg ≠ some .fs ∧ p.seg ≠ some .gs))
    (x : Mem) : operandSeg m p x = defaultSeg x := by
  obtain hnone | ⟨rfl, hfs, hgs⟩ := h
  · cases m <;> simp [operandSeg, hnone]
  · cases hseg : p.seg with
    | none => simp [operandSeg, hseg]
    | some g => cases g <;> simp_all [operandSeg]

theorem operandSeg_override {m : Mode} {p : Pfx} {g : Seg} (hseg : p.seg = some g) (h : m = .mode32 ∨ g = .fs ∨ g = .gs)
    (x : Mem) : operandSeg m p x = g := by
  cases m with
  | mode32 => simp [operandSeg, hseg]
  | mode64 =>
    obtain rfl | rfl : g = .fs ∨ g = .gs := by simpa using h
    · simp [operandSeg, hseg]
    · simp [operandSeg, hseg]

/-- Settles O25. -/
theorem operandSegment : Obligations.OperandSegment := by
  intro m i s x _ hwf
  refine ⟨fun hdefault => ?_, fun g hseg hg => operandSeg_override hseg hg x⟩
  have hseg : (access m i s x).seg = defaultSeg x := operandSeg_default hdefault x
  rw [hseg, ← defaultSeg_eq_ss_iff hwf]
  exact ⟨id, (defaultSeg_eq_or x).resolve_left⟩

end Sys2Proof.Proofs
end

section
/-! SUPPORT. The results of the nine instructions (`41_pmulld_sse.md` to `44_vpmullq_evex.md`): one lemma for every
execution that nothing stops, then what a register, a memory operand or a broadcast gives as second factor. -/

namespace Sys2Proof.Proofs

open Sys2Proof.Machine Sys2Proof.Claims

/-! ### Lanes of the new destination -/

theorem laneActive_iff (s : State) (c : EvexCtl) (j : Nat) : laneActive s c j = true ↔ activeLane s c j := by
  have haaa : c.aaa.val = 0 ↔ c.aaa = 0 := Fin.val_eq_zero_iff
  simp [laneActive, activeLane, State.readK, haaa]

/-- A class without EVEX controls has no writemask (`40_common_lane_arithmetic.md` R106). -/
theorem activeLane_noCtl (s : State) (j : Nat) : activeLane s noCtl j := .inl rfl

theorem someLaneActive_iff (f : Form) (c : EvexCtl) (s : State) :
    someLaneActive f c s = true ↔ ∃ j, j < laneCount f ∧ activeLane s c j := by
  simp [someLaneActive, laneActive_iff]

/-- A lane below KL lies within the vector length. -/
theorem lane_end_le {f : Form} {j : Nat} (hj : j < laneCount f) :
    elemBits f.elem * j + elemBits f.elem ≤ vlenBits f.vlen := by
  obtain ⟨hbits, -⟩ := form_sizes f
  rw [← hbits, ← Nat.mul_succ]
  exact Nat.mul_le_mul_left _ hj

/-- Each lane below KL holds its result (`40_common_lane_arithmetic.md` R106, R109). -/
theorem lane_newDest (m : Mode) {f : Form} (o : Operands) (s : State) {j : Nat} (hj : j < laneCount f) :
    laneOf (elemBits f.elem) j (newDest m f o s) =
      laneResult (elemBits f.elem) (s.readZmm o.src1) (secondFactor m f o s) (laneActive s o.ctl) o.ctl.z
        (s.readZmm o.dst) j := by
  have hvl : vlenBits f.vlen ≤ 512 := by cases f.vlen <;> decide
  have hw : 0 < elemBits f.elem := by cases f.elem <;> decide
  exact lane_vMulLo _ _ _ _ _ _ _ _ _ j hvl (lane_end_le hj) hw

/-- The clauses of R106 for one lane: the product where it is active, 0 or the old element where it is not. -/
theorem laneResult_clauses {w : Nat} (a : Vec) (s2 : Nat → BitVec w) (s : State) (c : EvexCtl) (old : Vec) (j : Nat) :
    (activeLane s c j → laneResult w a s2 (laneActive s c) c.z old j = product (laneOf w j a) (s2 j)) ∧
    (¬ activeLane s c j → c.z = true → laneResult w a s2 (laneActive s c) c.z old j = 0) ∧
    (¬ activeLane s c j → c.z = false → laneResult w a s2 (laneActive s c) c.z old j = laneOf w j old) := by
  refine ⟨fun hact => ?_, fun hact hz => ?_, fun hact hz => ?_⟩
  · rw [laneResult, if_pos ((laneActive_iff s c j).mpr hact)]
    rfl
  · rw [laneResult, if_neg (mt (laneActive_iff s c j).mp hact), if_pos hz]
  · rw [laneResult, if_neg (mt (laneActive_iff s c j).mp hact), if_neg (by simp [hz])]
    rfl

/-! ### An execution that nothing stops -/

theorem stops_of_ready {m : Mode} {i : Instr} {s : State} (hm : s.cpuMode = .admitted m) (hready : Ready i s)
    (hop : operandStops m (formOf i) (operandsOf i) s = []) : stops (formOf i) (operandsOf i) s = [] := by
  obtain ⟨hud, hts⟩ := hready
  exact (stops_eq_nil_iff _ _ s m hm).mpr ⟨(udCondition_eq_false_iff_noUd i s).mpr hud, hts, hop⟩

/-- A ready instruction whose operand stops nothing completes with its result. -/
theorem result_of_no_stops {m : Mode} {i : Instr} {s : State} (hm : s.cpuMode = .admitted m) (hready : Ready i s)
    (hop : operandStops m (formOf i) (operandsOf i) s = []) :
    Result (elemBits (formOf i).elem) m s i (laneCount (formOf i)) (operandsOf i).dst (operandsOf i).src1
      (secondFactor m (formOf i) (operandsOf i) s) (activeLane s (operandsOf i).ctl) (operandsOf i).ctl.z
      (keepsUpper (formOf i)) := by
  have hexec : exec i s = .next (complete m (formOf i) (operandsOf i) s) := by
    rw [exec_eq_run]
    exact run_of_no_stops _ _ s m hm (stops_of_ready hm hready hop)
  refine ⟨_, hexec, fun j hj => ?_, fun n hn => ?_, ripAdvanced_complete m i s, complete_onlyDest m _ _ s, fun _ => rfl⟩
  · rw [complete_readZmm_dst, lane_newDest m (operandsOf i) s hj]
    exact laneResult_clauses _ _ _ _ _ _
  · obtain ⟨hbits, -⟩ := form_sizes (formOf i)
    rw [hbits] at hn
    by_cases hlt : n < 512
    · exact exec_next_getLsbD_above i s _ hexec n hlt hn
    · rw [BitVec.getLsbD_of_ge _ n (not_lt.mp hlt), BitVec.getLsbD_of_ge _ n (not_lt.mp hlt), ite_self]

/-- The second factor matters on active lanes below KL only, and activity may be said in other words. -/
theorem result_congr {w : Nat} {m : Mode} {s : State} {i : Instr} {kl : Nat} {d a : VReg} {s2 s2' : Nat → BitVec w}
    {active active' : Nat → Prop} {z keep : Bool} (h : Result w m s i kl d a s2 active z keep)
    (hs2 : ∀ j, j < kl → s2 j = s2' j) (hact : ∀ j, active j ↔ active' j) :
    Result w m s i kl d a s2' active' z keep := by
  obtain ⟨t, hexec, hlanes, hframe⟩ := h
  refine ⟨t, hexec, fun j hj => ?_, hframe⟩
  rw [← hs2 j hj, ← hact j]
  exact hlanes j hj

/-! ### Operands -/

/-- A register operand stops nothing, and its lanes are the second factors (`20_memory.md` R41). -/
theorem result_register {m : Mode} {i : Instr} {s : State} {r : VReg} (hm : s.cpuMode = .admitted m) (hready : Ready i s)
    (hrm : (operandsOf i).rm = .reg r) :
    Result (elemBits (formOf i).elem) m s i (laneCount (formOf i)) (operandsOf i).dst (operandsOf i).src1
      (fun j => laneOf (elemBits (formOf i).elem) j (s.readZmm r)) (activeLane s (operandsOf i).ctl)
      (operandsOf i).ctl.z (keepsUpper (formOf i)) := by
  have hop : operandStops m (formOf i) (operandsOf i) s = [] := by rw [operandStops, hrm]
  refine result_congr (result_of_no_stops hm hready hop) (fun j _ => ?_) fun _ => Iff.rfl
  rw [secondFactor, hrm]
  rfl

/-- A memory operand that may be read stops nothing, and its elements are the second factors, element 0 for all under
broadcast (`40_common_lane_arithmetic.md` R105). -/
theorem result_memory {m : Mode} {i : Instr} {s : State} {x : Mem} (hm : s.cpuMode = .admitted m) (hready : Ready i s)
    (hrm : (operandsOf i).rm = .mem x) (hread : LiveReadable m (formOf i) (operandsOf i).ctl s (access m i s x))
    (hleg : (formOf i).cls = .legacy → LegacyAligned m s (access m i s x))
    (hbcst : (operandsOf i).ctl.b = true → (∃ j, j < laneCount (formOf i) ∧ activeLane s (operandsOf i).ctl j) →
      BroadcastAligned m s (access m i s x)) :
    Result (elemBits (formOf i).elem) m s i (laneCount (formOf i)) (operandsOf i).dst (operandsOf i).src1
      (fun j => lane (elemBits (formOf i).elem) (if (operandsOf i).ctl.b then 0 else j)
        (readOperand m s (access m i s x).seg (access m i s x).ea (access m i s x).size))
      (activeLane s (operandsOf i).ctl) (operandsOf i).ctl.z (keepsUpper (formOf i)) := by
  have hop : operandStops m (formOf i) (operandsOf i) s = [] := by
    rw [operandStops, hrm]
    refine memoryStops_eq_nil _ _ _ _ _ hread hleg fun hb ⟨k, _, hlive⟩ => hbcst hb ?_
    rw [byteLive, if_pos hb, someLaneActive_iff] at hlive
    exact hlive
  refine result_congr (result_of_no_stops hm hready hop) (fun j _ => ?_) fun _ => Iff.rfl
  rw [secondFactor, hrm]
  rfl

/-- A readable operand may be read under any writemask. -/
theorem liveReadable_of_accessReadable {m : Mode} {f : Form} {c : EvexCtl} {s : State} {a : Access}
    (h : AccessReadable m s a) : LiveReadable m f c s a := by
  obtain ⟨hcan, hall⟩ := h
  exact ⟨hcan, fun k hk _ => hall k hk, .inr hall⟩

/-- Elements of type `e` of the bytes read, `elt k` the one whose first byte is byte `k` (`20_memory.md` R43). -/
def ElementsOf (e : Elem) (elt : Mode → State → Access → Nat → BitVec (elemBits e)) : Prop :=
  ∀ m s a j, a.size ≤ 64 → elemBytes e * j + elemBytes e ≤ a.size →
    lane (elemBits e) j (readOperand m s a.seg a.ea a.size) = elt m s a (elemBits e / 8 * j)

theorem elementsOf_dword : ElementsOf .dword operandDword := by
  intro m s a j hsize hj
  have hbit : 32 * j = 8 * (4 * j) := by omega
  simp only [lane, elemBits, hbit]
  exact extract_readOperand_dword m s a (4 * j) hj hsize

theorem elementsOf_qword : ElementsOf .qword operandQword := by
  intro m s a j hsize hj
  have hbit : 64 * j = 8 * (8 * j) := by omega
  simp only [lane, elemBits, hbit]
  exact extract_readOperand_qword m s a (8 * j) hj hsize

theorem readSize_le (f : Form) (c : EvexCtl) : readSize f c ≤ 64 := by
  unfold readSize
  split
  · cases f.elem <;> decide
  · cases f.vlen <;> decide

/-- Without broadcast the operand holds an element for each lane (`20_memory.md` R42). -/
theorem element_end_le {f : Form} {c : EvexCtl} (hb : c.b = false) {j : Nat} (hj : j < laneCount f) :
    elemBytes f.elem * j + elemBytes f.elem ≤ readSize f c := by
  obtain ⟨-, hbytes, -⟩ := form_sizes f
  rw [readSize, hb, if_neg (by decide), hbytes, ← Nat.mul_succ]
  exact Nat.mul_le_mul_left _ hj

/-! ### The legacy and VEX forms -/

/-- A class without EVEX controls: every lane is active, nothing is broadcast, and memory elements are dwords. -/
theorem result_dword_memory {m : Mode} {i : Instr} {s : State} {x : Mem} {cls : EncClass} {v : VLen}
    (hform : formOf i = ⟨cls, .dword, v⟩) (hctl : (operandsOf i).ctl = noCtl) (hm : s.cpuMode = .admitted m)
    (hready : Ready i s) (hrm : (operandsOf i).rm = .mem x) (hread : AccessReadable m s (access m i s x))
    (hleg : cls = .legacy → LegacyAligned m s (access m i s x)) :
    Result 32 m s i (laneCount ⟨cls, .dword, v⟩) (operandsOf i).dst (operandsOf i).src1
      (fun j => operandDword m s (access m i s x) (4 * j)) allActive false (keepsUpper ⟨cls, .dword, v⟩) := by
  have h := result_memory hm hready hrm (liveReadable_of_accessReadable hread) (by rwa [hform]) (by simp [hctl, noCtl])
  have hsize : (access m i s x).size = readSize ⟨cls, .dword, v⟩ noCtl := by rw [access, accessOf, hform, hctl]
  rw [hform, hctl] at h
  refine result_congr h (fun j hj => ?_) fun j => iff_of_true (activeLane_noCtl s j) trivial
  exact elementsOf_dword m s _ j (hsize ▸ readSize_le _ _) (hsize ▸ element_end_le rfl hj)

theorem result_dword_register {m : Mode} {i : Instr} {s : State} {r : VReg} {cls : EncClass} {v : VLen}
    (hform : formOf i = ⟨cls, .dword, v⟩) (hctl : (operandsOf i).ctl = noCtl) (hm : s.cpuMode = .admitted m)
    (hready : Ready i s) (hrm : (operandsOf i).rm = .reg r) :
    Result 32 m s i (laneCount ⟨cls, .dword, v⟩) (operandsOf i).dst (operandsOf i).src1
      (fun j => laneOf 32 j (s.readZmm r)) allActive false (keepsUpper ⟨cls, .dword, v⟩) := by
  have h := result_register hm hready hrm
  rw [hform, hctl] at h
  exact result_congr h (fun _ _ => rfl) fun j => iff_of_true (activeLane_noCtl s j) trivial

/-- Settles O27. -/
theorem pmulldRegisterResult : Obligations.PmulldRegisterResult :=
  fun _ _ _ _ _ _ hm hready => result_dword_register (cls := .legacy) (v := .v128) rfl rfl hm hready rfl

/-- Settles O28. -/
theorem pmulldMemoryResult : Obligations.PmulldMemoryResult :=
  fun _ _ _ _ _ _ hm hready hread hleg =>
    result_dword_memory (cls := .legacy) (v := .v128) rfl rfl hm hready rfl hread fun _ => hleg

/-- Settles O29. -/
theorem vexRegisterResult : Obligations.VexRegisterResult :=
  ⟨fun _ _ _ _ _ _ hm hready => result_dword_register (cls := .vex) (v := .v128) rfl rfl hm hready rfl,
    fun _ _ _ _ _ _ hm hready => result_dword_register (cls := .vex) (v := .v256) rfl rfl hm hready rfl⟩

/-- Settles O30. -/
theorem vexMemoryResult : Obligations.VexMemoryResult :=
  ⟨fun _ _ _ _ _ _ hm hready hread =>
      result_dword_memory (cls := .vex) (v := .v128) rfl rfl hm hready rfl hread (by simp),
    fun _ _ _ _ _ _ hm hready hread =>
      result_dword_memory (cls := .vex) (v := .v256) rfl rfl hm hready rfl hread (by simp)⟩

/-! ### The EVEX forms -/

/-- A constructor of the EVEX instruction with elements `e` and vector length `v`. -/
def ConstructsEvex (mk : EvexCtor) (e : Elem) (v : VLen) : Prop :=
  ∀ p c d a r, formOf (mk p c d a r) = ⟨.evex, e, v⟩ ∧ operandsOf (mk p c d a r) = evexOperands p c d a r

section evex

variable {mk : EvexCtor} {e : Elem} {v : VLen} (hmk : ConstructsEvex mk e v)
include hmk

theorem evexRegisterForm : EvexRegisterForm (elemBits e) mk (laneCount ⟨.evex, e, v⟩) := by
  intro m p c d a r s hm hready
  obtain ⟨hform, hops⟩ := hmk p c d a (.reg r)
  have h := result_register hm hready (r := r) (by rw [hops]; rfl)
  rw [hform, hops] at h
  exact h

variable {elt : Mode → State → Access → Nat → BitVec (elemBits e)} (helt : ElementsOf e elt)
include helt

theorem evexMemoryForm : EvexMemoryForm (elemBits e) elt mk (laneCount ⟨.evex, e, v⟩) := by
  intro m p c d a x s hb hm hready hread
  obtain ⟨hform, hops⟩ := hmk p c d a (.mem x)
  have hsize : (access m (mk p c d a (.mem x)) s x).size = readSize ⟨.evex, e, v⟩ c := by
    rw [access, accessOf, hform, hops]
    rfl
  have h := result_memory hm hready (x := x) (by rw [hops]; rfl) (by rw [hops]; exact hread) (by simp [hform])
    (by simp [hops, evexOperands, hb])
  rw [hform, hops] at h
  refine result_congr h (fun j hj => ?_) fun _ => Iff.rfl
  simp only [evexOperands, hb, Bool.false_eq_true, if_false]
  exact helt m s _ j (hsize ▸ readSize_le _ _) (hsize ▸ element_end_le hb hj)

theorem evexBroadcastForm : EvexBroadcastForm (elemBits e) elt mk (laneCount ⟨.evex, e, v⟩) := by
  intro m p c d a x s hb hm hready hread halign
  obtain ⟨hform, hops⟩ := hmk p c d a (.mem x)
  have hsize : (access m (mk p c d a (.mem x)) s x).size = elemBytes e := by
    rw [access, accessOf, hform, hops, readSize, if_pos (by exact hb)]
  have h := result_memory hm hready (x := x) (by rw [hops]; rfl) (by rw [hops]; exact hread) (by simp [hform])
    (by rw [hform, hops]; exact fun _ => halign)
  rw [hform, hops] at h
  refine result_congr h (fun j _ => ?_) fun _ => Iff.rfl
  simp only [evexOperands, hb, if_true]
  exact helt m s _ 0 (hsize ▸ by cases e <;> decide) (by rw [hsize]; omega)

end evex

theorem constructsEvex : ConstructsEvex .vpmulldEvex128 .dword .v128 ∧ ConstructsEvex .vpmulldEvex256 .dword .v256 ∧
    ConstructsEvex .vpmulldEvex512 .dword .v512 ∧ ConstructsEvex .vpmullqEvex128 .qword .v128 ∧
    ConstructsEvex .vpmullqEvex256 .qword .v256 ∧ ConstructsEvex .vpmullqEvex512 .qword .v512 := by
  refine ⟨?_, ?_, ?_, ?_, ?_, ?_⟩ <;> exact fun _ _ _ _ _ => ⟨rfl, rfl⟩

/-- Settles O31. -/
theorem evexDwordRegisterResult : Obligations.EvexDwordRegisterResult := by
  obtain ⟨h128, h256, h512, -⟩ := constructsEvex
  exact ⟨evexRegisterForm h128, evexRegisterForm h256, evexRegisterForm h512⟩

/-- Settles O32. -/
theorem evexDwordMemoryResult : Obligations.EvexDwordMemoryResult := by
  obtain ⟨h128, h256, h512, -⟩ := constructsEvex
  exact ⟨evexMemoryForm h128 elementsOf_dword, evexMemoryForm h256 elementsOf_dword,
    evexMemoryForm h512 elementsOf_dword⟩

/-- Settles O33. -/
theorem evexDwordBroadcastResult : Obligations.EvexDwordBroadcastResult := by
  obtain ⟨h128, h256, h512, -⟩ := constructsEvex
  exact ⟨evexBroadcastForm h128 elementsOf_dword, evexBroadcastForm h256 elementsOf_dword,
    evexBroadcastForm h512 elementsOf_dword⟩

/-- Settles O34. -/
theorem evexQwordRegisterResult : Obligations.EvexQwordRegisterResult := by
  obtain ⟨-, -, -, h128, h256, h512⟩ := constructsEvex
  exact ⟨evexRegisterForm h128, evexRegisterForm h256, evexRegisterForm h512⟩

/-- Settles O35. -/
theorem evexQwordMemoryResult : Obligations.EvexQwordMemoryResult := by
  obtain ⟨-, -, -, h128, h256, h512⟩ := constructsEvex
  exact ⟨evexMemoryForm h128 elementsOf_qword, evexMemoryForm h256 elementsOf_qword,
    evexMemoryForm h512 elementsOf_qword⟩

/-- Settles O36. -/
theorem evexQwordBroadcastResult : Obligations.EvexQwordBroadcastResult := by
  obtain ⟨-, -, -, h128, h256, h512⟩ := constructsEvex
  exact ⟨evexBroadcastForm h128 elementsOf_qword, evexBroadcastForm h256 elementsOf_qword,
    evexBroadcastForm h512 elementsOf_qword⟩

end Sys2Proof.Proofs
end

section
/-! SUPPORT. What influences an execution: lanes one by one under the writemask (`40_common_lane_arithmetic.md` R104,
R106), and the parts of the state that have no influence (`10_state.md` R23, R27, `20_memory.md` R41, R53,
`60_exceptions.md` R170). -/

namespace Sys2Proof.Proofs

open Sys2Proof.Machine Sys2Proof.Claims

/-! ### Lanes of an execution that completes -/

/-- Each lane of the destination after an execution that completes (`40_common_lane_arithmetic.md` R106). -/
theorem exec_next_lane {i : Instr} {s t : State} (h : exec i s = .next t) :
    ∃ m, s.cpuMode = .admitted m ∧ ∀ j, j < laneCount (formOf i) →
      laneOf (elemBits (formOf i).elem) j (t.readZmm (operandsOf i).dst) =
        laneResult (elemBits (formOf i).elem) (s.readZmm (operandsOf i).src1)
          (secondFactor m (formOf i) (operandsOf i) s) (laneActive s (operandsOf i).ctl) (operandsOf i).ctl.z
          (s.readZmm (operandsOf i).dst) j := by
  obtain ⟨m, hm, -, rfl⟩ := exec_eq_next h
  refine ⟨m, hm, fun j hj => ?_⟩
  rw [complete_readZmm_dst]
  exact lane_newDest m (operandsOf i) s hj

/-- The first clause of R106, for one lane. -/
theorem exec_next_lane_clauses {m : Mode} {i : Instr} {s t : State} {j : Nat} (hm : s.cpuMode = .admitted m)
    (h : exec i s = .next t) (hj : j < laneCount (formOf i)) :
    (activeLane s (operandsOf i).ctl j →
      laneOf (elemBits (formOf i).elem) j (t.readZmm (operandsOf i).dst) =
        product (laneOf (elemBits (formOf i).elem) j (s.readZmm (operandsOf i).src1))
          (secondFactor m (formOf i) (operandsOf i) s j)) ∧
    (¬ activeLane s (operandsOf i).ctl j → (operandsOf i).ctl.z = true →
      laneOf (elemBits (formOf i).elem) j (t.readZmm (operandsOf i).dst) = 0) ∧
    (¬ activeLane s (operandsOf i).ctl j → (operandsOf i).ctl.z = false →
      laneOf (elemBits (formOf i).elem) j (t.readZmm (operandsOf i).dst) =
        laneOf (elemBits (formOf i).elem) j (s.readZmm (operandsOf i).dst)) := by
  obtain ⟨m', hm', hlane⟩ := exec_next_lane h
  obtain rfl : m = m' := by simpa [hm] using hm'
  rw [hlane j hj]
  exact laneResult_clauses _ _ _ _ _ _

/-- A lane result is a matter of that lane of the old destination and the sources, and of its mask bit. -/
theorem laneResult_congr {w : Nat} {a a' old old' : Vec} {s2 s2' : Nat → BitVec w} {active active' : Nat → Bool}
    (z : Bool) {j : Nat} (ha : lane w j a = lane w j a') (hold : lane w j old = lane w j old') (hs2 : s2 j = s2' j)
    (hact : active j = active' j) : laneResult w a s2 active z old j = laneResult w a' s2' active' z old' j := by
  simp only [laneResult, ha, hold, hs2, hact]

theorem secondFactor_register (m : Mode) (f : Form) {o : Operands} {r : VReg} (hrm : o.rm = .reg r) (s : State) (j : Nat) :
    secondFactor m f o s j = laneOf (elemBits f.elem) j (s.readZmm r) := by
  rw [secondFactor, hrm]
  rfl

/-- Settles O39. -/
theorem laneIndependence : Obligations.LaneIndependence := by
  intro i s s' t t' r j hrm h h' hj hlanes hact
  obtain ⟨m, -, hlane⟩ := exec_next_lane h
  obtain ⟨m', -, hlane'⟩ := exec_next_lane h'
  rw [hlane j hj, hlane' j hj]
  refine laneResult_congr _ (hlanes _ (by simp)) (hlanes _ (by simp)) ?_ ?_
  · rw [secondFactor_register m _ hrm, secondFactor_register m' _ hrm, hlanes r (by simp)]
  · rw [Bool.eq_iff_iff, laneActive_iff, laneActive_iff]
    exact hact

/-! ### Changes of the state that an execution does not see -/

/-- The stops of two states are equal where mode, #UD condition, CR0.TS and operand stops are. -/
theorem stops_congr {f : Form} {o : Operands} {s s' : State} (hmode : s'.cpuMode = s.cpuMode)
    (hud : udCondition f o s' = udCondition f o s) (hts : s'.ts = s.ts)
    (hop : ∀ m, operandStops m f o s' = operandStops m f o s) : stops f o s' = stops f o s := by
  simp only [stops, udStops, nmStops, hmode, hud, hts, hop]

/-- The lane loop reads the mask below its bound, and the second factor on active lanes only. -/
theorem laneLoop_congr {w : Nat} (a : Vec) {s2 s2' : Nat → BitVec w} {active active' : Nat → Bool} (z : Bool) (old : Vec)
    {n : Nat} (hact : ∀ j, j < n → active j = active' j) (hs2 : ∀ j, j < n → active j = true → s2 j = s2' j) :
    laneLoop w a s2 active z n old = laneLoop w a s2' active' z n old := by
  induction n with
  | zero => rfl
  | succ n ih =>
    have hbefore := ih (fun j hj => hact j (by omega)) fun j hj => hs2 j (by omega)
    rw [laneLoop_succ, laneLoop_succ, hbefore, ← hact n (by omega)]
    by_cases hn : active n = true
    · rw [if_pos hn, if_pos hn, hs2 n (by omega) hn]
    · rw [if_neg hn, if_neg hn]

/-- The new destination of two states with the same vector registers and configuration, when the mask agrees below KL and
the second factors on active lanes. -/
theorem newDest_congr {m : Mode} {f : Form} {o : Operands} {s s' : State} (hzmm : s'.zmm = s.zmm) (hcfg : s'.cfg = s.cfg)
    (hact : ∀ j, j < laneCount f → laneActive s' o.ctl j = laneActive s o.ctl j)
    (hs2 : ∀ j, j < laneCount f → laneActive s' o.ctl j = true → secondFactor m f o s' j = secondFactor m f o s j) :
    newDest m f o s' = newDest m f o s := by
  have hread : ∀ n, s'.readZmm n = s.readZmm n := fun n => by rw [State.readZmm, State.readZmm, hzmm]
  simp only [newDest, vMulLo, laneCount_eq_div, hread, hcfg]
  rw [laneLoop_congr _ o.ctl.z _ hact hs2]

/-! ### RFLAGS -/

section rflags

variable {s : State} {v : W64} (hvm : v.getLsbD 17 = s.rflags.getLsbD 17) (hac : v.getLsbD 18 = s.rflags.getLsbD 18)

include hvm in
theorem cpuMode_rflags : ({ s with rflags := v } : State).cpuMode = s.cpuMode := by
  have hvm' : ({ s with rflags := v } : State).vm = s.vm := hvm
  simp only [State.cpuMode, hvm']
  rfl

include hac in
theorem operandStops_rflags (m : Mode) (f : Form) (o : Operands) :
    operandStops m f o { s with rflags := v } = operandStops m f o s := by
  have hcheck : alignmentChecked { s with rflags := v } = alignmentChecked s := by
    have hac' : ({ s with rflags := v } : State).ac = s.ac := hac
    simp only [alignmentChecked, hac']
    rfl
  unfold operandStops
  cases o.rm with
  | reg r => rfl
  | mem x =>
    have haccess : accessOf m f o { s with rflags := v } x = accessOf m f o s x := by cases x <;> rfl
    simp only [memoryStops, accessStops, hcheck, haccess]
    rfl

include hvm hac in
/-- RFLAGS but for AC and VM changes the outcome in RFLAGS only (`10_state.md` R27). -/
theorem exec_rflags (i : Instr) :
    exec i { s with rflags := v } = mapNext (fun t => { t with rflags := v }) (exec i s) := by
  simp only [exec_eq_run]
  refine run_mapNext _ _ (fun t => { t with rflags := v }) s rfl rfl (cpuMode_rflags hvm)
    (stops_congr (cpuMode_rflags hvm) rfl rfl fun m => operandStops_rflags hac m _ _) fun m _ => ?_
  rw [complete, newDest_congr (s := s) (s' := { s with rflags := v }) rfl rfl (fun _ _ => rfl) fun _ _ _ => rfl]
  rfl

end rflags

/-- Settles O43. -/
theorem flagsUntouched : Obligations.FlagsUntouched := by
  intro i s
  refine ⟨fun t h => ?_, fun v hvm hac => exec_rflags hvm hac i⟩
  obtain ⟨hframe, -⟩ := exec_next_onlyDest i s t h
  rw [hframe]

/-! ### Opmask registers -/

section opmask

variable {s : State} {k : Vector W64 8} {f : Form} {c : EvexCtl}
  (hk : c.aaa = 0 ∨ ∀ j, j < laneCount f → (k[c.aaa.val]).getLsbD j = (s.k[c.aaa.val]).getLsbD j)
include hk

theorem laneActive_opmask {j : Nat} (hj : j < laneCount f) : laneActive { s with k := k } c j = laneActive s c j := by
  obtain haaa | hbits := hk
  · simp [laneActive, haaa]
  · simp only [laneActive, State.readK, hbits j hj]

/-- Every byte of an access belongs to a lane below KL (`20_memory.md` R42, R53). -/
theorem byteLive_opmask {n : Nat} (hn : n < readSize f c) : byteLive f c { s with k := k } n = byteLive f c s n := by
  unfold byteLive
  by_cases hb : c.b = true
  · rw [if_pos hb, if_pos hb, Bool.eq_iff_iff]
    simp only [someLaneActive, List.any_eq_true, List.mem_range]
    exact exists_congr fun j => and_congr_right fun hj => by rw [laneActive_opmask hk hj]
  · obtain ⟨-, hbytes, -⟩ := form_sizes f
    rw [readSize, if_neg hb, hbytes, Nat.mul_comm] at hn
    rw [if_neg hb, if_neg hb, laneActive_opmask hk (Nat.div_lt_of_lt_mul (by rwa [Nat.mul_comm]))]

end opmask

/-- Settles O44: the mask is read below KL, by the live bytes and by the lane loop. -/
theorem opmaskOtherBitsIgnored : Obligations.OpmaskOtherBitsIgnored := by
  intro i s k hk
  simp only [exec_eq_run]
  refine run_mapNext _ _ (fun t => { t with k := k }) s rfl rfl rfl (stops_congr rfl rfl rfl fun m => ?_) fun m _ => ?_
  · cases hrm : (operandsOf i).rm with
    | reg r => simp only [operandStops, hrm]
    | mem x =>
      have haccess : accessOf m (formOf i) (operandsOf i) { s with k := k } x = accessOf m (formOf i) (operandsOf i) s x := by
        cases x <;> rfl
      simp only [operandStops, hrm, haccess]
      exact accessStops_congr m _ _ s _ _ _ fun n hn => byteLive_opmask hk hn
  · rw [complete, newDest_congr (s := s) (s' := { s with k := k }) rfl rfl (fun j hj => laneActive_opmask hk hj)
      fun _ _ _ => rfl]
    rfl

/-! ### Register forms -/

section registerForm

variable {f : Form} {o : Operands} {r : VReg} (hrm : o.rm = .reg r)
include hrm

/-- A register form reads the vector and opmask registers and the control state: a change of anything else commutes with
it (`20_memory.md` R41, `60_exceptions.md` R170). -/
theorem run_register_mapNext (g : State → State) (s : State) (hcfg : (g s).cfg = s.cfg)
    (hcount : (g s).freeCount = s.freeCount) (hmode : (g s).cpuMode = s.cpuMode)
    (hud : udCondition f o (g s) = udCondition f o s) (hts : (g s).ts = s.ts) (hzmm : (g s).zmm = s.zmm)
    (hk : (g s).k = s.k) (hcomplete : ∀ m v, ((g s).writeZmm o.dst v).setRip (nextRip m (g s) o.len) =
      g ((s.writeZmm o.dst v).setRip (nextRip m s o.len))) :
    run f o (g s) = mapNext g (run f o s) := by
  refine run_mapNext f o g s (by rw [hcfg]) hcount hmode (stops_congr hmode hud hts fun m => ?_) fun m _ => ?_
  · simp only [operandStops, hrm]
  · have hnew : newDest m f o (g s) = newDest m f o s := by
      refine newDest_congr hzmm hcfg (fun j _ => ?_) fun j _ _ => ?_
      · simp only [laneActive, State.readK, hk]
      · rw [secondFactor_register m f hrm, secondFactor_register m f hrm, State.readZmm, State.readZmm, hzmm]
    rw [complete, hnew, hcomplete, complete]

end registerForm

/-- Settles O45. -/
theorem registerFormIgnoresMemory : Obligations.RegisterFormIgnoresMemory := by
  intro i s r mem regions gpr ds ss es fs gs hrm
  simp only [exec_eq_run]
  exact run_register_mapNext hrm
    (fun t => { t with mem := mem, regions := regions, gpr := gpr, ds := ds, ss := ss, es := es, fs := fs, gs := gs })
    s rfl rfl rfl rfl rfl rfl rfl fun m v => by cases m <;> rfl

/-- Settles O46. -/
theorem privilegeIndependence : Obligations.PrivilegeIndependence := by
  intro i s r c hrm
  simp only [exec_eq_run]
  exact run_register_mapNext hrm (fun t => { t with cpl := c }) s rfl rfl rfl rfl rfl rfl rfl fun m v => by
    cases m <;> rfl

/-! ### Memory bytes of inactive lanes -/

/-- Another memory and other regions that agree at the live bytes of an access with those of the state
(`20_memory.md` R53). -/
def SameLiveBytes (m : Mode) (s : State) (mem : Memory) (regions : List Region) (a : Access) (live : Nat → Bool) : Prop :=
  ∀ k, k < a.size → live k = true →
    mem.read (byteAddress m s a.seg a.ea k).toNat = operandByte m s a k ∧
    regionKind regions s.pg (byteAddress m s a.seg a.ea k).toNat = s.kindAt (byteAddress m s a.seg a.ea k)

/-- A state with another memory and other regions. -/
abbrev withMemory (s : State) (mem : Memory) (regions : List Region) : State :=
  { s with mem := mem, regions := regions }

section liveBytes

variable {m : Mode} {s : State} {mem : Memory} {regions : List Region} {a : Access} {live : Nat → Bool}
  (h : SameLiveBytes m s mem regions a live)
include h

theorem kindAt_sameLiveBytes {k : Nat} (hk : k < a.size) (hl : live k = true) :
    (withMemory s mem regions).kindAt (byteAddress m s a.seg a.ea k) = s.kindAt (byteAddress m s a.seg a.ea k) := by
  obtain ⟨-, hkind⟩ := h k hk hl
  exact hkind

theorem pageFaultAt_sameLiveBytes {k : Nat} (hk : k < a.size) (hl : live k = true) :
    pageFaultAt (withMemory s mem regions) (byteAddress m s a.seg a.ea k) = pageFaultAt s (byteAddress m s a.seg a.ea k) := by
  simp only [pageFaultAt, kindAt_sameLiveBytes h hk hl]
  rfl

/-- The page fault reported is that of a live byte, with its cause. -/
theorem lowestPageFault_sameLiveBytes :
    lowestPageFault m (withMemory s mem regions) a live = lowestPageFault m s a live := by
  have hfailing : failingAddresses m (withMemory s mem regions) a live = failingAddresses m s a live := by
    unfold failingAddresses
    congr 1
    refine List.filter_congr fun k hk => ?_
    cases hl : live k with
    | false => rfl
    | true => exact congrArg (fun x => true && x.isSome) (pageFaultAt_sameLiveBytes h (List.mem_range.mp hk) hl)
  rw [lowestPageFault, lowestPageFault, hfailing]
  cases hlow : lowestAddress (failingAddresses m s a live) with
  | none => rfl
  | some la =>
    obtain ⟨hmem, -⟩ := lowestAddress_eq_some _ _ hlow
    obtain ⟨k, hk, hl, rfl, -⟩ := (mem_failingAddresses m s a live la).mp hmem
    exact pageFaultAt_sameLiveBytes h hk hl

/-- Under SuppressionHolds nothing but live bytes can stop an access (`20_memory.md` R53; log 28). -/
theorem accessStops_sameLiveBytes (hsupp : s.cfg.suppression = true ∨ regions = s.regions) (f : Form) (c : EvexCtl) :
    accessStops m f c (withMemory s mem regions) a live = accessStops m f c s a live := by
  have hkind : ∀ kind, (a.bytes.any fun k => live k &&
      (withMemory s mem regions).kindAt (byteAddress m (withMemory s mem regions) a.seg a.ea k) == kind) =
      a.bytes.any fun k => live k && s.kindAt (byteAddress m s a.seg a.ea k) == kind := fun kind =>
    any_bytes_congr a _ _ fun k hk => by
      cases hl : live k with
      | false => rfl
      | true => exact congrArg (fun x => true && x == kind) (kindAt_sameLiveBytes h hk hl)
  have hdoubt : (!(withMemory s mem regions).cfg.suppression && a.bytes.any fun k => !live k &&
      byteInaccessible m (withMemory s mem regions) a k) =
      (!s.cfg.suppression && a.bytes.any fun k => !live k && byteInaccessible m s a k) := by
    obtain hs | rfl := hsupp
    · simp [hs]
    · rfl
  simp only [accessStops]
  rw [hkind, hkind, hdoubt, lowestPageFault_sameLiveBytes h]
  rfl

/-- The lanes of the value read are a matter of their own bytes. -/
theorem lane_readOperand_sameLiveBytes {w l : Nat} (hlive : ∀ k, w * l ≤ 8 * k + 7 → 8 * k < w * l + w → live k = true) :
    lane w l (readOperand m (withMemory s mem regions) a.seg a.ea a.size) = lane w l (readOperand m s a.seg a.ea a.size) := by
  apply BitVec.eq_of_getLsbD_eq
  intro i hi
  rw [getLsbD_lane, getLsbD_lane]
  by_cases hlt : w * l + i < 512
  · rw [readOperand, readOperand, getLsbD_littleEndian _ _ hlt, getLsbD_littleEndian _ _ hlt]
    by_cases hin : w * l + i < 8 * a.size
    · obtain ⟨hbyte, -⟩ := h ((w * l + i) / 8) (by omega) (hlive _ (by omega) (by omega))
      have hread : (withMemory s mem regions).mem.read
          (byteAddress m (withMemory s mem regions) a.seg a.ea ((w * l + i) / 8)).toNat =
          s.mem.read (byteAddress m s a.seg a.ea ((w * l + i) / 8)).toNat := hbyte
      rw [hread]
    · simp [hin]
  · rw [BitVec.getLsbD_of_ge _ _ (not_lt.mp hlt), BitVec.getLsbD_of_ge _ _ (not_lt.mp hlt)]

end liveBytes

/-- The bytes of an active lane's element are live (`20_memory.md` R53). -/
theorem byteLive_of_lane {f : Form} {c : EvexCtl} {s : State} {j k : Nat} (hj : j < laneCount f)
    (hact : laneActive s c j = true) (hlow : elemBits f.elem * (if c.b then 0 else j) ≤ 8 * k + 7)
    (hhigh : 8 * k < elemBits f.elem * (if c.b then 0 else j) + elemBits f.elem) : byteLive f c s k = true := by
  unfold byteLive
  by_cases hb : c.b = true
  · rw [if_pos hb, someLaneActive_iff]
    exact ⟨j, hj, (laneActive_iff s c j).mp hact⟩
  · obtain ⟨-, -, hbits, hpos, -⟩ := form_sizes f
    rw [if_neg hb] at hlow hhigh ⊢
    have hdiv : k / elemBytes f.elem = j := by
      rw [hbits, Nat.mul_assoc, Nat.mul_comm _ j] at hlow hhigh
      rw [Nat.div_eq_iff hpos]
      omega
    rw [hdiv]
    exact hact

/-- Neither the values nor, under SuppressionHolds, the accessibility of masked-off bytes influence an execution
(`40_common_lane_arithmetic.md` R106, `20_memory.md` R53). -/
theorem exec_withMemory {m : Mode} {i : Instr} {s : State} {x : Mem} {mem : Memory} {regions : List Region}
    (hm : s.cpuMode = .admitted m) (hrm : (operandsOf i).rm = .mem x) (hsupp : s.cfg.suppression = true ∨ regions = s.regions)
    (h : SameLiveBytes m s mem regions (access m i s x) (byteLive (formOf i) (operandsOf i).ctl s)) :
    exec i (withMemory s mem regions) = mapNext (fun t => withMemory t mem regions) (exec i s) := by
  have haccess : ∀ m, accessOf m (formOf i) (operandsOf i) (withMemory s mem regions) x =
      accessOf m (formOf i) (operandsOf i) s x := fun m => by cases x <;> rfl
  simp only [exec_eq_run]
  refine run_mapNext _ _ (fun t => withMemory t mem regions) s rfl rfl rfl ?_ fun m' hm' => ?_
  · have hop : operandStops m (formOf i) (operandsOf i) (withMemory s mem regions) =
        operandStops m (formOf i) (operandsOf i) s := by
      simp only [operandStops, hrm, haccess]
      exact accessStops_sameLiveBytes h hsupp _ _
    have hmode : (withMemory s mem regions).cpuMode = .admitted m := hm
    simp only [stops, hm, hmode, hop]
    rfl
  · obtain rfl : m = m' := by simpa [hm] using hm'
    have hnew : newDest m (formOf i) (operandsOf i) (withMemory s mem regions) =
        newDest m (formOf i) (operandsOf i) s := by
      refine newDest_congr rfl rfl (fun _ _ => rfl) fun j hj hact => ?_
      simp only [secondFactor, hrm, haccess]
      exact lane_readOperand_sameLiveBytes h fun k => byteLive_of_lane hj hact
    rw [complete, hnew]
    rfl

/-- Settles O38. -/
theorem writemaskRule : Obligations.WritemaskRule :=
  ⟨fun _ _ _ _ _ hm h hj => exec_next_lane_clauses hm h hj,
    fun _ _ _ _ _ _ hm hrm hsupp h => exec_withMemory hm hrm hsupp h⟩

end Sys2Proof.Proofs
end

section
/-! SUPPORT. Reset and INIT (`10_state.md` R33), the words spelled byte by byte (`30_encoding.md` R60 to R80) and the
table of exceptions (`60_exceptions.md` R150, R161). -/

namespace Sys2Proof.Proofs

open Sys2Proof.Machine Sys2Proof.Claims

/-! ### Reset -/

theorem readZmm_reset (n : VReg) : State.reset.readZmm n = 0#512 := Vector.getElem_replicate _

theorem readK_reset (n : KReg) : State.reset.readK n = 0#64 := Vector.getElem_replicate _

/-- A register file of zeros but for RDX (`10_state.md` R33). -/
theorem getElem_rdx_only (x : W64) (n : GReg) :
    ((Vector.replicate 16 (0#64 : W64)).set 2 x)[n.val] = if n = 2 then x else 0#64 := by
  have hn : 2 = n.val ↔ n = 2 := by
    revert n
    decide
  simp [Vector.getElem_set, hn]

theorem readGpr_reset {n : GReg} (hn : n ≠ 2) : State.reset.readGpr n = 0#64 :=
  (getElem_rdx_only _ n).trans (if_neg hn)

theorem cpuMode_reset : State.reset.cpuMode = .unadmitted .realAddress := by decide

/-- Settles O1. -/
theorem resetStateValues : Obligations.ResetStateValues :=
  ⟨readZmm_reset, readK_reset, rfl, fun _ => readGpr_reset, rfl, rfl, rfl, rfl, rfl, rfl, rfl, rfl, rfl, cpuMode_reset,
    by decide⟩

/-- INIT sets CR0 as after RESET but for CD and NW (`10_state.md` R33; log 29). -/
theorem getLsbD_cr0_afterInit (x : W64) (n : Nat) :
    ((x &&& 0x60000000#64) ||| 0x10#64).getLsbD n =
      if n = 29 ∨ n = 30 then x.getLsbD n else (0x60000010#64).getLsbD n := by
  have hmask : ∀ n < 64, (0x60000000#64).getLsbD n = decide (n = 29 ∨ n = 30) ∧
      (¬ (n = 29 ∨ n = 30) → (0x10#64).getLsbD n = (0x60000010#64).getLsbD n) ∧
      ((n = 29 ∨ n = 30) → (0x10#64).getLsbD n = false) := by decide
  by_cases hlt : n < 64
  · obtain ⟨hkeep, hother, hkept⟩ := hmask n hlt
    rw [BitVec.getLsbD_or, BitVec.getLsbD_and, hkeep]
    by_cases hn : n = 29 ∨ n = 30
    · rw [if_pos hn, hkept hn, decide_eq_true hn, Bool.and_true, Bool.or_false]
    · rw [if_neg hn, hother hn, decide_eq_false hn, Bool.and_false, Bool.false_or]
  · have hge : 64 ≤ n := not_lt.mp hlt
    rw [BitVec.getLsbD_of_ge _ n hge, BitVec.getLsbD_of_ge _ n hge, BitVec.getLsbD_of_ge _ n hge, ite_self]

/-- Settles O2. -/
theorem initKeepsVectorState : Obligations.InitKeepsVectorState := by
  intro s
  have hcr0 : ∀ n, s.afterInit.cr0.getLsbD n =
      if n = 29 ∨ n = 30 then s.cr0.getLsbD n else (0x60000010#64).getLsbD n := getLsbD_cr0_afterInit s.cr0
  have hmode : s.afterInit.cpuMode = .unadmitted .realAddress := by
    have hpe : s.afterInit.pe = false := (hcr0 0).trans (by simp)
    simp [State.cpuMode, hpe]
  have hif : (0x2#64).getLsbD 9 = false := by decide
  exact ⟨rfl, rfl, rfl, rfl, fun _ => rfl, fun n hn => (getElem_rdx_only _ n).trans (if_neg hn),
    (getElem_rdx_only _ 2).trans (if_pos rfl), rfl, rfl, rfl, rfl, rfl, rfl, rfl, hmode, hif, hcr0⟩

/-- Settles O3: no class is enabled after reset, for CR4 is 0. -/
theorem everyEncodingUdAfterReset : Obligations.EveryEncodingUdAfterReset := by
  intro i
  refine exec_of_not_noUd rfl ?_
  rintro ⟨-, hclass, -⟩
  unfold ClassOn at hclass
  cases hcls : (formOf i).cls with
  | legacy =>
    rw [hcls] at hclass
    exact absurd hclass.2 (by decide)
  | vex | evex =>
    rw [hcls] at hclass
    exact absurd hclass.1 (by decide)

/-- Settles O4. -/
theorem resetHoldsInvariant : Obligations.ResetHoldsInvariant := by
  refine ⟨reset_memory_wf, by decide, fun n i _ => ?_, fun hm => ?_⟩
  · rw [readZmm_reset, BitVec.getLsbD_zero]
  · rw [cpuMode_reset] at hm
    cases hm

/-! ### Words and exceptions -/

/-- Settles O9. -/
theorem decodesWrittenOutWords : Obligations.DecodesWrittenOutWords := by
  unfold Obligations.DecodesWrittenOutWords
  decide

/-- Only a page fault records an address (`60_exceptions.md` R161). -/
theorem recordedCr2_eq_some_iff (x : Fault) (a : W64) : x.recordedCr2 = some a ↔ ∃ c, x = .pageFault c a := by
  cases x with
  | pageFault code cr2 => simp [Fault.recordedCr2]
  | invalidOpcode | deviceNotAvailable | stackSegment | generalProtection | alignmentCheck => simp [Fault.recordedCr2]

/-- Settles O58. -/
theorem faultVectorsAndCodes : Obligations.FaultVectorsAndCodes :=
  fun _ a => ⟨rfl, rfl, rfl, rfl, rfl, rfl, fun x => recordedCr2_eq_some_iff x a⟩

end Sys2Proof.Proofs
end

section
/-! SUPPORT. Faults (`60_exceptions.md` R150 to R163). First which stops there are, as conditions, and how the outcome of
an execution depends on them under either order; then the causes of every fault, the faults that stand first under the
fixed order, and what never completes. -/

namespace Sys2Proof.Proofs

open Sys2Proof.Machine Sys2Proof.Claims

/-! ### Stops and outcomes -/

theorem mem_stopIf (c : Bool) (x y : Stop) : x ∈ stopIf c y ↔ c = true ∧ x = y := by
  cases c <;> simp

/-- The stops of an execution: #UD, an unadmitted mode, #NM, or the operand's (`60_exceptions.md` R163). -/
theorem mem_stops_iff (f : Form) (o : Operands) (s : State) (x : Stop) :
    x ∈ stops f o s ↔ (udCondition f o s = true ∧ x = .fault .invalidOpcode) ∨
      (∃ why, s.cpuMode = .unadmitted why ∧ x = .refuse (.mode why)) ∨
      ∃ m, s.cpuMode = .admitted m ∧
        ((s.ts = true ∧ udCondition f o s = false ∧ x = .fault .deviceNotAvailable) ∨ x ∈ operandStops m f o s) := by
  cases hm : s.cpuMode <;> simp [stops, udStops, nmStops, hm, mem_stopIf, and_assoc]

/-- A fault that an execution raises is one of its stops. -/
theorem fault_mem_stops {i : Instr} {s : State} {x : Fault} (h : exec i s = .fault x) :
    Stop.fault x ∈ stops (formOf i) (operandsOf i) s := by
  rw [exec_eq_run, run] at h
  cases hc : chooseStop s.cfg.faultOrder s.freeCount (stops (formOf i) (operandsOf i) s) with
  | none =>
    rw [hc] at h
    cases hm : s.cpuMode <;> simp [hm] at h
  | some y =>
    rw [hc] at h
    obtain rfl : y = .fault x := by cases y <;> simp_all [Stop.outcome, raise]
    exact chooseStop_mem _ _ _ _ hc

/-- Nothing completes that something stops. -/
theorem exec_ne_next_of_mem {i : Instr} {s : State} {x : Stop} (h : x ∈ stops (formOf i) (operandsOf i) s) (t : State) :
    exec i s ≠ .next t := by
  intro hexec
  obtain ⟨-, -, hnil, -⟩ := exec_eq_next hexec
  rw [hnil] at h
  cases h

/-- A stop that is the only one is the outcome under either order. -/
theorem exec_of_only_stop {i : Instr} {s : State} {x : Stop} (h : stops (formOf i) (operandsOf i) s = [x]) :
    exec i s = x.outcome := by
  rw [exec_eq_run]
  refine run_of_stop _ _ _ _ ?_
  rw [h]
  cases s.cfg.faultOrder with
  | fixed => rfl
  | any => cases x <;> simp [chooseStop, Stop.isRefusal, Nat.mod_one]

/-- Under FAULT_ORDER = any an execution with an applicable refusal is refused (`20_memory.md` R48, R53; log 6). -/
theorem exec_refused_of_any {i : Instr} {s : State} {r : Refusal} (hany : s.cfg.faultOrder = .any)
    (h : Stop.refuse r ∈ stops (formOf i) (operandsOf i) s) : ∃ r', exec i s = .refused r' := by
  obtain ⟨y, hy⟩ : ∃ y, (stops (formOf i) (operandsOf i) s).find? Stop.isRefusal = some y :=
    Option.isSome_iff_exists.mp (List.find?_isSome.mpr ⟨_, h, rfl⟩)
  have hchosen : chooseStop s.cfg.faultOrder s.freeCount (stops (formOf i) (operandsOf i) s) = some y := by
    rw [hany]
    simp only [chooseStop, hy]
  rw [exec_eq_run, run_of_stop _ _ _ _ hchosen]
  cases y with
  | fault x => exact absurd (List.find?_some hy) (by simp [Stop.isRefusal])
  | refuse r' => exact ⟨r', rfl⟩

/-- The stops of a ready instruction are those of its operand. -/
theorem stops_eq_operandStops {m : Mode} {i : Instr} {s : State} (hm : s.cpuMode = .admitted m) (hready : Ready i s) :
    stops (formOf i) (operandsOf i) s = operandStops m (formOf i) (operandsOf i) s := by
  obtain ⟨hud, hts : s.ts = false⟩ := hready
  rw [← udCondition_eq_false_iff_noUd] at hud
  simp [stops, udStops, nmStops, hm, hud, hts]

theorem operandStops_mem {m : Mode} {i : Instr} {s : State} {x : Mem} (hrm : (operandsOf i).rm = .mem x) :
    operandStops m (formOf i) (operandsOf i) s = accessStops m (formOf i) (operandsOf i).ctl s (access m i s x)
      (byteLive (formOf i) (operandsOf i).ctl s) := by
  rw [operandStops, hrm]
  rfl

theorem mem_stops_of_access {m : Mode} {i : Instr} {s : State} {x : Mem} {y : Stop} (hm : s.cpuMode = .admitted m)
    (hrm : (operandsOf i).rm = .mem x) (h : y ∈ accessStops m (formOf i) (operandsOf i).ctl s (access m i s x)
      (byteLive (formOf i) (operandsOf i).ctl s)) : y ∈ stops (formOf i) (operandsOf i) s :=
  (mem_stops_iff ..).mpr (.inr (.inr ⟨m, hm, .inr (operandStops_mem hrm ▸ h)⟩))

/-! ### The stops of an access -/

/-- What stops an access, one by one (`60_exceptions.md` R155 to R158, `20_memory.md` R48, R51, R53). -/
theorem mem_accessStops_iff (m : Mode) (f : Form) (c : EvexCtl) (s : State) (a : Access) (live : Nat → Bool) (x : Stop) :
    x ∈ accessStops m f c s a live ↔
      (f.cls = .legacy ∧ (segBase m s a.seg).toNat % 16 ≠ 0 ∧ x = .refuse .segmentBaseAlignment) ∨
      (f.cls = .legacy ∧ (linearAddress m s a.seg a.ea).toNat % 16 ≠ 0 ∧ x = .fault .generalProtection) ∨
      (nonCanonical m s a = true ∧ x = .fault (limitFault a.seg)) ∨
      (s.cfg.suppression = false ∧ (∃ k, k < a.size ∧ live k = false ∧ byteInaccessible m s a k = true) ∧
        x = .refuse .suppressionNotAssumed) ∨
      ((∃ k, k < a.size ∧ live k = true) ∧ segmentDenied m s a = true ∧ x = .fault .generalProtection) ∨
      ((∃ k, k < a.size ∧ live k = true ∧ outsideLimit m s a k = true) ∧ x = .fault (limitFault a.seg)) ∨
      (c.b = true ∧ (∃ k, k < a.size ∧ live k = true) ∧ s.cfg.acBcst = true ∧ alignmentChecked s = true ∧
        (linearAddress m s a.seg a.ea).toNat % a.size ≠ 0 ∧ x = .fault .alignmentCheck) ∨
      ((∃ k, k < a.size ∧ live k = true ∧ s.kindAt (byteAddress m s a.seg a.ea k) = .device) ∧ x = .refuse .deviceRead) ∨
      ((∃ k, k < a.size ∧ live k = true ∧ s.kindAt (byteAddress m s a.seg a.ea k) = .pageTable) ∧
        x = .refuse .pageTableRead) ∨
      ∃ y, lowestPageFault m s a live = some y ∧ x = .fault y := by
  cases hpf : lowestPageFault m s a live <;>
    simp only [accessStops, hpf, List.mem_append, mem_stopIf, misaligned, Access.bytes, List.any_eq_true, List.mem_range,
      Bool.and_eq_true, Bool.not_eq_true', beq_iff_eq, bne_iff_ne, or_assoc, and_assoc, List.not_mem_nil,
      List.mem_singleton, reduceCtorEq, false_and, exists_false, Option.some.injEq, exists_eq_left']

theorem nonCanonical_iff (m : Mode) (s : State) (a : Access) :
    nonCanonical m s a = true ↔ m = .mode64 ∧
      ∃ k, k < a.size ∧ canonical s.cfg.linearBits (byteAddress m s a.seg a.ea k) = false := by
  simp [nonCanonical, Access.bytes]

theorem outsideLimit_iff (m : Mode) (s : State) (a : Access) (k : Nat) :
    outsideLimit m s a k = true ↔ m = .mode32 ∧ (s.seg a.seg).limit.toNat < a.ea.toNat + k := by
  simp [outsideLimit]

theorem segmentDenied_iff (m : Mode) (s : State) (a : Access) :
    segmentDenied m s a = true ↔ m = .mode32 ∧ ((s.seg a.seg).readable = false ∨ (s.seg a.seg).nullSelector = true ∨
      (s.seg a.seg).denied = true) := by
  simp [segmentDenied, or_assoc]

theorem alignmentChecked_iff (s : State) :
    alignmentChecked s = true ↔ s.cr0.getLsbD 18 = true ∧ s.rflags.getLsbD 18 = true ∧ s.cpl = 3 := by
  simp [alignmentChecked, State.am, State.ac, and_assoc]

/-! ### Broadcast accesses -/

theorem cls_of_broadcast {i : Instr} (hb : (operandsOf i).ctl.b = true) : (formOf i).cls = .evex := by
  cases i with
  | pmulld | vpmulldVex128 | vpmulldVex256 => cases hb
  | vpmulldEvex128 | vpmulldEvex256 | vpmulldEvex512 | vpmullqEvex128 | vpmullqEvex256 | vpmullqEvex512 => rfl

/-- A broadcast reads one element (`20_memory.md` R42, R52). -/
theorem size_of_broadcast {i : Instr} (hb : (operandsOf i).ctl.b = true) (m : Mode) (s : State) (x : Mem) :
    (access m i s x).size = elemBytes (formOf i).elem := by
  rw [access, accessOf, readSize, if_pos hb]

/-- Some byte of a broadcast is live exactly when some lane is active (`20_memory.md` R53). -/
theorem exists_live_of_broadcast {i : Instr} (hb : (operandsOf i).ctl.b = true) (m : Mode) (s : State) (x : Mem) :
    (∃ k, k < (access m i s x).size ∧ byteLive (formOf i) (operandsOf i).ctl s k = true) ↔
      ∃ j, j < laneCount (formOf i) ∧ activeLane s (operandsOf i).ctl j := by
  have hlive : ∀ k, byteLive (formOf i) (operandsOf i).ctl s k = true ↔
      ∃ j, j < laneCount (formOf i) ∧ activeLane s (operandsOf i).ctl j := fun k => by
    rw [byteLive, if_pos hb, someLaneActive_iff]
  obtain ⟨-, -, -, hpos, -⟩ := form_sizes (formOf i)
  simp only [hlive, size_of_broadcast hb]
  exact ⟨fun ⟨_, _, h⟩ => h, fun h => ⟨0, hpos, h⟩⟩

/-! ### Page faults -/

theorem pageDenied_iff (s : State) (la : W64) :
    pageDenied (s.cpl == 3) (s.kindAt la) = true ↔ PageFails s la := by
  unfold PageFails
  cases s.kindAt la <;> simp [pageDenied]

/-- Bit `n` of the error code of a data read, by cause: P, U/S, RSVD and PK (`60_exceptions.md` R157). -/
def errorCodeBit (user : Bool) (kind : RegionKind) (n : Nat) : Bool :=
  decide (n = 0 ∧ kind ≠ .notPresent) || decide (n = 2 ∧ user = true) || decide (n = 3 ∧ kind = .reservedBit) ||
    decide (n = 5 ∧ kind = .keyDenied)

theorem getLsbD_pageFaultCode {user : Bool} {kind : RegionKind} (h : pageDenied user kind = true) (n : Nat) :
    (pageFaultCode user kind).getLsbD n = errorCodeBit user kind n := by
  have hlow : ∀ i < 32, (pageFaultCode user kind).getLsbD i = errorCodeBit user kind i := by
    cases kind with
    | readable | device | pageTable => cases h
    | supervisor =>
      obtain rfl : user = true := h
      decide
    | notPresent | reservedBit | keyDenied => cases user <;> decide
  by_cases hn : n < 32
  · exact hlow n hn
  · rw [BitVec.getLsbD_of_ge _ n (not_lt.mp hn)]
    simp [errorCodeBit, show n ≠ 0 by omega, show n ≠ 2 by omega, show n ≠ 3 by omega, show n ≠ 5 by omega]

theorem pageFaultCode_spec {s : State} {la : W64} (h : PageFails s la) :
    PageFaultCode s la (pageFaultCode (s.cpl == 3) (s.kindAt la)) := by
  intro n
  rw [getLsbD_pageFaultCode ((pageDenied_iff s la).mpr h)]
  simp [errorCodeBit]

/-- A byte faults in paging exactly when paging is on and its translation fails (`60_exceptions.md` R157). -/
theorem pageFaultAt_eq_some_iff (s : State) (la : W64) (x : Fault) :
    pageFaultAt s la = some x ↔ (s.cr0.getLsbD 31 = true ∧ PageFails s la) ∧
      x = .pageFault (pageFaultCode (s.cpl == 3) (s.kindAt la)) la := by
  have hcond : (s.pg && pageDenied (s.cpl == 3) (s.kindAt la)) = true ↔ s.cr0.getLsbD 31 = true ∧ PageFails s la := by
    rw [Bool.and_eq_true, pageDenied_iff]
    rfl
  rw [← hcond, pageFaultAt]
  split
  · rename_i h
    rw [and_iff_right h, Option.some.injEq, eq_comm]
  · rename_i h
    simp only [h, false_and, reduceCtorEq]

theorem pageFaultAt_eq_none_iff (s : State) (la : W64) :
    pageFaultAt s la = none ↔ ¬ (s.cr0.getLsbD 31 = true ∧ PageFails s la) := by
  rw [← not_iff_not, not_not, ← Ne, Option.ne_none_iff_exists']
  simp only [pageFaultAt_eq_some_iff, exists_eq_right]

/-! ### The U6 refusal -/

/-- A legacy operand through a segment base that is no multiple of 16 is refused where nothing stands before it, under
either order (`20_memory.md` R48, U6). -/
theorem exec_segmentBaseAlignment {m : Mode} {i : Instr} {s : State} {x : Mem} (hm : s.cpuMode = .admitted m)
    (hready : Ready i s) (hrm : (operandsOf i).rm = .mem x) (hcls : (formOf i).cls = .legacy)
    (hbase : (segBase m s (access m i s x).seg).toNat % 16 ≠ 0) : exec i s = .refused .segmentBaseAlignment := by
  have hcond : ((formOf i).cls == .legacy && (segBase m s (access m i s x).seg).toNat % 16 != 0) = true := by
    simp [hcls, hbase]
  rw [exec_eq_run]
  refine run_of_stop _ _ _ (.refuse .segmentBaseAlignment) ?_
  rw [stops_eq_operandStops hm hready, operandStops_mem hrm, accessStops]
  simp only [hcond, stopIf_true, List.cons_append, List.nil_append]
  exact chooseStop_refuse_first _ _ _ _

/-- So a fault of such an operand is #UD or #NM: under the fixed order they alone stand before the refusal, and under the
other a refusal excludes every fault (log 6). -/
theorem fault_of_segBase_misaligned {m : Mode} {i : Instr} {s : State} {x : Mem} {y : Fault} (hm : s.cpuMode = .admitted m)
    (hrm : (operandsOf i).rm = .mem x) (hcls : (formOf i).cls = .legacy)
    (hbase : (segBase m s (access m i s x).seg).toNat % 16 ≠ 0) (h : exec i s = .fault y) :
    y = .invalidOpcode ∨ y = .deviceNotAvailable := by
  cases horder : s.cfg.faultOrder with
  | any =>
    have hmem : Stop.refuse .segmentBaseAlignment ∈ stops (formOf i) (operandsOf i) s :=
      mem_stops_of_access hm hrm ((mem_accessStops_iff ..).mpr (.inl ⟨hcls, hbase, rfl⟩))
    obtain ⟨r, hr⟩ := exec_refused_of_any horder hmem
    rw [hr] at h
    cases h
  | fixed =>
    by_cases hud : NoUd i s
    · cases hts : s.ts with
      | false =>
        rw [exec_segmentBaseAlignment hm ⟨hud, hts⟩ hrm hcls hbase] at h
        cases h
      | true =>
        rw [exec_of_noUd_of_ts horder hm hts hud] at h
        exact .inr (by cases h; rfl)
    · rw [exec_of_not_noUd horder hud] at h
      exact .inl (by cases h; rfl)

end Sys2Proof.Proofs
end

section
/-! SUPPORT. The rules of faults, from their conditions: the causes of every fault under either order, #UD by feature and
control state, the faults that stand first under the fixed order, and what never completes (`60_exceptions.md` R151 to
R163, `20_memory.md` R47 to R53). -/

namespace Sys2Proof.Proofs

open Sys2Proof.Machine Sys2Proof.Claims

/-! ### The causes of a fault -/

/-- What `60_exceptions.md` R155 to R158 say of a fault `x` of the memory operand `y`. -/
def AccessFault (m : Mode) (i : Instr) (s : State) (y : Mem) (x : Fault) : Prop :=
  (x = .generalProtection ∧ (formOf i).cls = .legacy ∧ (segBase m s (access m i s y).seg).toNat % 16 = 0 ∧
    (linearAddress m s (access m i s y).seg (access m i s y).ea).toNat % 16 ≠ 0) ∨
  (x = (if (access m i s y).seg = .ss then .stackSegment else .generalProtection) ∧ m = .mode64 ∧
    ∃ k, k < (access m i s y).size ∧
      canonical s.cfg.linearBits (byteAddress m s (access m i s y).seg (access m i s y).ea k) = false) ∨
  (x = (if (access m i s y).seg = .ss then .stackSegment else .generalProtection) ∧ m = .mode32 ∧
    ∃ k, k < (access m i s y).size ∧ byteLive (formOf i) (operandsOf i).ctl s k = true ∧
      (s.seg (access m i s y).seg).limit.toNat < (access m i s y).ea.toNat + k) ∨
  (x = .generalProtection ∧ m = .mode32 ∧
    ((s.seg (access m i s y).seg).readable = false ∨ (s.seg (access m i s y).seg).nullSelector = true ∨
      (s.seg (access m i s y).seg).denied = true) ∧
    ∃ k, k < (access m i s y).size ∧ byteLive (formOf i) (operandsOf i).ctl s k = true) ∨
  (x = .alignmentCheck ∧ (formOf i).cls = .evex ∧ (operandsOf i).ctl.b = true ∧
    (∃ j, j < laneCount (formOf i) ∧ activeLane s (operandsOf i).ctl j) ∧ s.cfg.acBcst = true ∧
    s.cr0.getLsbD 18 = true ∧ s.rflags.getLsbD 18 = true ∧ s.cpl = 3 ∧
    (linearAddress m s (access m i s y).seg (access m i s y).ea).toNat % elemBytes (formOf i).elem ≠ 0) ∨
  (s.cr0.getLsbD 31 = true ∧ ∃ k code la, k < (access m i s y).size ∧
    byteLive (formOf i) (operandsOf i).ctl s k = true ∧
    la = byteAddress m s (access m i s y).seg (access m i s y).ea k ∧ x = .pageFault code la ∧
    PageFails s la ∧ PageFaultCode s la code ∧
    ∀ n, n < (access m i s y).size → byteLive (formOf i) (operandsOf i).ctl s n = true →
      (byteAddress m s (access m i s y).seg (access m i s y).ea n).toNat < la.toNat →
      ¬ PageFails s (byteAddress m s (access m i s y).seg (access m i s y).ea n))

/-- #UD and #NM are no faults of an access (`60_exceptions.md` R163). -/
theorem ne_of_mem_accessStops {m : Mode} {f : Form} {c : EvexCtl} {s : State} {a : Access} {live : Nat → Bool} {x : Fault}
    (h : Stop.fault x ∈ accessStops m f c s a live) : ¬ (x = .invalidOpcode ∨ x = .deviceNotAvailable) := by
  have hlimit : ¬ (limitFault a.seg = .invalidOpcode ∨ limitFault a.seg = .deviceNotAvailable) := by
    unfold limitFault
    split <;> simp
  rw [mem_accessStops_iff] at h
  simp only [reduceCtorEq, and_false, false_or, Stop.fault.injEq] at h
  obtain ⟨-, -, rfl⟩ | ⟨-, rfl⟩ | ⟨-, -, rfl⟩ | ⟨-, rfl⟩ | ⟨-, -, -, -, -, rfl⟩ | ⟨z, hpf, rfl⟩ := h
  case inr.inl | inr.inr.inr.inl => exact hlimit
  case inr.inr.inr.inr.inr =>
    obtain ⟨k, -, -, hat, -⟩ := lowestPageFault_eq_some _ _ _ _ _ hpf
    obtain ⟨-, rfl⟩ := (pageFaultAt_eq_some_iff ..).mp hat
    simp
  all_goals simp

/-- A fault among the stops of an access has its cause; for the legacy misalignment that is an aligned segment base, which
the U6 refusal leaves. -/
theorem accessFault_of_mem {m : Mode} {i : Instr} {s : State} {y : Mem} {x : Fault}
    (hbase : (formOf i).cls = .legacy → (segBase m s (access m i s y).seg).toNat % 16 = 0)
    (h : Stop.fault x ∈ accessStops m (formOf i) (operandsOf i).ctl s (access m i s y)
      (byteLive (formOf i) (operandsOf i).ctl s)) : AccessFault m i s y x := by
  rw [mem_accessStops_iff] at h
  simp only [reduceCtorEq, and_false, false_or, Stop.fault.injEq] at h
  obtain ⟨hcls, hmis, rfl⟩ | ⟨hcan, rfl⟩ | ⟨hlive, hden, rfl⟩ | ⟨⟨k, hk, hl, hlim⟩, rfl⟩ |
    ⟨hb, hlive, hbcst, hcheck, hmis, rfl⟩ | ⟨z, hpf, rfl⟩ := h
  · exact .inl ⟨rfl, hcls, hbase hcls, hmis⟩
  · obtain ⟨hm, hcan⟩ := (nonCanonical_iff ..).mp hcan
    exact .inr (.inl ⟨rfl, hm, hcan⟩)
  · obtain ⟨hm, hden⟩ := (segmentDenied_iff ..).mp hden
    exact .inr (.inr (.inr (.inl ⟨rfl, hm, hden, hlive⟩)))
  · obtain ⟨hm, hlim⟩ := (outsideLimit_iff ..).mp hlim
    exact .inr (.inr (.inl ⟨rfl, hm, k, hk, hl, hlim⟩))
  · obtain ⟨ham, hac, hcpl⟩ := (alignmentChecked_iff s).mp hcheck
    rw [exists_live_of_broadcast hb] at hlive
    rw [size_of_broadcast hb] at hmis
    exact .inr (.inr (.inr (.inr (.inl ⟨rfl, cls_of_broadcast hb, hb, hlive, hbcst, ham, hac, hcpl, hmis⟩))))
  · obtain ⟨k, hk, hl, hat, hlow⟩ := lowestPageFault_eq_some _ _ _ _ _ hpf
    obtain ⟨⟨hpg, hfails⟩, rfl⟩ := (pageFaultAt_eq_some_iff ..).mp hat
    refine .inr (.inr (.inr (.inr (.inr ⟨hpg, k, _, _, hk, hl, rfl, rfl, hfails, pageFaultCode_spec hfails,
      fun n hn hln hlt hno => ?_⟩))))
    exact (pageFaultAt_eq_none_iff ..).mp (hlow n hn hln hlt) ⟨hpg, hno⟩

/-- A fault is #UD, #NM or one of the stops of the memory access. -/
theorem fault_cases {i : Instr} {s : State} {x : Fault} (h : exec i s = .fault x) :
    (x = .invalidOpcode ∧ ¬ NoUd i s) ∨
    (x = .deviceNotAvailable ∧ s.cr0.getLsbD 3 = true ∧ NoUd i s ∧ ∃ m, s.cpuMode = .admitted m) ∨
    ∃ m y, s.cpuMode = .admitted m ∧ (operandsOf i).rm = .mem y ∧
      Stop.fault x ∈ accessStops m (formOf i) (operandsOf i).ctl s (access m i s y)
        (byteLive (formOf i) (operandsOf i).ctl s) := by
  have hmem := fault_mem_stops h
  rw [mem_stops_iff] at hmem
  obtain ⟨hud, hx⟩ | ⟨why, -, hx⟩ | ⟨m, hm, ⟨hts, hud, hx⟩ | hop⟩ := hmem
  · refine .inl ⟨Stop.fault.inj hx, fun hno => ?_⟩
    rw [(udCondition_eq_false_iff_noUd i s).mpr hno] at hud
    cases hud
  · cases hx
  · exact .inr (.inl ⟨Stop.fault.inj hx, hts, (udCondition_eq_false_iff_noUd i s).mp hud, m, hm⟩)
  · cases hrm : (operandsOf i).rm with
    | reg r =>
      rw [operandStops, hrm] at hop
      cases hop
    | mem y =>
      rw [operandStops_mem hrm] at hop
      exact .inr (.inr ⟨m, y, hm, rfl, hop⟩)

/-- Settles O56: a fault of the access has its cause, and that of a misaligned legacy operand an aligned segment base. -/
theorem faultsHaveCauses : Obligations.FaultsHaveCauses := by
  intro i s x h
  obtain hud | hnm | ⟨m, y, hm, hrm, hmem⟩ := fault_cases h
  · exact .inl hud
  · exact .inr (.inl hnm)
  · refine .inr (.inr ⟨m, y, hm, hrm, accessFault_of_mem (fun hcls => ?_) hmem⟩)
    by_contra hbase
    exact ne_of_mem_accessStops hmem (fault_of_segBase_misaligned hm hrm hcls hbase h)

/-! ### #UD by feature and control state -/

/-- An instruction raises #UD only where one of its conditions holds. -/
theorem exec_ne_ud {i : Instr} {s : State} (hno : NoUd i s) : exec i s ≠ .fault .invalidOpcode := by
  intro h
  obtain ⟨-, hud⟩ | ⟨hx, -⟩ | ⟨m, y, -, -, hmem⟩ := fault_cases h
  · exact hud hno
  · cases hx
  · exact ne_of_mem_accessStops hmem (.inl rfl)

theorem xcrAvx_eq_true_iff (s : State) : s.xcrAvx = true ↔ s.xcr0.extractLsb' 1 2 = 3#2 := beq_iff_eq

theorem xcrAvx512_eq_true_iff (s : State) : s.xcrAvx512 = true ↔ s.xcr0.extractLsb' 5 3 = 7#3 := beq_iff_eq

/-- The VEX class is on when CR4.OSXSAVE and XCR0[2:1] say so (`60_exceptions.md` R152). -/
theorem classOn_vex_iff (s : State) :
    ClassOn .vex s ↔ s.cr4.getLsbD 18 = true ∧ s.xcr0.extractLsb' 1 2 = 3#2 := by
  rw [← xcrAvx_eq_true_iff, xcrAvx_iff]
  rfl

/-- The EVEX class asks for XCR0[7:5] as well (`60_exceptions.md` R153). -/
theorem classOn_evex_iff (s : State) :
    ClassOn .evex s ↔ s.cr4.getLsbD 18 = true ∧ s.xcr0.extractLsb' 1 2 = 3#2 ∧ s.xcr0.extractLsb' 5 3 = 7#3 := by
  rw [← xcrAvx_eq_true_iff, ← xcrAvx512_eq_true_iff, xcrAvx_iff, xcrAvx512_iff, and_assoc]
  rfl

/-- The VEX instructions have no reserved controls: their #UD conditions are the class and one feature flag. -/
theorem noUd_vex_iff (p : Pfx) (d a : VReg) (r : RM) (s : State) :
    (NoUd (.vpmulldVex128 p d a r) s ↔
      s.cr4.getLsbD 18 = true ∧ s.xcr0.extractLsb' 1 2 = 3#2 ∧ s.cfg.feat.avx = true) ∧
    (NoUd (.vpmulldVex256 p d a r) s ↔
      s.cr4.getLsbD 18 = true ∧ s.xcr0.extractLsb' 1 2 = 3#2 ∧ s.cfg.feat.avx2 = true) := by
  have hctl : ¬ ReservedCtl noCtl r := by simp [ReservedCtl, noCtl]
  have h : ∀ feat : Prop, (feat ∧ ClassOn .vex s ∧ ¬ ReservedCtl noCtl r) ↔
      s.cr4.getLsbD 18 = true ∧ s.xcr0.extractLsb' 1 2 = 3#2 ∧ feat := fun feat => by
    rw [classOn_vex_iff, and_comm, and_iff_left hctl, and_assoc]
  exact ⟨h _, h _⟩

/-- Settles O48. -/
theorem vexUd : Obligations.VexUd := by
  intro p d a r s hfixed
  obtain ⟨h128, h256⟩ := noUd_vex_iff p d a r s
  refine ⟨fun hud => exec_of_not_noUd hfixed ?_, fun hud => exec_of_not_noUd hfixed ?_,
    fun m _ hosxsave hxcr => ⟨fun hfeat => exec_ne_ud (h128.mpr ⟨hosxsave, hxcr, hfeat⟩),
      fun hfeat => exec_ne_ud (h256.mpr ⟨hosxsave, hxcr, hfeat⟩)⟩⟩
  · rw [h128, not_and_or, not_and_or, Bool.not_eq_true, Bool.not_eq_true]
    exact hud
  · rw [h256, not_and_or, not_and_or, Bool.not_eq_true, Bool.not_eq_true]
    exact hud

/-- The #UD conditions of every EVEX instruction: control state, reserved controls, feature flags (`60_exceptions.md`
R153). -/
theorem exec_evex_ud {mk : EvexCtor} {e : Elem} {v : VLen} (hmk : ConstructsEvex mk e v) {p : Pfx} {c : EvexCtl}
    {d a : VReg} {r : RM} {s : State} (hfixed : s.cfg.faultOrder = .fixed)
    (h : s.cr4.getLsbD 18 = false ∨ s.xcr0.extractLsb' 1 2 ≠ 3#2 ∨ s.xcr0.extractLsb' 5 3 ≠ 7#3 ∨ ReservedCtl c r ∨
      ¬ FeatureOn ⟨.evex, e, v⟩ s.cfg.feat) : exec (mk p c d a r) s = .fault .invalidOpcode := by
  obtain ⟨hform, hops⟩ := hmk p c d a r
  refine exec_of_not_noUd hfixed ?_
  rw [NoUd, hform, hops, classOn_evex_iff]
  rintro ⟨hfeat, ⟨hosxsave, hxcr, hxcr512⟩, hctl⟩
  obtain h | h | h | h | h := h
  · rw [hosxsave] at h
    cases h
  · exact h hxcr
  · exact h hxcr512
  · exact hctl h
  · exact h hfeat

/-- Settles O49: the feature flags of each group are among the #UD conditions. -/
theorem evexUd : Obligations.EvexUd := by
  intro p c d a r s hfixed
  obtain ⟨hd128, hd256, hd512, hq128, hq256, hq512⟩ := constructsEvex
  have hdword : s.cfg.feat.avx512f = false → ∀ v, ¬ FeatureOn ⟨.evex, .dword, v⟩ s.cfg.feat := fun h v hf => by
    simp [FeatureOn, h] at hf
  have hqword : s.cfg.feat.avx512dq = false → ∀ v, ¬ FeatureOn ⟨.evex, .qword, v⟩ s.cfg.feat := fun h v hf => by
    simp [FeatureOn, h] at hf
  have hshort : s.cfg.feat.avx512vl = false → ∀ e v, v ≠ .v512 → ¬ FeatureOn ⟨.evex, e, v⟩ s.cfg.feat :=
    fun h e v hv hf => by cases e <;> simp [FeatureOn, h, hv] at hf
  refine ⟨fun h => ?_, fun h => ?_, fun h => ?_⟩
  · have hud := fun v => Or.imp_right (Or.imp_right (Or.imp_right (Or.imp_right fun hf => hdword hf v))) h
    exact ⟨exec_evex_ud hd512 hfixed (hud _), exec_evex_ud hd256 hfixed (hud _), exec_evex_ud hd128 hfixed (hud _)⟩
  · have hud := fun v => Or.imp_right (Or.imp_right (Or.imp_right (Or.imp_right fun hf => hqword hf v))) h
    exact ⟨exec_evex_ud hq512 hfixed (hud _), exec_evex_ud hq256 hfixed (hud _), exec_evex_ud hq128 hfixed (hud _)⟩
  · have h256 : VLen.v256 ≠ .v512 := by decide
    have h128 : VLen.v128 ≠ .v512 := by decide
    exact ⟨exec_evex_ud hd256 hfixed (.inr (.inr (.inr (.inr (hshort h _ _ h256))))),
      exec_evex_ud hd128 hfixed (.inr (.inr (.inr (.inr (hshort h _ _ h128))))),
      exec_evex_ud hq256 hfixed (.inr (.inr (.inr (.inr (hshort h _ _ h256))))),
      exec_evex_ud hq128 hfixed (.inr (.inr (.inr (.inr (hshort h _ _ h128)))))⟩

end Sys2Proof.Proofs
end

section
/-! SUPPORT. The fault that stands first among those of a memory access, under the fixed order of `60_exceptions.md` R163
(R155 to R158, `20_memory.md` R47, R48, R53). -/

namespace Sys2Proof.Proofs

open Sys2Proof.Machine Sys2Proof.Claims

/-! ### Conditions that stop nothing -/

theorem any_bytes_eq_true_iff (a : Access) (p : Nat → Bool) : a.bytes.any p = true ↔ ∃ k, k < a.size ∧ p k = true := by
  simp [Access.bytes]

theorem any_bytes_eq_false_iff (a : Access) (p : Nat → Bool) : a.bytes.any p = false ↔ ∀ k, k < a.size → p k = false := by
  simp [Access.bytes]

section off

variable {m : Mode} {i : Instr} {s : State} {a : Access}

/-- A legacy operand that is aligned, through an aligned segment base. -/
theorem legacyStops_off {f : Form} (h : f.cls = .legacy → LegacyAligned m s a) :
    (f.cls == .legacy && (segBase m s a.seg).toNat % 16 != 0) = false ∧
      (f.cls == .legacy && misaligned m s a 16) = false := by
  by_cases hcls : f.cls = .legacy
  · obtain ⟨hbase, haddr⟩ := h hcls
    simp [misaligned, hbase, haddr]
  · simp [hcls]

theorem suppressionStop_off (h : SuppressionSettled m i s a) :
    (!s.cfg.suppression && a.bytes.any fun k => !byteLive (formOf i) (operandsOf i).ctl s k && byteInaccessible m s a k) =
      false := by
  obtain hsupp | hall := h
  · simp [hsupp]
  · rw [Bool.and_eq_false_iff, any_bytes_eq_false_iff]
    refine .inr fun k hk => ?_
    cases hl : byteLive (formOf i) (operandsOf i).ctl s k with
    | false => simpa using hall k hk hl
    | true => rfl

theorem nonCanonical_mode32 : nonCanonical .mode32 s a = false := rfl

/-- Past segmentation there is no live byte that the segment denies. -/
theorem segmentStops_off {live : Nat → Bool} (hden : segmentDenied m s a = false)
    (hlim : ∀ k, k < a.size → live k = true → outsideLimit m s a k = false) :
    (a.bytes.any live && segmentDenied m s a) = false ∧ (a.bytes.any fun k => live k && outsideLimit m s a k) = false := by
  refine ⟨by rw [hden, Bool.and_false], (any_bytes_eq_false_iff a _).mpr fun k hk => ?_⟩
  cases hl : live k with
  | false => rfl
  | true => simpa using hlim k hk hl

theorem alignmentStop_off {c : EvexCtl} (someLive : Bool) (h : c.b = true → BroadcastAligned m s a) :
    (c.b && someLive && s.cfg.acBcst && alignmentChecked s && misaligned m s a a.size) = false := by
  cases hb : c.b with
  | false => simp
  | true =>
    obtain hbcst | hcheck | halign := h hb
    · simp [hbcst]
    · simp [hcheck]
    · simp [misaligned, halign]

/-- No live byte lies in memory of a kind. -/
theorem kindStop_off {live : Nat → Bool} {kind : RegionKind}
    (h : ∀ k, k < a.size → live k = true → s.kindAt (byteAddress m s a.seg a.ea k) ≠ kind) :
    (a.bytes.any fun k => live k && s.kindAt (byteAddress m s a.seg a.ea k) == kind) = false := by
  refine (any_bytes_eq_false_iff a _).mpr fun k hk => ?_
  cases hl : live k with
  | false => rfl
  | true => simpa using h k hk hl

end off

/-! ### The first stop -/

section first

variable {m : Mode} {i : Instr} {s : State} {x : Mem}

/-- Under the fixed order the outcome of a ready instruction is the first stop of its access. -/
theorem exec_of_head_access {y : Stop} (hfixed : s.cfg.faultOrder = .fixed) (hm : s.cpuMode = .admitted m)
    (hrm : (operandsOf i).rm = .mem x) (hready : Ready i s)
    (h : (accessStops m (formOf i) (operandsOf i).ctl s (access m i s x)
      (byteLive (formOf i) (operandsOf i).ctl s)).head? = some y) : exec i s = y.outcome := by
  rw [exec_eq_run]
  refine run_of_stop _ _ _ _ ?_
  rw [hfixed, chooseStop_fixed, stops_eq_operandStops hm hready, operandStops_mem hrm, h]

/-- Legacy misalignment stands first, once the segment base is aligned (`60_exceptions.md` R163, step 3a). -/
theorem exec_legacy_misaligned (hfixed : s.cfg.faultOrder = .fixed) (hm : s.cpuMode = .admitted m)
    (hrm : (operandsOf i).rm = .mem x) (hready : Ready i s) (hcls : (formOf i).cls = .legacy)
    (hbase : (segBase m s (access m i s x).seg).toNat % 16 = 0)
    (hmis : (linearAddress m s (access m i s x).seg (access m i s x).ea).toNat % 16 ≠ 0) :
    exec i s = .fault .generalProtection := by
  have hbase' : ((formOf i).cls == .legacy && (segBase m s (access m i s x).seg).toNat % 16 != 0) = false := by
    simp [hbase]
  have hmis' : ((formOf i).cls == .legacy && misaligned m s (access m i s x) 16) = true := by
    simp [misaligned, hcls, hmis]
  refine exec_of_head_access (y := .fault .generalProtection) hfixed hm hrm hready ?_
  simp only [accessStops, hbase', hmis', stopIf_false, stopIf_true, List.nil_append, List.cons_append, List.head?_cons]

/-- An address through an aligned segment base is as misaligned as the effective address: the sum is taken modulo a
multiple of 16. -/
theorem linearAddress_mod16 {g : Seg} {ea : W64} (hbase : (segBase m s g).toNat % 16 = 0) :
    (linearAddress m s g ea).toNat % 16 = ea.toNat % 16 := by
  cases m with
  | mode64 =>
    rw [toNat_linearAddress_mode64]
    omega
  | mode32 =>
    rw [toNat_linearAddress_mode32]
    have hbase' : (s.seg g).base.toNat % 16 = 0 := hbase
    omega

theorem exec_nonCanonical (hfixed : s.cfg.faultOrder = .fixed) (hm : s.cpuMode = .admitted m)
    (hrm : (operandsOf i).rm = .mem x) (hready : Ready i s)
    (hleg : (formOf i).cls = .legacy → LegacyAligned m s (access m i s x))
    (hcan : nonCanonical m s (access m i s x) = true) : exec i s = .fault (limitFault (access m i s x).seg) := by
  obtain ⟨hbase, hmis⟩ := legacyStops_off hleg
  refine exec_of_head_access (y := .fault (limitFault _)) hfixed hm hrm hready ?_
  simp only [accessStops, hbase, hmis, hcan, stopIf_false, stopIf_true, List.nil_append, List.cons_append, List.head?_cons]

/-- A denied segment stands before the limit (log 17). -/
theorem exec_segmentDenied (hfixed : s.cfg.faultOrder = .fixed) (hm : s.cpuMode = .admitted m)
    (hrm : (operandsOf i).rm = .mem x) (hready : Ready i s)
    (hleg : (formOf i).cls = .legacy → LegacyAligned m s (access m i s x))
    (hcan : nonCanonical m s (access m i s x) = false) (hsupp : SuppressionSettled m i s (access m i s x))
    (hlive : ∃ k, k < (access m i s x).size ∧ byteLive (formOf i) (operandsOf i).ctl s k = true)
    (hden : segmentDenied m s (access m i s x) = true) : exec i s = .fault .generalProtection := by
  obtain ⟨hbase, hmis⟩ := legacyStops_off hleg
  have hsupp' := suppressionStop_off hsupp
  have hany := (any_bytes_eq_true_iff _ _).mpr hlive
  refine exec_of_head_access (y := .fault .generalProtection) hfixed hm hrm hready ?_
  simp only [accessStops, hbase, hmis, hcan, hsupp', hany, hden, Bool.and_self, stopIf_false, stopIf_true, List.nil_append,
    List.cons_append, List.head?_cons]

theorem exec_outsideLimit (hfixed : s.cfg.faultOrder = .fixed) (hm : s.cpuMode = .admitted m)
    (hrm : (operandsOf i).rm = .mem x) (hready : Ready i s)
    (hleg : (formOf i).cls = .legacy → LegacyAligned m s (access m i s x))
    (hcan : nonCanonical m s (access m i s x) = false) (hsupp : SuppressionSettled m i s (access m i s x))
    (hden : segmentDenied m s (access m i s x) = false)
    (hlim : ∃ k, k < (access m i s x).size ∧ byteLive (formOf i) (operandsOf i).ctl s k = true ∧
      outsideLimit m s (access m i s x) k = true) : exec i s = .fault (limitFault (access m i s x).seg) := by
  obtain ⟨hbase, hmis⟩ := legacyStops_off hleg
  have hsupp' := suppressionStop_off hsupp
  have hany : ((access m i s x).bytes.any fun k => byteLive (formOf i) (operandsOf i).ctl s k &&
      outsideLimit m s (access m i s x) k) = true := by
    simpa only [any_bytes_eq_true_iff, Bool.and_eq_true] using hlim
  refine exec_of_head_access (y := .fault (limitFault _)) hfixed hm hrm hready ?_
  simp only [accessStops, hbase, hmis, hcan, hsupp', hden, hany, Bool.and_false, stopIf_false, stopIf_true, List.nil_append,
    List.cons_append, List.head?_cons]

/-- #AC stands first past segmentation (`60_exceptions.md` R163, step 3c). -/
theorem exec_alignmentCheck (hfixed : s.cfg.faultOrder = .fixed) (hm : s.cpuMode = .admitted m)
    (hrm : (operandsOf i).rm = .mem x) (hready : Ready i s) (hpast : PastSegmentation m i s (access m i s x))
    (hb : (operandsOf i).ctl.b = true)
    (hlive : ∃ k, k < (access m i s x).size ∧ byteLive (formOf i) (operandsOf i).ctl s k = true)
    (hbcst : s.cfg.acBcst = true) (hcheck : alignmentChecked s = true)
    (halign : misaligned m s (access m i s x) (access m i s x).size = true) : exec i s = .fault .alignmentCheck := by
  obtain ⟨hleg, hcan, hden, hlim, hsupp⟩ := hpast
  obtain ⟨hbase, hmis⟩ := legacyStops_off hleg
  obtain ⟨-, hlim'⟩ := segmentStops_off hden hlim
  have hsupp' := suppressionStop_off hsupp
  have hany := (any_bytes_eq_true_iff _ _).mpr hlive
  refine exec_of_head_access (y := .fault .alignmentCheck) hfixed hm hrm hready ?_
  simp only [accessStops, hbase, hmis, hcan, hsupp', hden, hlim', hb, hany, hbcst, hcheck, halign, Bool.and_self,
    Bool.and_false, stopIf_false, stopIf_true, List.nil_append, List.cons_append, List.head?_cons]

/-- #PF is what is left (`60_exceptions.md` R163, step 3d). -/
theorem exec_pageFault {y : Fault} (hfixed : s.cfg.faultOrder = .fixed) (hm : s.cpuMode = .admitted m)
    (hrm : (operandsOf i).rm = .mem x) (hready : Ready i s) (hpast : PastSegmentation m i s (access m i s x))
    (halign : (operandsOf i).ctl.b = true → BroadcastAligned m s (access m i s x))
    (hkinds : ∀ n, n < (access m i s x).size → byteLive (formOf i) (operandsOf i).ctl s n = true →
      s.kindAt (byteAddress m s (access m i s x).seg (access m i s x).ea n) ≠ .device ∧
      s.kindAt (byteAddress m s (access m i s x).seg (access m i s x).ea n) ≠ .pageTable)
    (hpf : lowestPageFault m s (access m i s x) (byteLive (formOf i) (operandsOf i).ctl s) = some y) :
    exec i s = .fault y := by
  obtain ⟨hleg, hcan, hden, hlim, hsupp⟩ := hpast
  obtain ⟨hbase, hmis⟩ := legacyStops_off hleg
  obtain ⟨hden', hlim'⟩ := segmentStops_off hden hlim
  have hsupp' := suppressionStop_off hsupp
  have halign' := alignmentStop_off ((access m i s x).bytes.any (byteLive (formOf i) (operandsOf i).ctl s)) halign
  have hdevice := kindStop_off fun k hk hl => (hkinds k hk hl).1
  have htable := kindStop_off fun k hk hl => (hkinds k hk hl).2
  refine exec_of_head_access (y := .fault y) hfixed hm hrm hready ?_
  simp only [accessStops, hbase, hmis, hcan, hsupp', hden', hlim', halign', hdevice, htable, hpf, stopIf_false,
    List.nil_append, List.head?_cons]

end first

/-- The page fault reported is that of the lowest-addressed live byte whose translation fails (`20_memory.md` R47, R53). -/
theorem lowestPageFault_of_lowest {m : Mode} {s : State} {a : Access} {live : Nat → Bool} {k : Nat} {la : W64}
    (hpg : s.cr0.getLsbD 31 = true) (hk : k < a.size) (hlive : live k = true) (hla : la = byteAddress m s a.seg a.ea k)
    (hfails : PageFails s la) (hlow : ∀ n, n < a.size → live n = true →
      (byteAddress m s a.seg a.ea n).toNat < la.toNat → ¬ PageFails s (byteAddress m s a.seg a.ea n)) :
    lowestPageFault m s a live = some (.pageFault (pageFaultCode (s.cpl == 3) (s.kindAt la)) la) := by
  subst hla
  have hat := (pageFaultAt_eq_some_iff ..).mpr ⟨⟨hpg, hfails⟩, rfl⟩
  cases hpf : lowestPageFault m s a live with
  | none =>
    rw [(lowestPageFault_eq_none ..).mp hpf k hk hlive] at hat
    cases hat
  | some y =>
    obtain ⟨n, hn, hln, hy, hlowest⟩ := lowestPageFault_eq_some _ _ _ _ _ hpf
    obtain ⟨⟨-, hfails'⟩, rfl⟩ := (pageFaultAt_eq_some_iff ..).mp hy
    have hge : ¬ (byteAddress m s a.seg a.ea k).toNat < (byteAddress m s a.seg a.ea n).toNat := fun hlt => by
      rw [hlowest k hk hlive hlt] at hat
      cases hat
    have hle : ¬ (byteAddress m s a.seg a.ea n).toNat < (byteAddress m s a.seg a.ea k).toNat :=
      fun hlt => hlow n hn hln hlt hfails'
    have heq : byteAddress m s a.seg a.ea n = byteAddress m s a.seg a.ea k := BitVec.eq_of_toNat_eq (by omega)
    rw [heq]

/-! ### The rules -/

/-- Settles O51. -/
theorem legacyMisaligned : Obligations.LegacyMisaligned := by
  intro m p rex d x s hm hready
  refine ⟨fun hfixed hbase hea => exec_legacy_misaligned hfixed hm rfl hready rfl hbase ?_,
    fun hbase => exec_segmentBaseAlignment hm hready rfl rfl hbase⟩
  rw [linearAddress_mod16 hbase]
  exact hea

/-- Settles O52. -/
theorem nonCanonicalFault : Obligations.NonCanonicalFault := by
  intro i s x k hfixed hm hrm hready hleg hk hcan
  exact exec_nonCanonical hfixed hm hrm hready hleg ((nonCanonical_iff ..).mpr ⟨rfl, k, hk, hcan⟩)

/-- Settles O53. -/
theorem segmentFaultMode32 : Obligations.SegmentFaultMode32 := by
  intro i s x k hfixed hm hrm hready hleg hsupp hk hlive
  refine ⟨fun hden => ?_, fun hread hnull hdenied hlim => ?_⟩
  · exact exec_segmentDenied hfixed hm hrm hready hleg nonCanonical_mode32 hsupp ⟨k, hk, hlive⟩
      ((segmentDenied_iff ..).mpr ⟨rfl, hden⟩)
  · have hden : segmentDenied .mode32 s (access .mode32 i s x) = false := by
      simp [segmentDenied, hread, hnull, hdenied]
    exact exec_outsideLimit hfixed hm hrm hready hleg nonCanonical_mode32 hsupp hden
      ⟨k, hk, hlive, (outsideLimit_iff ..).mpr ⟨rfl, hlim⟩⟩

/-- Settles O54: #AC first past segmentation, and its cause among the causes of faults. -/
theorem alignmentCheckRule : Obligations.AlignmentCheckRule := by
  refine ⟨fun m i s x hfixed hm hrm hready hb hpast hact hbcst ham hac hcpl hmis => ?_, fun i s h => ?_⟩
  · have hcheck := (alignmentChecked_iff s).mpr ⟨ham, hac, hcpl⟩
    have hmis' : misaligned m s (access m i s x) (access m i s x).size = true := by
      simpa [misaligned, size_of_broadcast hb] using hmis
    exact exec_alignmentCheck hfixed hm hrm hready hpast hb ((exists_live_of_broadcast hb m s x).mpr hact) hbcst hcheck hmis'
  · have hlimit : ∀ g : Seg, Fault.alignmentCheck ≠ if g = .ss then .stackSegment else .generalProtection := fun g => by
      split <;> simp
    obtain ⟨hx, -⟩ | ⟨hx, -⟩ | ⟨m, x, hm, hrm, hfault⟩ := faultsHaveCauses i s _ h
    · cases hx
    · cases hx
    · obtain ⟨hx, -⟩ | ⟨hx, -⟩ | ⟨hx, -⟩ | ⟨hx, -⟩ | ⟨-, hcls, hb, -, hcause⟩ | ⟨-, _, _, _, -, -, -, hx, -⟩ := hfault
      · cases hx
      · exact absurd hx (hlimit _)
      · exact absurd hx (hlimit _)
      · cases hx
      · exact ⟨m, x, hm, hrm, hcls, hb, hcause⟩
      · cases hx

/-- Settles O55. -/
theorem pageFaultLowestByte : Obligations.PageFaultLowestByte := by
  intro m i s x k la hfixed hm hrm hready hpast halign hpg hkinds hk hlive hla hfails hlow
  have hpf := lowestPageFault_of_lowest hpg hk hlive hla hfails hlow
  exact ⟨_, exec_pageFault hfixed hm hrm hready hpast halign hkinds hpf, pageFaultCode_spec hfails⟩

/-! ### What never completes -/

section never

variable {m : Mode} {i : Instr} {s : State} (hm : s.cpuMode = .admitted m)
include hm

/-- A #UD condition or CR0.TS (`60_exceptions.md` R151 to R154). -/
theorem exec_ne_next_of_ud_or_ts (h : ¬ NoUd i s ∨ s.cr0.getLsbD 3 = true) (t : State) : exec i s ≠ .next t := by
  by_cases hud : NoUd i s
  · have hts : s.ts = true := h.resolve_left (not_not.mpr hud)
    exact exec_ne_next_of_mem ((mem_stops_iff ..).mpr (.inr (.inr ⟨m, hm, .inl
      ⟨hts, (udCondition_eq_false_iff_noUd i s).mpr hud, rfl⟩⟩))) t
  · rw [← udCondition_eq_false_iff_noUd, Bool.not_eq_false] at hud
    exact exec_ne_next_of_mem ((mem_stops_iff ..).mpr (.inl ⟨hud, rfl⟩)) t

/-- A register form has #UD or #NM as its only stop. -/
theorem exec_register_ud_nm {r : VReg} (hrm : (operandsOf i).rm = .reg r) :
    (¬ NoUd i s → exec i s = .fault .invalidOpcode) ∧
    (NoUd i s → s.cr0.getLsbD 3 = true → exec i s = .fault .deviceNotAvailable) := by
  refine ⟨fun hud => ?_, fun hud (hts : s.ts = true) => ?_⟩
  · rw [← udCondition_eq_false_iff_noUd, Bool.not_eq_false] at hud
    exact exec_of_only_stop (x := .fault .invalidOpcode) (by simp [stops, udStops, nmStops, operandStops, hm, hrm, hud])
  · rw [← udCondition_eq_false_iff_noUd] at hud
    exact exec_of_only_stop (x := .fault .deviceNotAvailable)
      (by simp [stops, udStops, nmStops, operandStops, hm, hrm, hud, hts])

variable {x : Mem} (hrm : (operandsOf i).rm = .mem x)
include hrm

theorem exec_ne_next_of_access_stop {y : Stop} (h : y ∈ accessStops m (formOf i) (operandsOf i).ctl s (access m i s x)
    (byteLive (formOf i) (operandsOf i).ctl s)) (t : State) : exec i s ≠ .next t :=
  exec_ne_next_of_mem (mem_stops_of_access hm hrm h) t

/-- A misaligned legacy operand or segment base (`20_memory.md` R48, U6). -/
theorem exec_ne_next_of_not_legacyAligned (hcls : (formOf i).cls = .legacy)
    (h : ¬ LegacyAligned m s (access m i s x)) (t : State) : exec i s ≠ .next t := by
  obtain hbase | haddr := not_and_or.mp h
  · exact exec_ne_next_of_access_stop hm hrm ((mem_accessStops_iff ..).mpr (.inl ⟨hcls, hbase, rfl⟩)) t
  · exact exec_ne_next_of_access_stop hm hrm ((mem_accessStops_iff ..).mpr (.inr (.inl ⟨hcls, haddr, rfl⟩))) t

/-- A non-canonical byte, live or not (`20_memory.md` R53; log 16). -/
theorem exec_ne_next_of_nonCanonical (h : nonCanonical m s (access m i s x) = true) (t : State) : exec i s ≠ .next t :=
  exec_ne_next_of_access_stop hm hrm ((mem_accessStops_iff ..).mpr (.inr (.inr (.inl ⟨h, rfl⟩)))) t

/-- The #AC conditions of a broadcast (`60_exceptions.md` R158; log 21). -/
theorem exec_ne_next_of_alignmentCheck (hb : (operandsOf i).ctl.b = true)
    (hact : ∃ j, j < laneCount (formOf i) ∧ activeLane s (operandsOf i).ctl j) (hbcst : s.cfg.acBcst = true)
    (hcheck : alignmentChecked s = true)
    (hmis : (linearAddress m s (access m i s x).seg (access m i s x).ea).toNat % elemBytes (formOf i).elem ≠ 0) (t : State) :
    exec i s ≠ .next t := by
  rw [← exists_live_of_broadcast hb m s x] at hact
  rw [← size_of_broadcast hb m s x] at hmis
  exact exec_ne_next_of_access_stop hm hrm ((mem_accessStops_iff ..).mpr
    (.inr (.inr (.inr (.inr (.inr (.inr (.inl ⟨hb, hact, hbcst, hcheck, hmis, rfl⟩)))))))) t

/-- The refusal of an inaccessible masked-off byte without SuppressionHolds (`20_memory.md` R53). -/
theorem mem_stops_suppression {k : Nat} (hk : k < (access m i s x).size)
    (hlive : byteLive (formOf i) (operandsOf i).ctl s k = false)
    (hin : byteInaccessible m s (access m i s x) k = true) (hsupp : s.cfg.suppression = false) :
    Stop.refuse .suppressionNotAssumed ∈ stops (formOf i) (operandsOf i) s :=
  mem_stops_of_access hm hrm ((mem_accessStops_iff ..).mpr
    (.inr (.inr (.inr (.inl ⟨hsupp, ⟨k, hk, hlive, hin⟩, rfl⟩)))))

/-- An inaccessible live byte: each cause of R47 is a stop (`20_memory.md` R47, R51; log 28). -/
theorem exec_ne_next_of_live_inaccessible {k : Nat} (hk : k < (access m i s x).size)
    (hlive : byteLive (formOf i) (operandsOf i).ctl s k = true)
    (hin : byteInaccessible m s (access m i s x) k = true) (t : State) : exec i s ≠ .next t := by
  have hstop := fun y h => exec_ne_next_of_access_stop hm hrm (y := y) ((mem_accessStops_iff ..).mpr h) t
  simp only [byteInaccessible, Bool.or_eq_true, beq_iff_eq] at hin
  obtain (((hden | hlim) | hpf) | hdevice) | htable := hin
  · exact hstop _ (.inr (.inr (.inr (.inr (.inl ⟨⟨k, hk, hlive⟩, hden, rfl⟩)))))
  · exact hstop _ (.inr (.inr (.inr (.inr (.inr (.inl ⟨⟨k, hk, hlive, hlim⟩, rfl⟩))))))
  · obtain ⟨y, hy⟩ : ∃ y, lowestPageFault m s (access m i s x) (byteLive (formOf i) (operandsOf i).ctl s) = some y := by
      rw [← Option.ne_none_iff_exists', Ne, lowestPageFault_eq_none]
      intro hnone
      rw [hnone k hk hlive] at hpf
      cases hpf
    exact hstop _ (.inr (.inr (.inr (.inr (.inr (.inr (.inr (.inr (.inr ⟨y, hy, rfl⟩)))))))))
  · exact hstop _ (.inr (.inr (.inr (.inr (.inr (.inr (.inr (.inl ⟨⟨k, hk, hlive, hdevice⟩, rfl⟩))))))))
  · exact hstop _ (.inr (.inr (.inr (.inr (.inr (.inr (.inr (.inr (.inl ⟨⟨k, hk, hlive, htable⟩, rfl⟩)))))))))

end never

/-- Settles O57. -/
theorem inaccessibleNeverCompletes : Obligations.InaccessibleNeverCompletes := by
  intro m i s hm
  refine ⟨exec_ne_next_of_ud_or_ts hm, fun r => exec_register_ud_nm hm, fun x hrm =>
    ⟨exec_ne_next_of_not_legacyAligned hm hrm, fun hm64 hcan => ?_, fun hb hact hbcst ham hac hcpl hmis => ?_,
      fun k hk hin => ⟨fun hlive => ?_, fun hlive hsupp hany => ?_⟩⟩⟩
  · exact exec_ne_next_of_nonCanonical hm hrm ((nonCanonical_iff ..).mpr ⟨hm64, hcan⟩)
  · exact exec_ne_next_of_alignmentCheck hm hrm hb hact hbcst ((alignmentChecked_iff s).mpr ⟨ham, hac, hcpl⟩) hmis
  · cases hl : byteLive (formOf i) (operandsOf i).ctl s k with
    | true => exact exec_ne_next_of_live_inaccessible hm hrm hk hl hin
    | false => exact exec_ne_next_of_mem (mem_stops_suppression hm hrm hk hl hin (by simpa [hl] using hlive))
  · exact exec_refused_of_any hany (mem_stops_suppression hm hrm hk hlive hin hsupp)

end Sys2Proof.Proofs
end
